-- ==== Sys2Proof/Word.lean ====
section
/-! DEFINITION. The two value types of the machine: bytes and words (10_state.md rule R20). -/

namespace Sys2Proof

/-- An 8-bit value. -/
abbrev Byte := BitVec 8

/-- A 16-bit value. -/
abbrev Word := BitVec 16

end Sys2Proof
end

