-- ==== Sys2Proof/Machine/Bits.lean ====
section
/-! DEFINITION. The decomposition of a word into its bytes (10_state.md rule R20). -/

namespace Sys2Proof.Machine

/-- `low(v) = v[7:0]` (10_state.md rule R20). -/
def lowByte (v : Word) : Byte := v.extractLsb' 0 8

/-- `high(v) = v[15:8]` (10_state.md rule R20). -/
def highByte (v : Word) : Byte := v.extractLsb' 8 8

/-- `h ++ l`: `h` as bits 15:8 and `l` as bits 7:0 (00_scope.md rule R7). -/
def joinBytes (h l : Byte) : Word := h ++ l

end Sys2Proof.Machine
end

