-- ==== Sys2Proof/Syntax/Operands.lean ====
section
/-! DEFINITION. The operands of instructions, decoded (30_encoding.md rules R101, R105 to R110). -/

namespace Sys2Proof

/-- The operation width `w` (30_encoding.md rule R108). -/
inductive Width
  | w8
  | w16
  deriving DecidableEq, Repr

/-- The width in bits. -/
abbrev Width.bits : Width → Nat
  | .w8 => 8
  | .w16 => 16

/-- The width in bytes. -/
def Width.bytes : Width → Nat
  | .w8 => 1
  | .w16 => 2

/-- The operand registers by width: Reg8 and Reg16 (30_encoding.md rule R101, decision D40). -/
inductive Reg : Width → Type
  | al : Reg .w8
  | ah : Reg .w8
  | bl : Reg .w8
  | bh : Reg .w8
  | cl : Reg .w8
  | ch : Reg .w8
  | dl : Reg .w8
  | dh : Reg .w8
  | ax : Reg .w16
  | bx : Reg .w16
  | cx : Reg .w16
  | dx : Reg .w16
  | sp : Reg .w16
  deriving DecidableEq, Repr

/-- The addressing modes of a memory operand: Direct(a) and IndirectBX(off) (30_encoding.md rule R101). -/
inductive Mode
  | direct (a : Word)
  | indirect (off : Option Word)
  deriving DecidableEq, Repr

/-- An operand that can be read and written: `r` or `m` (30_encoding.md rule R110). -/
inductive Loc (w : Width)
  | reg (r : Reg w)
  | mem (m : Mode)
  deriving DecidableEq, Repr

/-- An operand that is only read: `r`, `m` or `i` (30_encoding.md rule R110). -/
inductive Source (w : Width)
  | reg (r : Reg w)
  | mem (m : Mode)
  | imm (v : BitVec w.bits)
  deriving DecidableEq, Repr

/-- The five operand forms of a two-operand instruction (30_encoding.md rule R110): there is no `m,m` form, the
destination is never an immediate and both operands have one width (rule R108), so an instruction of another form
cannot be written down. -/
inductive Operands (w : Width)
  | rr (dst src : Reg w)
  | rm (dst : Reg w) (src : Mode)
  | mr (dst : Mode) (src : Reg w)
  | ri (dst : Reg w) (src : BitVec w.bits)
  | mi (dst : Mode) (src : BitVec w.bits)
  deriving DecidableEq, Repr

/-- The destination operand. -/
def Operands.dst {w : Width} : Operands w → Loc w
  | .rr d _ => .reg d
  | .rm d _ => .reg d
  | .mr d _ => .mem d
  | .ri d _ => .reg d
  | .mi d _ => .mem d

/-- The source operand. -/
def Operands.src {w : Width} : Operands w → Source w
  | .rr _ s => .reg s
  | .rm _ s => .mem s
  | .mr _ s => .reg s
  | .ri _ v => .imm v
  | .mi _ v => .imm v

/-- The port of IN and OUT: PortImm(v) or PortDX (30_encoding.md rule R101). -/
inductive Port
  | imm (v : Byte)
  | dx
  deriving DecidableEq, Repr

end Sys2Proof
end

