-- ==== Sys2Proof/Syntax.lean ====
section
/-! DEFINITION. The instructions: one constructor per row of spec/opcode_table.json (30_encoding.md rule R110). -/

namespace Sys2Proof

/-- A decoded instruction, in the order of spec/opcode_table.json. -/
inductive Instr
  | add (w : Width) (o : Operands w)
  | adc (w : Width) (o : Operands w)
  | sub (w : Width) (o : Operands w)
  | sbb (w : Width) (o : Operands w)
  | cmp (w : Width) (o : Operands w)
  | and (w : Width) (o : Operands w)
  | or (w : Width) (o : Operands w)
  | xor (w : Width) (o : Operands w)
  | inc (w : Width) (d : Loc w)
  | dec (w : Width) (d : Loc w)
  | neg (w : Width) (d : Loc w)
  | not (w : Width) (d : Loc w)
  | mov (w : Width) (o : Operands w)
  | jmp (t : Word)
  | jz (t : Word)
  | jnz (t : Word)
  | js (t : Word)
  | jns (t : Word)
  | jc (t : Word)
  | jnc (t : Word)
  | jo (t : Word)
  | jno (t : Word)
  | call (t : Word)
  | push (r : Reg .w16)
  | pop (r : Reg .w16)
  | pushf
  | popf
  | inp (w : Width) (p : Port)
  | outp (w : Width) (p : Port)
  | int (n : Byte)
  | hlt
  | cli
  | sti
  | nop
  | ret
  | iret
  deriving DecidableEq, Repr

end Sys2Proof
end

