-- ==== Sys2Proof/Syntax/Program.lean ====
section
/-! DEFINITION. The resolved Program, the model's input: descriptors as the compiler emits them and data blocks
(30_encoding.md rules R101 to R103, 00_scope.md rule R11). Nothing in it is checked yet: WellFormed and Decode do that. -/

namespace Sys2Proof

/-- The opcode families (30_encoding.md rule R101). -/
inductive Family
  | binaryAlu
  | unaryAlu
  | dataMove
  | jumpCall
  | stack
  | io
  | softwareInterrupt
  | processorControl
  | return
  deriving DecidableEq, Repr

/-- The mnemonics of spec/opcode_table.json, in its order. -/
inductive Mnemonic
  | add | adc | sub | sbb | cmp | and | or | xor
  | inc | dec | neg | not
  | mov
  | jmp | jz | jnz | js | jns | jc | jnc | jo | jno | call
  | push | pop | pushf | popf
  | inp | outp
  | int
  | hlt | cli | sti | nop
  | ret | iret
  deriving DecidableEq, Repr

/-- The family of a mnemonic (the column "format" of spec/opcode_table.json). -/
def Mnemonic.family : Mnemonic → Family
  | .add | .adc | .sub | .sbb | .cmp | .and | .or | .xor => .binaryAlu
  | .inc | .dec | .neg | .not => .unaryAlu
  | .mov => .dataMove
  | .jmp | .jz | .jnz | .js | .jns | .jc | .jnc | .jo | .jno | .call => .jumpCall
  | .push | .pop | .pushf | .popf => .stack
  | .inp | .outp => .io
  | .int => .softwareInterrupt
  | .hlt | .cli | .sti | .nop => .processorControl
  | .ret | .iret => .return

/-- A port operand as the compiler emits it. -/
inductive RawPort
  | imm (v : Nat)
  | dx
  deriving DecidableEq, Repr

/-- An operand as the compiler emits it (30_encoding.md rule R101); the numbers that rule R103 range-checks are Nat. -/
inductive Operand
  | reg8 (r : Reg .w8)
  | reg16 (r : Reg .w16)
  | mem (m : Mode)
  | imm (v : Nat)
  | port (p : RawPort)
  | target (t : Word)
  | intNum (n : Nat)
  deriving DecidableEq, Repr

/-- The part of a descriptor that says what the instruction is: family tag, operation, width where the family has one,
operands (30_encoding.md rule R101). -/
structure Code where
  family : Family
  op : Mnemonic
  w : Option Width
  operands : List Operand
  deriving DecidableEq, Repr

/-- A descriptor (30_encoding.md rule R101) with the instruction bytes the Program supplies for it (rule R102). -/
structure Descriptor where
  addr : Word
  len : Nat
  code : Code
  bytes : List Byte
  deriving DecidableEq, Repr

/-- A data block: literal or unassigned bytes from an address up (10_state.md rule R55, decision D41). -/
structure DataBlock where
  addr : Nat
  bytes : List (Option Byte)
  deriving DecidableEq, Repr

/-- The Program: "ordered instruction descriptors keyed by start address, plus initial data-block contents"
(00_scope.md rule R11). -/
structure Program where
  descriptors : List Descriptor
  data : List DataBlock
  deriving DecidableEq, Repr

/-- Why a Program or a descriptor is refused (30_encoding.md rules R103, R111). -/
inductive Reject
  /-- A descriptor with `len(d) = 0`. -/
  | zeroLength
  /-- An instruction that does not lie in `[0, MEM_MAX]`. -/
  | outsideMemory
  /-- The Program does not supply exactly `len(d)` bytes for the descriptor. -/
  | byteCount
  /-- A JumpCall instruction whose length is not 3 (rule R104). -/
  | jumpLength
  /-- Two instructions overlap. -/
  | overlap
  /-- A literal of a data block lies outside `[0, MEM_MAX]`. -/
  | dataOutsideMemory
  /-- The family tag is not the mnemonic's family. -/
  | wrongFamily
  /-- A width is missing where the family has one, or given where it has none. -/
  | wrongWidth
  /-- The operands are of no form of the opcode table's row (rule R110). -/
  | wrongOperands
  /-- An immediate that does not fit its width. -/
  | immediateRange
  /-- A port number that does not fit 8 bits. -/
  | portRange
  /-- An interrupt number that does not fit 8 bits. -/
  | interruptRange
  /-- Bytes that are no table word of the model (log 2). -/
  | badTableWord
  deriving DecidableEq, Repr

end Sys2Proof
end

