-- ==== Sys2Proof/WellFormed.lean ====
section
/-! DEFINITION. The checks a Program must pass to be admitted, each with its name (30_encoding.md rules R103, R104),
but for the operand shapes, which Decode.lean checks. A decoded `Instr` needs no check: its types admit only the forms of
rule R110. -/

namespace Sys2Proof

/-- Whether a width is admissible for a family (the column "width" of spec/opcode_table.json). The stack family has the one
width 16 and its descriptors may leave it out, as those of spec/95_test_vectors.md do (log 1). -/
def Family.widthOk : Family → Option Width → Bool
  | .binaryAlu, w | .unaryAlu, w | .dataMove, w | .io, w => w.isSome
  | .stack, w => decide (w ≠ some .w8)
  | .jumpCall, w | .softwareInterrupt, w | .processorControl, w | .return, w => w.isNone

/-- What is wrong with one operand's number (30_encoding.md rule R103: "every immediate fits its width; every `IntNum`,
`PortImm` fits 8 bits"). -/
def Operand.problem? (w : Option Width) : Operand → Option Reject
  | .imm v =>
    match w with
    | some w => if v < 2 ^ w.bits then none else some .immediateRange
    | none => some .wrongOperands
  | .port (.imm v) => if v < 2 ^ 8 then none else some .portRange
  | .intNum n => if n < 2 ^ 8 then none else some .interruptRange
  | _ => none

/-- What is wrong with the family tag, the width or an operand's number of a descriptor. -/
def Code.problem? (c : Code) : Option Reject :=
  if c.family ≠ c.op.family then some .wrongFamily
  else if c.family.widthOk c.w then c.operands.findSome? (Operand.problem? c.w)
  else some .wrongWidth

/-- What is wrong with the placement of a descriptor in a memory `[0, memMax]` (30_encoding.md rules R103, R104). -/
def Descriptor.problem? (memMax : Nat) (d : Descriptor) : Option Reject :=
  if d.len = 0 then some .zeroLength
  else if memMax < d.addr.toNat + d.len - 1 then some .outsideMemory
  else if d.bytes.length ≠ d.len then some .byteCount
  else if d.code.family = .jumpCall ∧ d.len ≠ 3 then some .jumpLength
  else none

/-- The memory address `a` lies in the descriptor's instruction. -/
def Descriptor.covers (d : Descriptor) (a : Nat) : Bool :=
  decide (d.addr.toNat ≤ a) && decide (a < d.addr.toNat + d.len)

/-- Two instructions share no address. -/
def Descriptor.apart (d e : Descriptor) : Bool :=
  decide (d.addr.toNat + d.len ≤ e.addr.toNat) || decide (e.addr.toNat + e.len ≤ d.addr.toNat)

/-- "instructions do not overlap" (30_encoding.md rule R103). -/
def Descriptor.allApart : List Descriptor → Bool
  | [] => true
  | d :: ds => ds.all d.apart && Descriptor.allApart ds

/-- Every literal of bytes that stand from `a` up lies in `[0, memMax]`. -/
def literalsInside (memMax : Nat) : Nat → List (Option Byte) → Bool
  | _, [] => true
  | a, none :: bs => literalsInside memMax (a + 1) bs
  | a, some _ :: bs => decide (a ≤ memMax) && literalsInside memMax (a + 1) bs

/-- What is wrong with a data block (DESIGN CHOICE, log 24): a literal outside memory. An unassigned byte is laid nowhere
(70_reset_and_hazards.md rule R400 step 2), so it may stand at any address. -/
def DataBlock.problem? (memMax : Nat) (b : DataBlock) : Option Reject :=
  if literalsInside memMax b.addr b.bytes then none else some .dataOutsideMemory

/-- What is wrong with the layout of a Program: the first problem of a descriptor, an overlap, a data block outside memory. -/
def Program.layoutProblem? (memMax : Nat) (p : Program) : Option Reject :=
  match p.descriptors.findSome? (Descriptor.problem? memMax) with
  | some r => some r
  | none =>
    if Descriptor.allApart p.descriptors then p.data.findSome? (DataBlock.problem? memMax)
    else some .overlap

end Sys2Proof
end

