-- ==== Sys2Proof/Decode.lean ====
section
/-! DEFINITION. Decoding (30_encoding.md rules R100 to R111). The hardware decodes by descriptor: no source gives a bit
pattern (91_not_in_source.md N1), and the instruction bytes "never determine semantics; the descriptor does" (rule R102).
So `decodeCode` reads a descriptor's code, rejecting by name, and `encodeCode` writes it. The byte form at the end of the
file is the MODEL'S OWN numbering of descriptors, for the host's questions only (log 2). -/

namespace Sys2Proof

/-- The two operands of a width-`w` instruction, in one of the forms `r,r` `r,m` `m,r` `r,i` `m,i` (rule R110). -/
def readOperands : (w : Width) → List Operand → Option (Operands w)
  | .w8, [.reg8 d, .reg8 s] => some (.rr d s)
  | .w8, [.reg8 d, .mem m] => some (.rm d m)
  | .w8, [.mem m, .reg8 s] => some (.mr m s)
  | .w8, [.reg8 d, .imm v] => some (.ri d (BitVec.ofNat 8 v))
  | .w8, [.mem m, .imm v] => some (.mi m (BitVec.ofNat 8 v))
  | .w16, [.reg16 d, .reg16 s] => some (.rr d s)
  | .w16, [.reg16 d, .mem m] => some (.rm d m)
  | .w16, [.mem m, .reg16 s] => some (.mr m s)
  | .w16, [.reg16 d, .imm v] => some (.ri d (BitVec.ofNat 16 v))
  | .w16, [.mem m, .imm v] => some (.mi m (BitVec.ofNat 16 v))
  | _, _ => none

/-- The one operand of a width-`w` unary instruction, `r` or `m` (rule R110). -/
def readLoc : (w : Width) → List Operand → Option (Loc w)
  | .w8, [.reg8 r] => some (.reg r)
  | .w8, [.mem m] => some (.mem m)
  | .w16, [.reg16 r] => some (.reg r)
  | .w16, [.mem m] => some (.mem m)
  | _, _ => none

/-- A port operand. -/
def readPort : RawPort → Port
  | .imm v => .imm (BitVec.ofNat 8 v)
  | .dx => .dx

/-- The operands of IN: `AL|AX, PortImm|PortDX` (rule R110). -/
def readIn : Width → List Operand → Option Port
  | .w8, [.reg8 .al, .port p] => some (readPort p)
  | .w16, [.reg16 .ax, .port p] => some (readPort p)
  | _, _ => none

/-- The operands of OUT: `PortImm|PortDX, AL|AX` (rule R110). -/
def readOut : Width → List Operand → Option Port
  | .w8, [.port p, .reg8 .al] => some (readPort p)
  | .w16, [.port p, .reg16 .ax] => some (readPort p)
  | _, _ => none

/-- A jump target. -/
def readTarget : List Operand → Option Word
  | [.target t] => some t
  | _ => none

/-- The register of PUSH and POP. -/
def readReg16 : List Operand → Option (Reg .w16)
  | [.reg16 r] => some r
  | _ => none

/-- The number of INT. -/
def readIntNum : List Operand → Option Byte
  | [.intNum n] => some (BitVec.ofNat 8 n)
  | _ => none

/-- No operand. -/
def readNone : List Operand → Option Unit
  | [] => some ()
  | _ => none

/-- The decoded operands, or the rejection of their shape. -/
def withShape {α : Type} (o : Option α) (mk : α → Instr) : Except Reject Instr :=
  match o with
  | some a => .ok (mk a)
  | none => .error .wrongOperands

/-- The same for an instruction whose operands have the width of the descriptor. -/
def withWidth {α : Width → Type} (c : Code) (read : (w : Width) → List Operand → Option (α w))
    (mk : (w : Width) → α w → Instr) : Except Reject Instr :=
  match c.w with
  | some w => withShape (read w c.operands) (mk w)
  | none => .error .wrongWidth

/-- The operand shape of each row of the opcode table (rule R110). -/
def decodeShape (c : Code) : Except Reject Instr :=
  match c.op with
  | .add => withWidth c readOperands .add
  | .adc => withWidth c readOperands .adc
  | .sub => withWidth c readOperands .sub
  | .sbb => withWidth c readOperands .sbb
  | .cmp => withWidth c readOperands .cmp
  | .and => withWidth c readOperands .and
  | .or => withWidth c readOperands .or
  | .xor => withWidth c readOperands .xor
  | .inc => withWidth c readLoc .inc
  | .dec => withWidth c readLoc .dec
  | .neg => withWidth c readLoc .neg
  | .not => withWidth c readLoc .not
  | .mov => withWidth c readOperands .mov
  | .jmp => withShape (readTarget c.operands) .jmp
  | .jz => withShape (readTarget c.operands) .jz
  | .jnz => withShape (readTarget c.operands) .jnz
  | .js => withShape (readTarget c.operands) .js
  | .jns => withShape (readTarget c.operands) .jns
  | .jc => withShape (readTarget c.operands) .jc
  | .jnc => withShape (readTarget c.operands) .jnc
  | .jo => withShape (readTarget c.operands) .jo
  | .jno => withShape (readTarget c.operands) .jno
  | .call => withShape (readTarget c.operands) .call
  | .push => withShape (readReg16 c.operands) .push
  | .pop => withShape (readReg16 c.operands) .pop
  | .pushf => withShape (readNone c.operands) (fun _ => .pushf)
  | .popf => withShape (readNone c.operands) (fun _ => .popf)
  | .inp => withWidth c readIn .inp
  | .outp => withWidth c readOut .outp
  | .int => withShape (readIntNum c.operands) .int
  | .hlt => withShape (readNone c.operands) (fun _ => .hlt)
  | .cli => withShape (readNone c.operands) (fun _ => .cli)
  | .sti => withShape (readNone c.operands) (fun _ => .sti)
  | .nop => withShape (readNone c.operands) (fun _ => .nop)
  | .ret => withShape (readNone c.operands) (fun _ => .ret)
  | .iret => withShape (readNone c.operands) (fun _ => .iret)

/-- THE DECODER: the instruction a descriptor's code stands for, or why it is refused (rules R100, R103, R111). -/
def decodeCode (c : Code) : Except Reject Instr :=
  match c.problem? with
  | some r => .error r
  | none => decodeShape c

/-- What is wrong with a descriptor of a memory `[0, memMax]`: its placement or its code. -/
def Descriptor.reject? (memMax : Nat) (d : Descriptor) : Option Reject :=
  match d.problem? memMax with
  | some r => some r
  | none =>
    match decodeCode d.code with
    | .error r => some r
    | .ok _ => none

/-- Why a Program is not admitted to a memory `[0, memMax]` (rule R103), `none` if it is admitted. -/
def Program.reject? (memMax : Nat) (p : Program) : Option Reject :=
  match p.descriptors.findSome? (Descriptor.reject? memMax) with
  | some r => some r
  | none => p.layoutProblem? memMax

/-! ## The encoder -/

/-- A register operand. -/
def regOperand : {w : Width} → Reg w → Operand
  | .w8, r => .reg8 r
  | .w16, r => .reg16 r

/-- The operand list of a two-operand instruction. -/
def operandList {w : Width} : Operands w → List Operand
  | .rr d s => [regOperand d, regOperand s]
  | .rm d m => [regOperand d, .mem m]
  | .mr m s => [.mem m, regOperand s]
  | .ri d v => [regOperand d, .imm v.toNat]
  | .mi m v => [.mem m, .imm v.toNat]

/-- The operand list of a unary instruction. -/
def locList {w : Width} : Loc w → List Operand
  | .reg r => [regOperand r]
  | .mem m => [.mem m]

/-- A port operand. -/
def rawPort : Port → RawPort
  | .imm v => .imm v.toNat
  | .dx => .dx

/-- The data register of IN and OUT: AL or AX (46_io.md rule R260). -/
def dataReg : (w : Width) → Reg w
  | .w8 => .al
  | .w16 => .ax

/-- The mnemonic of an instruction. -/
def Instr.mnemonic : Instr → Mnemonic
  | .add _ _ => .add
  | .adc _ _ => .adc
  | .sub _ _ => .sub
  | .sbb _ _ => .sbb
  | .cmp _ _ => .cmp
  | .and _ _ => .and
  | .or _ _ => .or
  | .xor _ _ => .xor
  | .inc _ _ => .inc
  | .dec _ _ => .dec
  | .neg _ _ => .neg
  | .not _ _ => .not
  | .mov _ _ => .mov
  | .jmp _ => .jmp
  | .jz _ => .jz
  | .jnz _ => .jnz
  | .js _ => .js
  | .jns _ => .jns
  | .jc _ => .jc
  | .jnc _ => .jnc
  | .jo _ => .jo
  | .jno _ => .jno
  | .call _ => .call
  | .push _ => .push
  | .pop _ => .pop
  | .pushf => .pushf
  | .popf => .popf
  | .inp _ _ => .inp
  | .outp _ _ => .outp
  | .int _ => .int
  | .hlt => .hlt
  | .cli => .cli
  | .sti => .sti
  | .nop => .nop
  | .ret => .ret
  | .iret => .iret

/-- The width an instruction's descriptor gives (the column "width" of spec/opcode_table.json). -/
def Instr.width : Instr → Option Width
  | .add w _ | .adc w _ | .sub w _ | .sbb w _ | .cmp w _ | .and w _ | .or w _ | .xor w _ => some w
  | .inc w _ | .dec w _ | .neg w _ | .not w _ => some w
  | .mov w _ => some w
  | .push _ | .pop _ | .pushf | .popf => some .w16
  | .inp w _ | .outp w _ => some w
  | _ => none

/-- The operand list of an instruction's descriptor (rule R110). -/
def Instr.operands : Instr → List Operand
  | .add _ o | .adc _ o | .sub _ o | .sbb _ o | .cmp _ o | .and _ o | .or _ o | .xor _ o => operandList o
  | .inc _ d | .dec _ d | .neg _ d | .not _ d => locList d
  | .mov _ o => operandList o
  | .jmp t | .jz t | .jnz t | .js t | .jns t | .jc t | .jnc t | .jo t | .jno t | .call t => [.target t]
  | .push r | .pop r => [.reg16 r]
  | .inp w p => [regOperand (dataReg w), .port (rawPort p)]
  | .outp w p => [.port (rawPort p), regOperand (dataReg w)]
  | .int n => [.intNum n.toNat]
  | .pushf | .popf | .hlt | .cli | .sti | .nop | .ret | .iret => []

/-- THE ENCODER: the descriptor code of an instruction (rules R101, R110). -/
def encodeCode (i : Instr) : Code :=
  { family := i.mnemonic.family, op := i.mnemonic, w := i.width, operands := i.operands }

/-! ## The model's own byte form of a descriptor's code
DESIGN CHOICE (log 2, safe): the opcode table gives no bits, so these bytes are the model's numbering of descriptors. No
step of the machine reads them. They serve `decodeTableWord` and `withFetchWord` alone. Byte 0 is the row number of
spec/opcode_table.json. A jump follows with its target, low byte first; INT with its number; the families of two widths with
a width byte (0 or 1); every other operand is a tag byte and its payload. -/

/-- The mnemonics in the order of spec/opcode_table.json. -/
def Mnemonic.all : List Mnemonic :=
  [.add, .adc, .sub, .sbb, .cmp, .and, .or, .xor, .inc, .dec, .neg, .not, .mov,
   .jmp, .jz, .jnz, .js, .jns, .jc, .jnc, .jo, .jno, .call,
   .push, .pop, .pushf, .popf, .inp, .outp, .int, .hlt, .cli, .sti, .nop, .ret, .iret]

/-- The row number of a mnemonic. -/
def Mnemonic.row (m : Mnemonic) : Byte := BitVec.ofNat 8 (Mnemonic.all.idxOf m)

/-- How many tagged operands a row has. -/
def Mnemonic.arity (m : Mnemonic) : Nat :=
  match m.family with
  | .binaryAlu | .dataMove | .io => 2
  | .unaryAlu => 1
  | .stack => if m = .push ∨ m = .pop then 1 else 0
  | .jumpCall | .softwareInterrupt | .processorControl | .return => 0

/-- The number of a register within its width, in the order of 30_encoding.md rule R101. -/
def regNumber : {w : Width} → Reg w → Byte
  | _, .al => 0
  | _, .ah => 1
  | _, .bl => 2
  | _, .bh => 3
  | _, .cl => 4
  | _, .ch => 5
  | _, .dl => 6
  | _, .dh => 7
  | _, .ax => 8
  | _, .bx => 9
  | _, .cx => 10
  | _, .dx => 11
  | _, .sp => 12

/-- The tagged bytes of an operand of a width-`w` instruction. -/
def operandBytes (w : Width) : Operand → List Byte
  | .reg8 r => [regNumber r]
  | .reg16 r => [regNumber r]
  | .mem (.direct a) => [0x10, Machine.lowByte a, Machine.highByte a]
  | .mem (.indirect none) => [0x11]
  | .mem (.indirect (some a)) => [0x12, Machine.lowByte a, Machine.highByte a]
  | .imm v =>
    match w with
    | .w8 => [0x13, BitVec.ofNat 8 v]
    | .w16 => [0x14, BitVec.ofNat 8 v, BitVec.ofNat 8 (v / 256)]
  | .port (.imm v) => [0x15, BitVec.ofNat 8 v]
  | .port .dx => [0x16]
  | .target t => [Machine.lowByte t, Machine.highByte t]
  | .intNum n => [BitVec.ofNat 8 n]

/-- The width byte of a family with two widths. -/
def widthBytes (c : Code) : List Byte :=
  match c.family, c.w with
  | .stack, _ => []
  | _, some .w8 => [0]
  | _, some .w16 => [1]
  | _, none => []

/-- The byte form of an instruction. -/
def encodeBytes (i : Instr) : List Byte :=
  let c := encodeCode i
  c.op.row :: widthBytes c ++ c.operands.flatMap (operandBytes (c.w.getD .w16))

/-- The register operands by tag. -/
def tagRegisters : List Operand :=
  [.reg8 .al, .reg8 .ah, .reg8 .bl, .reg8 .bh, .reg8 .cl, .reg8 .ch, .reg8 .dl, .reg8 .dh,
   .reg16 .ax, .reg16 .bx, .reg16 .cx, .reg16 .dx, .reg16 .sp]

/-- A payload byte, and the bytes after it. -/
def takeByte (mk : Byte → Operand) : List Byte → Except Reject (Operand × List Byte)
  | v :: bs => .ok (mk v, bs)
  | [] => .error .badTableWord

/-- A payload word, low byte first, and the bytes after it. -/
def takeWord (mk : Word → Operand) : List Byte → Except Reject (Operand × List Byte)
  | l :: h :: bs => .ok (mk (Machine.joinBytes h l), bs)
  | _ => .error .badTableWord

/-- A tagged operand, and the bytes after it. -/
def readOperand : List Byte → Except Reject (Operand × List Byte)
  | [] => .error .badTableWord
  | t :: bs =>
    match tagRegisters[t.toNat]? with
    | some o => .ok (o, bs)
    | none =>
      if t = 0x10 then takeWord (fun a => .mem (.direct a)) bs
      else if t = 0x11 then .ok (.mem (.indirect none), bs)
      else if t = 0x12 then takeWord (fun a => .mem (.indirect (some a))) bs
      else if t = 0x13 then takeByte (fun v => .imm v.toNat) bs
      else if t = 0x14 then takeWord (fun v => .imm v.toNat) bs
      else if t = 0x15 then takeByte (fun v => .port (.imm v.toNat)) bs
      else if t = 0x16 then .ok (.port .dx, bs)
      else .error .badTableWord

/-- `n` tagged operands, and the bytes after them. -/
def readOperandBytes : Nat → List Byte → Except Reject (List Operand × List Byte)
  | 0, bs => .ok ([], bs)
  | n + 1, bs =>
    match readOperand bs with
    | .error r => .error r
    | .ok (o, bs) =>
      match readOperandBytes n bs with
      | .error r => .error r
      | .ok (os, bs) => .ok (o :: os, bs)

/-- A row with tagged operands, and the bytes after it. -/
def readTagged (op : Mnemonic) (w : Option Width) (bs : List Byte) : Except Reject (Code × List Byte) :=
  match readOperandBytes op.arity bs with
  | .error r => .error r
  | .ok (os, bs) => .ok ({ family := op.family, op := op, w := w, operands := os }, bs)

/-- A row whose only operand has no tag, and the bytes after it. -/
def readBare (op : Mnemonic) (o : Except Reject (Operand × List Byte)) : Except Reject (Code × List Byte) :=
  match o with
  | .error r => .error r
  | .ok (o, bs) => .ok ({ family := op.family, op := op, w := none, operands := [o] }, bs)

/-- A row with a width byte, and the bytes after it. -/
def readWide (op : Mnemonic) : List Byte → Except Reject (Code × List Byte)
  | [] => .error .badTableWord
  | w :: bs =>
    if w = 0 then readTagged op (some .w8) bs
    else if w = 1 then readTagged op (some .w16) bs
    else .error .badTableWord

/-- The operands of one row, and the bytes after them. -/
def readRow (op : Mnemonic) (bs : List Byte) : Except Reject (Code × List Byte) :=
  match op.family with
  | .jumpCall => readBare op (takeWord .target bs)
  | .softwareInterrupt => readBare op (takeByte (fun n => .intNum n.toNat) bs)
  | .stack => readTagged op (some .w16) bs
  | .processorControl | .return => readTagged op none bs
  | .binaryAlu | .unaryAlu | .dataMove | .io => readWide op bs

/-- The code of a byte form, and the bytes after it. -/
def readCode : List Byte → Except Reject (Code × List Byte)
  | [] => .error .badTableWord
  | b :: bs =>
    match Mnemonic.all[b.toNat]? with
    | none => .error .badTableWord
    | some op => readRow op bs

/-- The decoder of byte forms: total on any bytes, rejecting by name. It answers the instruction and the bytes after it. -/
def decodeBytes (bs : List Byte) : Except Reject (Instr × List Byte) :=
  match readCode bs with
  | .error r => .error r
  | .ok (c, rest) =>
    match decodeCode c with
    | .error r => .error r
    | .ok i => .ok (i, rest)

/-- The bytes of a table word, the first at the low end; the bits above `nbits` are 0. The longest byte form has 8 bytes. -/
def tableBytes (nbits w : Nat) : List Byte :=
  (List.range 8).map (fun k => BitVec.ofNat 8 (w % 2 ^ nbits / 256 ^ k))

/-- The instruction a table word stands for in the model's own byte form (log 2). -/
def decodeTableWord (nbits w : Nat) : Option Instr :=
  match decodeBytes (tableBytes nbits w) with
  | .ok (i, _) => some i
  | .error _ => none

end Sys2Proof
end

