-- ==== Sys2Proof/Config.lean ====
section
/-! DEFINITION. What is fixed for one machine (00_scope.md rule R6, 60_exceptions.md rule R321) and the free values. -/

namespace Sys2Proof

/-- The closed set of peripheral configurations (60_exceptions.md rule R321, decision D32). -/
inductive Configuration
  | picTimer
  | pioSwitchesLeds
  | pioPrinter
  | handshakePrinter
  deriving DecidableEq, Repr

/-- The peripheral modules (20_memory.md rule R80). -/
inductive Module
  | pic
  | timer
  | pio
  | handshake
  deriving DecidableEq, Repr

/-- The registers a module answers for on the I/O bus (20_memory.md rule R80). -/
inductive IoReg
  | eoi
  | imr
  | irr
  | isr
  | vec (k : Fin 8)
  | cont
  | comp
  | pa
  | pb
  | ca
  | cb
  | data
  | state
  deriving DecidableEq, Repr

/-- The peripheral items an `unchanged` reset may carry (the OPEN parameter UNCHANGED_CARRIES, decision D35).
The PIC registers are not among them: they "always return to architectural defaults on reset"
(60_exceptions.md rule R348). -/
inductive Carried
  | cont
  | comp
  | pa
  | pb
  | ca
  | cb
  | data
  | ie
  deriving DecidableEq, Repr

/-- The implementation parameters (00_scope.md rule R6). One machine keeps its parameters for ever
(60_exceptions.md rule R320). -/
structure Params where
  /-- CONFIG: the peripheral configuration. -/
  config : Configuration
  /-- MEM_MAX: the highest memory address. -/
  memMax : Nat
  /-- IO_MAX: the highest I/O address. -/
  ioMax : Nat
  /-- RESET_IP: the reset entry point. -/
  resetIp : Word
  /-- IO_MAP: the I/O address of every peripheral register. -/
  ioMap : List (Nat × IoReg)
  /-- PIC_VEC_RESET: the reset values of the PIC's vector registers. -/
  vecReset : Vector Byte 8
  /-- UNCHANGED_CARRIES: the peripheral items an `unchanged` reset keeps. -/
  carries : List Carried
  deriving DecidableEq, Repr

/-- The default IO_MAP (20_memory.md rule R80, decision D11). -/
def Config.ioMap : List (Nat × IoReg) :=
  [(0x10, .cont), (0x11, .comp),
   (0x20, .eoi), (0x21, .imr), (0x22, .irr), (0x23, .isr),
   (0x24, .vec 0), (0x25, .vec 1), (0x26, .vec 2), (0x27, .vec 3),
   (0x28, .vec 4), (0x29, .vec 5), (0x2A, .vec 6), (0x2B, .vec 7),
   (0x30, .pa), (0x31, .pb), (0x32, .ca), (0x33, .cb),
   (0x40, .data), (0x41, .state)]

/-- The default parameters (00_scope.md rule R6) with the configuration `c`.
DESIGN CHOICE (log 19, unsafe): the OPEN vector reset values are the suggested 0x00.
DESIGN CHOICE (log 20, safe): UNCHANGED_CARRIES is empty, the default of item I7. -/
def Config.params (c : Configuration) : Params :=
  { config := c
    memMax := 0x7FFF
    ioMax := 0xFF
    resetIp := 0x2000
    ioMap := Config.ioMap
    vecReset := Vector.replicate 8 0x00
    carries := [] }

/-- The constraints on the parameters: `0x03FF <= MEM_MAX <= 0xFFFE` (00_scope.md rule R6, decision D4), and an I/O map
whose slices do not overlap and lie in `[0, IO_MAX]` (20_memory.md rules R75, R76). -/
def Params.wf (p : Params) : Bool :=
  decide (0x03FF ≤ p.memMax) && decide (p.memMax ≤ 0xFFFE) &&
  decide ((p.ioMap.map Prod.fst).Nodup) && p.ioMap.all (fun e => decide (e.1 ≤ p.ioMax))

/-- RESET_SP is MEM_MAX + 1 (00_scope.md rule R6, decision D2). -/
def Params.resetSp (p : Params) : Word := BitVec.ofNat 16 (p.memMax + 1)

/-- Which modules a configuration holds (60_exceptions.md rule R321). -/
def Configuration.has : Configuration → Module → Bool
  | _, .pic => true
  | _, .timer => true
  | .pioSwitchesLeds, .pio => true
  | .pioPrinter, .pio => true
  | .handshakePrinter, .handshake => true
  | _, _ => false

/-- The module an I/O register belongs to (20_memory.md rule R80). -/
def IoReg.module : IoReg → Module
  | .eoi | .imr | .irr | .isr | .vec _ => .pic
  | .cont | .comp => .timer
  | .pa | .pb | .ca | .cb => .pio
  | .data | .state => .handshake

/-- A FREE VALUE: the byte a read of the EOI address returns, for the n-th draw
(60_exceptions.md rule R343, item I5: any value). -/
opaque Config.freeByte : Nat → Byte

/-- A FREE VALUE: the byte at an address that the n-th draw of a `randomize` reset filled
(70_reset_and_hazards.md rule R403, item I3: a free draw per byte). -/
opaque Config.freeFill : Nat → Nat → Byte

end Sys2Proof
end

