-- ==== Sys2Proof/Machine/State.lean ====
section
/-! DEFINITION. The state of the machine (10_state.md) as plain data, the reasons it can stop, and the state after reset. -/

namespace Sys2Proof.Machine

/-- The fault codes with their info (60_exceptions.md rule R331). A fault is the spec's own effect: the machine records it,
emits it and halts (rule R330), so an instruction that faults answers a NEXT state whose cycle is ending on `f`.
No meaning and no step answers `Outcome.fault` (log 4, safe). -/
inductive Fault
  /-- `mem-out-of-range`: raised by the memory transactions of memory operands, pushes, pops, vector reads, INT 6, INT 7. Safe. -/
  | memOutOfRange (addr : Nat)
  /-- `mem-write-reserved`: raised by a memory write to code. Safe. -/
  | memWriteReserved (addr : Nat)
  /-- `io-out-of-range`: raised by IN and OUT above IO_MAX. Safe. -/
  | ioOutOfRange (addr : Nat)
  /-- `io-unclaimed`: raised by IN and OUT at an address no present module claims. Safe. -/
  | ioUnclaimed (addr : Nat)
  /-- `stack-overflow`: raised by Push. Safe. -/
  | stackOverflow (sp : Word)
  /-- `stack-underflow`: raised by Pop. Safe. -/
  | stackUnderflow (sp : Word)
  /-- `no-instruction`: raised by decode where no descriptor starts at IP. Safe. -/
  | noInstruction (ip : Word)
  deriving DecidableEq, Repr

/-- Why the model refuses to go on. -/
inductive Refusal
  /-- Raised by an arm of exec whose instruction has no meaning yet. Safe. -/
  | notModelled (mnemonic : String)
  /-- Raised by step when the Program is not admitted: "a Program that breaks one is refused by the model, not executed"
  (30_encoding.md rule R103). Safe. -/
  | notAdmitted (why : Reject)
  deriving DecidableEq, Repr

/-- The architectural registers (10_state.md rules R21 to R32). -/
structure Regs where
  ax : Word
  bx : Word
  cx : Word
  dx : Word
  sp : Word
  ip : Word
  flags : Word
  deriving DecidableEq, Repr

/-- The internal registers and bus latches (10_state.md rules R35, R36). -/
structure Latches where
  ir : Byte
  ri : Word
  id : Word
  left : Word
  right : Word
  result : Word
  mar : Word
  mbr : Byte
  deriving DecidableEq, Repr

/-- What the memory bytes that no cell lists hold (70_reset_and_hazards.md rule R400). -/
inductive Fill
  /-- 0x00, as a `clean` reset leaves them. -/
  | zeros
  /-- The bytes of the n-th draw, as a `randomize` reset leaves them. -/
  | drawn (n : Nat)
  deriving DecidableEq, Repr

/-- Memory (10_state.md rule R40): the listed cells, addresses strictly rising, none equal to what its address reads as when
unlisted, and what the unlisted bytes hold. -/
structure Memory where
  cells : List Host.Cell
  fill : Fill
  deriving DecidableEq, Repr

/-- The interrupt controller (10_state.md rule R45). -/
structure Pic where
  imr : Byte
  irr : Byte
  isr : Byte
  vec : Vector Byte 8
  deriving DecidableEq, Repr

/-- The timer (10_state.md rule R46). -/
structure Timer where
  cont : Byte
  comp : Byte
  deriving DecidableEq, Repr

/-- The parallel I/O module and its external lines (10_state.md rule R47). -/
structure Pio where
  pa : Byte
  pb : Byte
  ca : Byte
  cb : Byte
  extA : Byte
  extB : Byte
  deriving DecidableEq, Repr

/-- The handshake module (10_state.md rule R48): DATA, and of STATE the two bits that are state, bit 7 (`ie`) and bit 0
(`busy`, the printer's line). -/
structure Handshake where
  data : Byte
  ie : Bool
  busy : Bool
  deriving DecidableEq, Repr

/-- The peripheral modules. A module absent from the configuration keeps its reset values and claims no address. -/
structure Devices where
  pic : Pic
  timer : Timer
  pio : Pio
  hs : Handshake
  deriving DecidableEq, Repr

/-- Why the engine is halted (10_state.md rule R50). -/
inductive HaltReason
  | hlt
  | int0
  | fault (f : Fault)
  deriving DecidableEq, Repr

/-- The run state (10_state.md rule R50). `awaitChar` also holds the byte the host has supplied and INT 6 has not yet taken
(log 8). -/
inductive Run
  | running
  | awaitChar (supplied : Option Byte)
  | halted (why : HaltReason)
  deriving DecidableEq, Repr

/-- Where the engine is in its cycle (40_engine.md rules R130, R134, R136; log 9). -/
inductive Phase
  /-- Between two cycles. -/
  | closed
  /-- Inside a cycle: its `cycle-start` is out, its `cycle-end` is not. -/
  | opened
  /-- Inside a cycle whose outcome is halt, for this reason: the run state becomes `Halted(reason)` only after the cycle's
  `cycle-end` (40_engine.md rule R130). -/
  | ending (why : HaltReason)
  /-- INT 3 has emitted `breakpoint` and the host has not resumed (47_software_interrupt.md rule R282). -/
  | breakpoint
  /-- The host has abandoned the cycle: it will request no further event of it (40_engine.md rule R136). -/
  | cancelled
  deriving DecidableEq, Repr

/-- The ALU operations (40_engine.md rule R160). -/
inductive AluOp
  | add
  | adc
  | sub
  | sbb
  | and
  | or
  | xor
  deriving DecidableEq, Repr

/-- The registers a `reg` event can name (60_exceptions.md rule R385). -/
inductive RegName
  | reg8 (r : Reg .w8)
  | reg16 (r : Reg .w16)
  | ip
  | flags
  | ir
  | ri
  | id
  deriving DecidableEq, Repr

/-- The bus transactions (40_engine.md rule R165). -/
inductive BusKind
  | memoryRead
  | memoryWrite
  | ioRead
  | ioWrite
  | interruptVectorRead
  deriving DecidableEq, Repr

/-- The outcome of a cycle (40_engine.md rule R134). -/
inductive CycleOutcome
  | continue
  | halt
  deriving DecidableEq, Repr

/-- The events (60_exceptions.md rule R385). The address of a `bus` event is absent for interrupt-vector-read, which
addresses no space (20_memory.md rule R60). -/
inductive Event
  | cycleStart (ip : Word)
  | cycleEnd (outcome : CycleOutcome)
  | mar (v : Word)
  | mbr (v : Byte)
  | bus (kind : BusKind) (addr : Option Nat) (ok : Bool)
  | reg (r : RegName) (v : Word)
  | alu (op : AluOp) (left right result flags : Word)
  | fault (f : Fault)
  | intAck
  | breakpoint
  | charRequest
  | outputChar (c : Byte)
  | picLine (k : Fin 8)
  | periph (r : IoReg) (v : Byte)
  | printerStrobe (c : Byte)
  deriving DecidableEq, Repr

/-- The memory policy of a reset (70_reset_and_hazards.md rule R400). -/
inductive Policy
  | unchanged
  | clean
  | randomize
  deriving DecidableEq, Repr

/-- The PIC lines that only the host raises (60_exceptions.md rules R342, R390, decision D37). -/
inductive ExtLine
  | line0
  | line3
  | line4
  | line5
  | line6
  | line7
  deriving DecidableEq, Repr

/-- What the host may do between two events (60_exceptions.md rule R390). Requesting the next event is `step`; reading a
snapshot has no effect. -/
inductive HostAction
  | tick
  | request (k : ExtLine)
  | setSwitches (v : Byte)
  | setBusy (b : Bool)
  | supply (c : Byte)
  | resume
  | cancel
  | reset (p : Program) (policy : Policy)
  deriving DecidableEq, Repr

/-- What the host does at one event boundary: any number of actions, in order (decision D23). -/
abbrev HostTurn := List HostAction

/-- The state. -/
structure State where
  /-- AX, BX, CX, DX, SP, IP, FLAGS. -/
  regs : Regs
  /-- IR, ri, id, left, right, result, MAR, MBR. -/
  latches : Latches
  /-- Memory. -/
  mem : Memory
  /-- The loaded Program; Reserved and Index are read from it (10_state.md rules R41, R42). -/
  program : Program
  /-- The machine's parameters and configuration. -/
  params : Params
  /-- PIC, timer, parallel I/O, handshake. -/
  dev : Devices
  /-- The run state. -/
  run : Run
  /-- The fault record: "the code and info of the fault that halted the machine, if any" (10_state.md rule R52). It is made
  before the fault's event and before the engine halts (40_engine.md rule R130). -/
  faultRecord : Option Fault
  /-- Where the engine is in its cycle. -/
  cycle : Phase
  /-- The event stream, newest first (10_state.md rule R52). -/
  events : List Event
  /-- The MODEL'S own field: the host's turns to come, one for each event boundary; none left means that the host acts no
  more (log 6). -/
  host : List HostTurn
  /-- The MODEL'S own field: how many free values have been drawn (log 15). -/
  draws : Nat
  deriving DecidableEq, Repr

/-- The machine right after `reset(program, clean)` (10_state.md rule R55, 70_reset_and_hazards.md rule R400) with the
empty Program, the default parameters and the configuration PicTimer, as in spec/95_test_vectors.md part L3
(DESIGN CHOICE, log 17, unsafe: the configuration and the policy). The values the spec leaves open are VEC (log 19) and the
external lines (log 20). -/
def State.reset : State :=
  { regs := { ax := 0, bx := 0, cx := 0, dx := 0, sp := 0x8000, ip := 0x2000, flags := 0 }
    latches := { ir := 0, ri := 0, id := 0, left := 0, right := 0, result := 0, mar := 0, mbr := 0 }
    mem := { cells := [], fill := .zeros }
    program := { descriptors := [], data := [] }
    params := Config.params .picTimer
    dev :=
      { pic := { imr := 0xFF, irr := 0, isr := 0, vec := Vector.replicate 8 0x00 }
        timer := { cont := 0, comp := 0 }
        pio := { pa := 0, pb := 0, ca := 0xFF, cb := 0xFF, extA := 0, extB := 0 }
        hs := { data := 0, ie := false, busy := false } }
    run := .running
    faultRecord := none
    cycle := .closed
    events := []
    host := []
    draws := 0 }

end Sys2Proof.Machine
end

