-- ==== Sys2Proof/Machine/Flags.lean ====
section
/-! DEFINITION. The FLAGS register (10_state.md rules R30, R31) and the ALU (40_engine.md rule R160). -/

namespace Sys2Proof.Machine

/-- CF is bit 0 (10_state.md rule R30). -/
def flagCF (f : Word) : Bool := f.getLsbD 0

/-- ZF is bit 6. -/
def flagZF (f : Word) : Bool := f.getLsbD 6

/-- SF is bit 7. -/
def flagSF (f : Word) : Bool := f.getLsbD 7

/-- IF is bit 9. -/
def flagIF (f : Word) : Bool := f.getLsbD 9

/-- OF is bit 11. -/
def flagOF (f : Word) : Bool := f.getLsbD 11

/-- A word with one bit replaced. -/
def setBit (f : Word) (i : Nat) (b : Bool) : Word :=
  if b then f ||| BitVec.twoPow 16 i else f &&& ~~~(BitVec.twoPow 16 i)

/-- FLAGS with IF replaced. -/
def setIF (f : Word) (b : Bool) : Word := setBit f 9 b

/-- FLAGS with bits 0, 6, 7 and 11 replaced, IF and the don't-care bits kept (10_state.md rule R31). -/
def setAluFlags (f : Word) (cf zf sf of : Bool) : Word :=
  setBit (setBit (setBit (setBit f 0 cf) 6 zf) 7 sf) 11 of

/-- What the ALU answers. -/
structure AluOut (n : Nat) where
  res : BitVec n
  cf : Bool
  zf : Bool
  sf : Bool
  of : Bool
  deriving DecidableEq, Repr

/-- The result with its carry and overflow, and the two flags every operation shares: "ZF = result is zero; SF = result's
signed view is negative" (40_engine.md rule R160). -/
def aluOut {n : Nat} (res : BitVec n) (cf of : Bool) : AluOut n :=
  { res := res, cf := cf, zf := decide (res.toNat = 0), sf := res.msb, of := of }

/-- The sum of ADD and ADC, whose exact value is `s` (40_engine.md rule R160). -/
def aluSum {n : Nat} (a b : BitVec n) (s : Nat) : AluOut n :=
  let res := BitVec.ofNat n s
  aluOut res (decide (s > 2 ^ n - 1)) (decide (a.msb = b.msb) && decide (res.msb ≠ a.msb))

/-- The difference of SUB and SBB, whose exact value is `t` (40_engine.md rule R160). -/
def aluDiff {n : Nat} (a b : BitVec n) (t : Int) : AluOut n :=
  let res := BitVec.ofInt n t
  aluOut res (decide (t < 0)) (decide (a.msb ≠ b.msb) && decide (res.msb = b.msb))

/-- THE ALU: a pure function of the operation, the operands and the carry flag (40_engine.md rule R160). -/
def alu {n : Nat} (op : AluOp) (a b : BitVec n) (cin : Bool) : AluOut n :=
  match op with
  | .add => aluSum a b (a.toNat + b.toNat)
  | .adc => aluSum a b (a.toNat + b.toNat + cin.toNat)
  | .sub => aluDiff a b ((a.toNat : Int) - b.toNat)
  | .sbb => aluDiff a b ((a.toNat : Int) - b.toNat - cin.toNat)
  | .and => aluOut (a &&& b) false false
  | .or => aluOut (a ||| b) false false
  | .xor => aluOut (a ^^^ b) false false

/-- FLAGS after an ALU operation (40_engine.md rule R161). -/
def flagsAfter {n : Nat} (f : Word) (o : AluOut n) : Word := setAluFlags f o.cf o.zf o.sf o.of

end Sys2Proof.Machine
end

