-- ==== Sys2Proof/Machine/Devices.lean ====
section
/-! DEFINITION. The peripheral modules (60_exceptions.md sections 3 and 6 to 8): the PIC, the timer, the parallel I/O port,
the handshake. Each operation answers the new devices and the events it reports, in order. -/

namespace Sys2Proof.Machine

/-! ## The interrupt controller -/

/-- The pending unmasked lines: IRR and not IMR. -/
def Pic.eligible (p : Pic) : Byte := p.irr &&& ~~~p.imr

/-- `INTR = (ISR = 0x00) and ((IRR and not IMR) != 0x00)` (60_exceptions.md rule R344, 90_conflicts.md C2). -/
def Pic.intr (p : Pic) : Bool := decide (p.isr = 0) && decide (p.eligible ≠ 0)

/-- "lowest index with IRR[k] = 1 and IMR[k] = 0" (60_exceptions.md rule R345). -/
def Pic.select (p : Pic) : Option (Fin 8) := (List.finRange 8).find? (fun k => p.eligible.getLsbD k)

/-- A line goes into service: `IRR[k] <- 0 ; ISR[k] <- 1` (60_exceptions.md rule R345). -/
def Pic.serve (p : Pic) (k : Fin 8) : Pic :=
  { p with irr := p.irr &&& ~~~(BitVec.twoPow 8 k), isr := p.isr ||| BitVec.twoPow 8 k }

/-- `acknowledge()`: the vector number it returns and the controller it leaves; it is "only called when INTR = 1"
(60_exceptions.md rule R345). -/
def Pic.acknowledge? (p : Pic) : Option (Byte × Pic) :=
  if p.intr then p.select.map (fun k => (p.vec[k], p.serve k)) else none

/-- `requestLine(k)`: IRR bit k is set; the request is latched once, masked or not (60_exceptions.md rule R341). DESIGN CHOICE
(log 22): `pic-line` is reported before IRR's `periph`. -/
def requestLine (k : Fin 8) (d : Devices) : Devices × List Event :=
  let irr := d.pic.irr ||| BitVec.twoPow 8 k
  ({ d with pic := { d.pic with irr := irr } }, [.picLine k, .periph .irr irr])

/-! ## The timer -/

/-- A tick: `CONT <- (CONT + 1) mod 256`, then "on `CONT == COMP`, raises PIC line 1" (60_exceptions.md rules R361, R362). -/
def tickTimer (d : Devices) : Devices × List Event :=
  let cont := d.timer.cont + 1
  let d' := { d with timer := { d.timer with cont := cont } }
  if cont = d.timer.comp then
    let r := requestLine 1 d'
    (r.1, .periph .cont cont :: r.2)
  else (d', [.periph .cont cont])

/-! ## The parallel I/O port -/

/-- `updatePort(A): PA <- (extA and CA) or (PA and not CA)` (60_exceptions.md rule R366). -/
def Pio.updateA (p : Pio) : Pio := { p with pa := (p.extA &&& p.ca) ||| (p.pa &&& ~~~p.ca) }

/-- `updatePort(B): PB <- (extB and CB) or (PB and not CB)` (60_exceptions.md rule R366). -/
def Pio.updateB (p : Pio) : Pio := { p with pb := (p.extB &&& p.cb) ||| (p.pb &&& ~~~p.cb) }

/-- The strobe output bit: `PA[1] and not CA[1]` (60_exceptions.md rule R370). -/
def Pio.strobe (p : Pio) : Bool := (p.pa &&& ~~~p.ca).getLsbD 1

/-- The LEDs of PioSwitchesLeds: `PB and not CB` (60_exceptions.md rule R369). -/
def Pio.leds (p : Pio) : Byte := p.pb &&& ~~~p.cb

/-- The printer of PioPrinter receives PB on a rising transition of the strobe output bit (60_exceptions.md rule R370). -/
def pioReaction (c : Configuration) (before after : Pio) : List Event :=
  if c = .pioPrinter ∧ before.strobe = false ∧ after.strobe = true then [.printerStrobe after.pb] else []

/-- Port A takes new contents; `updatePort(A)` recomputes PA and the device reacts (60_exceptions.md rules R367, R370).
DEDUCED (log 21, unsafe): the reaction follows every update of PA, so a write of CA can be the rising transition. -/
def refreshA (c : Configuration) (d : Devices) (new : Pio) : Devices × List Event :=
  let p := new.updateA
  ({ d with pio := p }, .periph .pa p.pa :: pioReaction c d.pio p)

/-- Port B takes new contents and `updatePort(B)` recomputes PB (60_exceptions.md rule R367). -/
def refreshB (d : Devices) (new : Pio) : Devices × List Event :=
  let p := new.updateB
  ({ d with pio := p }, [.periph .pb p.pb])

/-! ## The handshake -/

/-- A read of STATE returns `IE << 7 | busy`, bit 1 and bits 2 to 6 zero (60_exceptions.md rule R375). -/
def Handshake.stateByte (h : Handshake) : Byte :=
  (if h.ie then 0x80 else 0x00) ||| (if h.busy then 0x01 else 0x00)

/-! ## Register access -/

/-- The byte a register holds for a read (60_exceptions.md rules R347, R360, R367, R375, R376). `draws` picks the FREE VALUE
of a read of the EOI address (rule R343, log 15). -/
def Devices.read (d : Devices) (draws : Nat) : IoReg → Byte
  | .eoi => Config.freeByte draws
  | .imr => d.pic.imr
  | .irr => d.pic.irr
  | .isr => d.pic.isr
  | .vec k => d.pic.vec[k]
  | .cont => d.timer.cont
  | .comp => d.timer.comp
  | .pa => d.pio.pa
  | .pb => d.pio.pb
  | .ca => d.pio.ca
  | .cb => d.pio.cb
  | .data => d.hs.data
  | .state => d.hs.stateByte

/-- A write of `v` to a register, with the register's side effects (60_exceptions.md rules R343, R347, R360, R367, R376, R377). -/
def Devices.write (c : Configuration) (d : Devices) (r : IoReg) (v : Byte) : Devices × List Event :=
  match r with
  | .eoi => ({ d with pic := { d.pic with isr := 0 } }, [.periph .isr 0])
  | .imr => ({ d with pic := { d.pic with imr := v } }, [.periph .imr v])
  | .irr => (d, [])
  | .isr => (d, [])
  | .vec k => ({ d with pic := { d.pic with vec := d.pic.vec.set k v } }, [.periph (.vec k) v])
  | .cont => ({ d with timer := { d.timer with cont := v } }, [.periph .cont v])
  | .comp => ({ d with timer := { d.timer with comp := v } }, [.periph .comp v])
  | .pa => refreshA c d { d.pio with pa := v }
  | .pb => refreshB d { d.pio with pb := v }
  | .ca =>
    let r := refreshA c d { d.pio with ca := v }
    (r.1, .periph .ca v :: r.2)
  | .cb =>
    let r := refreshB d { d.pio with cb := v }
    (r.1, .periph .cb v :: r.2)
  | .data => ({ d with hs := { d.hs with data := v } }, [.periph .data v, .printerStrobe v])
  | .state =>
    let h := { d.hs with ie := v.getLsbD 7 }
    ({ d with hs := h }, .periph .state h.stateByte :: (if v.getLsbD 1 then [.printerStrobe h.data] else []))

/-! ## The external lines -/

/-- The host moves the switches of PioSwitchesLeds: `extA`, then `updatePort(A)` (60_exceptions.md rules R367, R369, R390). In
another configuration there are no switches (log 7). -/
def moveSwitches (c : Configuration) (v : Byte) (d : Devices) : Devices × List Event :=
  if c = .pioSwitchesLeds then refreshA c d { d.pio with extA := v } else (d, [])

/-- The host drives the printer's busy line (60_exceptions.md rules R370, R375, R378, R390): bit 0 of `extA` in PioPrinter,
STATE bit 0 in HandshakePrinter, where "a busy→free transition with interrupts enabled raises PIC line 2". In another
configuration there is no printer (log 7). -/
def driveBusy (c : Configuration) (b : Bool) (d : Devices) : Devices × List Event :=
  match c with
  | .pioPrinter => refreshA c d { d.pio with extA := if b then 0x01 else 0x00 }
  | .handshakePrinter =>
    let h := { d.hs with busy := b }
    let d' := { d with hs := h }
    if d.hs.busy = true ∧ b = false ∧ d.hs.ie = true then
      let r := requestLine 2 d'
      (r.1, .periph .state h.stateByte :: r.2)
    else (d', [.periph .state h.stateByte])
  | .picTimer => (d, [])
  | .pioSwitchesLeds => (d, [])

/-- The number of a host-driven PIC line (60_exceptions.md rule R342). -/
def ExtLine.index : ExtLine → Fin 8
  | .line0 => 0
  | .line3 => 3
  | .line4 => 4
  | .line5 => 5
  | .line6 => 6
  | .line7 => 7

end Sys2Proof.Machine
end

