-- ==== Sys2Proof/Machine/Memory.lean ====
section
/-! DEFINITION. Memory as a flat store of bytes in one canonical form (10_state.md rule R40, 20_memory.md rules R62, R63). -/

namespace Sys2Proof.Machine

/-- What an unlisted address reads as. After `clean` it is 0x00 (70_reset_and_hazards.md rule R400); after `randomize` it
is a FREE VALUE per byte (rule R403, log 16). -/
def Fill.byte : Fill → Nat → Byte
  | .zeros, _ => 0x00
  | .drawn n, a => Config.freeFill n a

/-- The listed byte at an address. -/
def cellAt (a : Nat) : List Host.Cell → Option Byte
  | [] => none
  | (b, v) :: cs => if a = b then some v else cellAt a cs

/-- List a byte, keeping the addresses rising. -/
def insertCell (a : Nat) (v : Byte) : List Host.Cell → List Host.Cell
  | [] => [(a, v)]
  | (b, x) :: cs =>
    if a < b then (a, v) :: (b, x) :: cs
    else if a = b then (a, v) :: cs
    else (b, x) :: insertCell a v cs

/-- Unlist an address. -/
def eraseCell (a : Nat) : List Host.Cell → List Host.Cell
  | [] => []
  | (b, x) :: cs => if a = b then cs else (b, x) :: eraseCell a cs

/-- The byte at an address. -/
def Memory.read (m : Memory) (a : Nat) : Byte := (cellAt a m.cells).getD (m.fill.byte a)

/-- Store a byte at an address. -/
def Memory.write (m : Memory) (a : Nat) (v : Byte) : Memory :=
  if v = m.fill.byte a then { m with cells := eraseCell a m.cells }
  else { m with cells := insertCell a v m.cells }

/-- Every listed address is above `a`. -/
def allAbove (a : Nat) (cs : List Host.Cell) : Bool := cs.all (fun c => decide (a < c.1))

/-- The addresses rise strictly. -/
def rising : List Host.Cell → Bool
  | [] => true
  | c :: cs => allAbove c.1 cs && rising cs

/-- The canonical form: rising addresses, and no cell that says what its address reads as anyway. -/
def Memory.wf (m : Memory) : Bool :=
  rising m.cells && m.cells.all (fun c => decide (c.2 ≠ m.fill.byte c.1))

/-- Store the bytes of a list from `a` up; an absent byte leaves what is there. -/
def Memory.lay (m : Memory) (a : Nat) : List (Option Byte) → Memory
  | [] => m
  | none :: bs => m.lay (a + 1) bs
  | some v :: bs => (m.write a v).lay (a + 1) bs

end Sys2Proof.Machine
end

