-- ==== Sys2Proof/Machine/Reset.lean ====
section
/-! DEFINITION. Reset (70_reset_and_hazards.md rule R400) and the views of the loaded Program (10_state.md rules R41, R42). -/

namespace Sys2Proof.Machine

/-- `Reserved`: the addresses occupied by loaded instruction code (10_state.md rule R41). -/
def State.reserved (s : State) (a : Nat) : Bool := s.program.descriptors.any (fun d => d.covers a)

/-- `Index`: the descriptor that starts at an address (10_state.md rule R42, 30_encoding.md rule R100). -/
def State.index (s : State) (a : Word) : Option Descriptor := s.program.descriptors.find? (fun d => decide (d.addr = a))

/-- Memory with the data blocks' literals laid down (rule R400 step 2); unassigned bytes keep what is there. DESIGN CHOICE
(log 24): where two blocks hold a literal at one address, the later block of the list wins. -/
def layData (m : Memory) (bs : List DataBlock) : Memory := bs.foldl (fun m b => m.lay b.addr b.bytes) m

/-- Memory with the instruction bytes laid down (rule R400 step 3). -/
def layCode (m : Memory) (ds : List Descriptor) : Memory :=
  ds.foldl (fun m d => m.lay d.addr.toNat (d.bytes.map some)) m

/-- Memory under the reset policy (rule R400 step 1); `n` numbers the draw of `randomize` (rule R403). -/
def policyMemory (policy : Policy) (n : Nat) (m : Memory) : Memory :=
  match policy with
  | .unchanged => m
  | .clean => { cells := [], fill := .zeros }
  | .randomize => { cells := [], fill := .drawn n }

/-- The Program laid down (rule R400 steps 2 and 3). A Program that is not admitted is not laid down: it is refused, not
executed (30_encoding.md rule R103, log 24). -/
def layProgram (memMax : Nat) (p : Program) (m : Memory) : Memory :=
  match p.reject? memMax with
  | none => layCode (layData m p.data) p.descriptors
  | some _ => m

/-- The registers after reset (10_state.md rule R55). -/
def resetRegs (p : Params) : Regs :=
  { ax := 0, bx := 0, cx := 0, dx := 0, sp := p.resetSp, ip := p.resetIp, flags := 0 }

/-- The latches after reset (10_state.md rule R55). -/
def resetLatches : Latches :=
  { ir := 0, ri := 0, id := 0, left := 0, right := 0, result := 0, mar := 0, mbr := 0 }

/-- Whether an `unchanged` reset keeps a peripheral item (rule R400 step 6, decision D35). -/
def carried (p : Params) (policy : Policy) (i : Carried) : Bool :=
  decide (policy = .unchanged) && p.carries.contains i

/-- A value kept or replaced by its default. -/
def keepOr {α : Type} (keep : Bool) (old default : α) : α := if keep then old else default

/-- The devices after reset (10_state.md rule R55): PA and PB are recomputed from the external lines, which the host drives
and a reset does not move. DESIGN CHOICE (log 20): the output bits of a port whose data register is not carried are 0 in that
recomputation, also where its carried direction register has output positions; and a carried data register is recomputed too,
so that where its direction register is not carried, all bits being inputs then, nothing of it is left. -/
def resetDevices (p : Params) (policy : Policy) (d : Devices) : Devices :=
  let keep := carried p policy
  { pic := { imr := 0xFF, irr := 0, isr := 0, vec := p.vecReset }
    timer := { cont := keepOr (keep .cont) d.timer.cont 0, comp := keepOr (keep .comp) d.timer.comp 0 }
    pio := Pio.updateB (Pio.updateA
      { pa := keepOr (keep .pa) d.pio.pa 0, pb := keepOr (keep .pb) d.pio.pb 0
        ca := keepOr (keep .ca) d.pio.ca 0xFF, cb := keepOr (keep .cb) d.pio.cb 0xFF
        extA := d.pio.extA, extB := d.pio.extB })
    hs := { data := keepOr (keep .data) d.hs.data 0, ie := keepOr (keep .ie) d.hs.ie false, busy := d.hs.busy } }

/-- How many draws a reset takes. -/
def drawsAfter (policy : Policy) (n : Nat) : Nat :=
  match policy with
  | .randomize => n + 1
  | .unchanged => n
  | .clean => n

/-- `reset(program, policy)` (rule R400). It abandons the current cycle. The host's turns to come are not the machine's and
stay. -/
def resetState (program : Program) (policy : Policy) (s : State) : State :=
  { regs := resetRegs s.params
    latches := resetLatches
    mem := layProgram s.params.memMax program (policyMemory policy s.draws s.mem)
    program := program
    params := s.params
    dev := resetDevices s.params policy s.dev
    run := .running
    faultRecord := none
    cycle := .closed
    events := []
    host := s.host
    draws := drawsAfter policy s.draws }

end Sys2Proof.Machine
end

