-- ==== Sys2Proof/Machine/HostActions.lean ====
section
/-! DEFINITION. What the host does to the machine between two events (60_exceptions.md rule R390, decision D23). -/

namespace Sys2Proof.Machine

/-- Report events, oldest first. -/
def State.log (s : State) (es : List Event) : State := { s with events := es.reverse ++ s.events }

/-- Replace the devices and report. DESIGN CHOICE (log 6): an action of the host is whole, so its own events follow each other with
no boundary between them. -/
def State.device (s : State) (r : Devices × List Event) : State := { s with dev := r.1 }.log r.2

/-- "supply one byte `c` | only while `AwaitChar`" (60_exceptions.md rule R390): the byte waits in the run state until the
engine takes it (log 8). A second byte for one request, or a byte nobody asked for, is no action of the host's (log 7). -/
def supplyChar (c : Byte) (s : State) : State :=
  match s.run with
  | .awaitChar none => { s with run := .awaitChar (some c) }
  | .awaitChar (some _) => s
  | .running => s
  | .halted _ => s

/-- "resume after breakpoint" (60_exceptions.md rule R390). -/
def resumeBreakpoint (s : State) : State :=
  match s.cycle with
  | .breakpoint => { s with cycle := .opened }
  | .closed => s
  | .opened => s
  | .ending _ => s
  | .cancelled => s

/-- "stop requesting (cancel) | any time | state stays as committed" (60_exceptions.md rule R390, 40_engine.md rule R136):
the open cycle is abandoned for good, a cycle whose outcome is halt before the engine is halted (log 10). Between two cycles
nothing is abandoned. -/
def cancelCycle (s : State) : State :=
  match s.cycle with
  | .closed => s
  | .opened => { s with cycle := .cancelled }
  | .ending _ => { s with cycle := .cancelled }
  | .breakpoint => { s with cycle := .cancelled }
  | .cancelled => s

/-- One host action (60_exceptions.md rule R390). -/
def applyAction (a : HostAction) (s : State) : State :=
  match a with
  | .tick => s.device (tickTimer s.dev)
  | .request k => s.device (requestLine k.index s.dev)
  | .setSwitches v => s.device (moveSwitches s.params.config v s.dev)
  | .setBusy b => s.device (driveBusy s.params.config b s.dev)
  | .supply c => supplyChar c s
  | .resume => resumeBreakpoint s
  | .cancel => cancelCycle s
  | .reset p policy => resetState p policy s

/-- The actions of one turn, in order. -/
def applyTurn (t : HostTurn) (s : State) : State := t.foldl (fun s a => applyAction a s) s

/-- The host takes its next turn, if it has one left. -/
def hostTurn (s : State) : State :=
  match s.host with
  | [] => s
  | t :: ts => applyTurn t { s with host := ts }

/-- An action that ends the cycle it lands in: a reset abandons it (70_reset_and_hazards.md rule R400), a cancel too. -/
def HostAction.ends : HostAction → Bool
  | .cancel => true
  | .reset _ _ => true
  | .tick => false
  | .request _ => false
  | .setSwitches _ => false
  | .setBusy _ => false
  | .supply _ => false
  | .resume => false

/-- The host's next turn ends the cycle it lands in. -/
def State.turnEnds (s : State) : Bool :=
  match s.host with
  | [] => false
  | t :: _ => t.any HostAction.ends

end Sys2Proof.Machine
end

