-- ==== Sys2Proof/Machine/Ops.lean ====
section
/-! DEFINITION. The micro-operations (40_engine.md rule R165) and the operations every instruction is built from: register
and latch writes, bus transactions, Push and Pop, the ALU micro-operation, raising a fault, entering an interrupt and
returning from one. -/

namespace Sys2Proof.Machine

/-- A sequence of micro-operations: it goes on with a value, or ends early (a fault was raised, or the host's reset or cancel
ended the cycle). Either way the state holds everything committed so far (40_engine.md rule R136). -/
abbrev Micro := EStateM Unit State

/-- Look at the state. -/
def look {α : Type} (f : State → α) : Micro α := fun s => .ok (f s) s

/-- Commit a change of the state. -/
def commit (f : State → State) : Micro Unit := fun s => .ok () (f s)

/-- End the micro-operations here. -/
def stop {α : Type} : Micro α := fun s => .error () s

/-- An event boundary: the host takes its turn (decision D23); a reset or a cancel in it ends the micro-operations. -/
def boundary : Micro Unit := fun s => if s.turnEnds then .error () (hostTurn s) else .ok () (hostTurn s)

/-- `emit E` (00_scope.md rule R9): append the event; a boundary follows it. -/
def emit (e : Event) : Micro Unit := do
  commit (fun s => s.log [e])
  boundary

/-- Emit several events in order, a boundary after each. -/
def emitAll : List Event → Micro Unit
  | [] => pure ()
  | e :: es => do
    emit e
    emitAll es

/-- `raise F(info)`: record the fault, emit it, end the instruction with outcome halt (00_scope.md rule R9, 40_engine.md rule
R130, 60_exceptions.md rule R330). The run state stays: the end of the cycle halts the engine. -/
def raise {α : Type} (f : Fault) : Micro α := do
  commit (fun s => { s with cycle := .ending (.fault f), faultRecord := some f })
  emit (.fault f)
  stop

/-- `halt`: end the instruction with outcome "halt" (00_scope.md rule R9); the end of the cycle halts the engine (40_engine.md
rule R130). -/
def halt (why : HaltReason) : Micro Unit := commit (fun s => { s with cycle := .ending why })

/-! ## Registers and latches -/

/-- `reg[r]` (10_state.md rules R21, R23). -/
def Regs.get (g : Regs) : {w : Width} → Reg w → BitVec w.bits
  | _, .al => lowByte g.ax
  | _, .ah => highByte g.ax
  | _, .bl => lowByte g.bx
  | _, .bh => highByte g.bx
  | _, .cl => lowByte g.cx
  | _, .ch => highByte g.cx
  | _, .dl => lowByte g.dx
  | _, .dh => highByte g.dx
  | _, .ax => g.ax
  | _, .bx => g.bx
  | _, .cx => g.cx
  | _, .dx => g.dx
  | _, .sp => g.sp

/-- `reg[r] <- v`: "writing one half never disturbs the other half of the same register; writing the whole register replaces
both halves atomically" (10_state.md rule R21). -/
def Regs.set (g : Regs) : {w : Width} → Reg w → BitVec w.bits → Regs
  | _, .al, v => { g with ax := joinBytes (highByte g.ax) v }
  | _, .ah, v => { g with ax := joinBytes v (lowByte g.ax) }
  | _, .bl, v => { g with bx := joinBytes (highByte g.bx) v }
  | _, .bh, v => { g with bx := joinBytes v (lowByte g.bx) }
  | _, .cl, v => { g with cx := joinBytes (highByte g.cx) v }
  | _, .ch, v => { g with cx := joinBytes v (lowByte g.cx) }
  | _, .dl, v => { g with dx := joinBytes (highByte g.dx) v }
  | _, .dh, v => { g with dx := joinBytes v (lowByte g.dx) }
  | _, .ax, v => { g with ax := v }
  | _, .bx, v => { g with bx := v }
  | _, .cx, v => { g with cx := v }
  | _, .dx, v => { g with dx := v }
  | _, .sp, v => { g with sp := v }

/-- The name of a register in an event. -/
def regName : {w : Width} → Reg w → RegName
  | .w8, r => .reg8 r
  | .w16, r => .reg16 r

/-- Write a general register or SP. -/
def setReg {w : Width} (r : Reg w) (v : BitVec w.bits) : Micro Unit := do
  commit (fun s => { s with regs := s.regs.set r v })
  emit (.reg (regName r) (v.setWidth 16))

/-- Write IP. -/
def setIp (v : Word) : Micro Unit := do
  commit (fun s => { s with regs := { s.regs with ip := v } })
  emit (.reg .ip v)

/-- Write FLAGS. -/
def setFlags (v : Word) : Micro Unit := do
  commit (fun s => { s with regs := { s.regs with flags := v } })
  emit (.reg .flags v)

/-- Write SP as Push and Pop do. -/
def setSp (v : Word) : Micro Unit := setReg Reg.sp v

/-- Write IR. -/
def setIr (v : Byte) : Micro Unit := do
  commit (fun s => { s with latches := { s.latches with ir := v } })
  emit (.reg .ir (v.setWidth 16))

/-- Write `ri`. -/
def setRi (v : Word) : Micro Unit := do
  commit (fun s => { s with latches := { s.latches with ri := v } })
  emit (.reg .ri v)

/-- Write `id`. -/
def setId (v : Word) : Micro Unit := do
  commit (fun s => { s with latches := { s.latches with id := v } })
  emit (.reg .id v)

/-- `reg[MAR] <- a`. MAR is 16 bits wide, so it holds the address modulo 2^16 (10_state.md rule R36, log 25). -/
def setMar (a : Nat) : Micro Unit := do
  commit (fun s => { s with latches := { s.latches with mar := BitVec.ofNat 16 a } })
  emit (.mar (BitVec.ofNat 16 a))

/-- `reg[MBR] <- v`. -/
def setMbr (v : Byte) : Micro Unit := do
  commit (fun s => { s with latches := { s.latches with mbr := v } })
  emit (.mbr v)

/-! ## Memory transactions -/

/-- A bus transaction that fails, and the fault it raises (20_memory.md rule R64). DESIGN CHOICE (log 29): an access that a check
refuses is a transaction that reports failure, so its `bus` event, with `ok` false, comes before the fault is recorded and
reported, an event boundary between. -/
def busFault {α : Type} (kind : BusKind) (a : Nat) (f : Fault) : Micro α := do
  emit (.bus kind (some a) false)
  raise f

/-- `MemRead(a, 1)` (20_memory.md rules R62, R66). DESIGN CHOICE (log 29): the `bus` event comes first, then MBR is loaded and
reported. -/
def memReadByte (a : Nat) : Micro Byte := do
  setMar a
  let max ← look (fun s => s.params.memMax)
  if a ≤ max then do
    let v ← look (fun s => s.mem.read a)
    emit (.bus .memoryRead (some a) true)
    setMbr v
    pure v
  else busFault .memoryRead a (.memOutOfRange a)

/-- `MemWrite(a, 1, v8)` (20_memory.md rules R63, R67): the range check precedes the reserved check
(60_exceptions.md rule R333). -/
def memWriteByte (a : Nat) (v : Byte) : Micro Unit := do
  setMar a
  setMbr v
  let max ← look (fun s => s.params.memMax)
  if a ≤ max then do
    let code ← look (fun s => s.reserved a)
    if code then busFault .memoryWrite a (.memWriteReserved a)
    else do
      commit (fun s => { s with mem := s.mem.write a v })
      emit (.bus .memoryWrite (some a) true)
  else busFault .memoryWrite a (.memOutOfRange a)

/-- `MemRead(a, n)`: little-endian, low byte first, `a + 1` as an unbounded integer (20_memory.md rules R65, R66). -/
def memRead (w : Width) (a : Nat) : Micro (BitVec w.bits) :=
  match w with
  | .w8 => memReadByte a
  | .w16 => do
    let lo ← memReadByte a
    let hi ← memReadByte (a + 1)
    pure (joinBytes hi lo)

/-- `MemWrite(a, n, v)`: low byte first; a fault on the second byte leaves the first byte written (20_memory.md rule R67,
90_conflicts.md C6). -/
def memWrite (w : Width) (a : Nat) (v : BitVec w.bits) : Micro Unit :=
  match w with
  | .w8 => memWriteByte a v
  | .w16 => do
    memWriteByte a (lowByte v)
    memWriteByte (a + 1) (highByte v)

/-! ## I/O transactions -/

/-- Chip select: the register at an I/O address, if a module present in the configuration claims it (20_memory.md rule R77). -/
def chipSelect (p : Params) (a : Nat) : Option IoReg :=
  match p.ioMap.lookup a with
  | some r => if p.config.has r.module then some r else none
  | none => none

/-- How many free values a read of a register draws: one at the EOI address (60_exceptions.md rule R343). -/
def drawsOf : IoReg → Nat
  | .eoi => 1
  | .imr => 0
  | .irr => 0
  | .isr => 0
  | .vec _ => 0
  | .cont => 0
  | .comp => 0
  | .pa => 0
  | .pb => 0
  | .ca => 0
  | .cb => 0
  | .data => 0
  | .state => 0

/-- `IORead(p, 1)` (20_memory.md rule R82). DESIGN CHOICE (log 29): the `bus` event comes first, then MBR is loaded and reported. -/
def ioReadByte (a : Nat) : Micro Byte := do
  setMar a
  let params ← look (fun s => s.params)
  if a ≤ params.ioMax then
    match chipSelect params a with
    | none => busFault .ioRead a (.ioUnclaimed a)
    | some r => do
      let v ← look (fun s => s.dev.read s.draws r)
      commit (fun s => { s with draws := s.draws + drawsOf r })
      emit (.bus .ioRead (some a) true)
      setMbr v
      pure v
  else busFault .ioRead a (.ioOutOfRange a)

/-- `IOWrite(p, 1, v8)` (20_memory.md rule R82), with the register's side effects. DESIGN CHOICE (log 22): the `bus` event comes
first, then the events of the register's side effects, an event boundary after each; rule R385 orders them nowhere. -/
def ioWriteByte (a : Nat) (v : Byte) : Micro Unit := do
  setMar a
  setMbr v
  let params ← look (fun s => s.params)
  if a ≤ params.ioMax then
    match chipSelect params a with
    | none => busFault .ioWrite a (.ioUnclaimed a)
    | some r => do
      let es ← look (fun s => (s.dev.write params.config r v).2)
      commit (fun s => { s with dev := (s.dev.write params.config r v).1 })
      emit (.bus .ioWrite (some a) true)
      emitAll es
  else busFault .ioWrite a (.ioOutOfRange a)

/-- `IORead(p, n)`, low byte first (20_memory.md rule R82). `p` is a 16-bit value, so `p + 1` wraps (00_scope.md rule R8); the
spec takes the second address as an unbounded integer for memory only (20_memory.md rules R61, R66). -/
def ioRead (w : Width) (p : Word) : Micro (BitVec w.bits) :=
  match w with
  | .w8 => ioReadByte p.toNat
  | .w16 => do
    let lo ← ioReadByte p.toNat
    let hi ← ioReadByte (p + 1).toNat
    pure (joinBytes hi lo)

/-- `IOWrite(p, n, v)`, low byte first, `p + 1` wrapping (20_memory.md rule R82, 00_scope.md rule R8). -/
def ioWrite (w : Width) (p : Word) (v : BitVec w.bits) : Micro Unit :=
  match w with
  | .w8 => ioWriteByte p.toNat v
  | .w16 => do
    ioWriteByte p.toNat (lowByte v)
    ioWriteByte (p + 1).toNat (highByte v)

/-! ## The stack -/

/-- `Push(v16)` (40_engine.md rule R150): the bound check, SP pre-adjusted, low byte then high. -/
def push (v : Word) : Micro Unit := do
  let sp ← look (fun s => s.regs.sp)
  if sp.toNat < 2 then raise (.stackOverflow sp)
  else do
    setSp (sp - 2)
    memWrite .w16 (sp - 2).toNat v

/-- `Pop()` (40_engine.md rule R151): the bound check, low byte then high, SP post-adjusted. DESIGN CHOICE (log 13): the popped word
is no operand and is not staged in `id`. -/
def pop : Micro Word := do
  let sp ← look (fun s => s.regs.sp)
  let max ← look (fun s => s.params.memMax)
  if sp.toNat + 2 > max + 1 then raise (.stackUnderflow sp)
  else do
    let v ← memRead .w16 sp.toNat
    setSp (sp + 2)
    pure v

/-! ## The ALU micro-operation -/

/-- `AluOp(op, w, a, b)` (40_engine.md rule R161): the operands staged, FLAGS written, one event. -/
def aluOp {n : Nat} (op : AluOp) (a b : BitVec n) : Micro (BitVec n) := do
  let f ← look (fun s => s.regs.flags)
  let o := alu op a b (flagCF f)
  let f' := flagsAfter f o
  commit (fun s =>
    { s with
      regs := { s.regs with flags := f' }
      latches := { s.latches with
        left := a.setWidth 16, right := b.setWidth 16, result := o.res.setWidth 16 } })
  emit (.alu op (a.setWidth 16) (b.setWidth 16) (o.res.setWidth 16) f')
  pure o.res

/-! ## Taking an interrupt and returning from one -/

/-- `StartInterrupt(n)` (40_engine.md rule R155): push FLAGS, clear IF, push IP, load IP from the vector at `4 * n`. DESIGN CHOICE
(log 13): the vector is no operand and is not staged in `id`, nor its address in `ri`. -/
def startInterrupt (n : Byte) : Micro Unit := do
  let f ← look (fun s => s.regs.flags)
  push f
  setFlags (setIF f false)
  let ip ← look (fun s => s.regs.ip)
  push ip
  let v ← memRead .w16 (4 * n.toNat)
  setIp v

/-- The pops of IRET (49_return.md rule R307): IP first, then the whole FLAGS. -/
def endInterrupt : Micro Unit := do
  let ip ← pop
  setIp ip
  let f ← pop
  setFlags f

/-- `HardwareInterrupt()` (60_exceptions.md rule R350): the acknowledge in two phases, then StartInterrupt with the line's
vector number, whatever the number is (decision D8). The last arm is not reached: INTR was 1 at the poll, and the host can
only add requests (log 26). DESIGN CHOICE (log 29): the `bus` event of phase 2 comes first, then MBR is loaded and reported. -/
def hardwareInterrupt : Micro Unit := do
  emit .intAck
  let ack ← look (fun s => s.dev.pic.acknowledge?)
  match ack with
  | some (n, pic) => do
    commit (fun s => { s with dev := { s.dev with pic := pic } })
    emit (.periph .irr pic.irr)
    emit (.periph .isr pic.isr)
    emit (.bus .interruptVectorRead none true)
    setMbr n
    startInterrupt n
  | none => pure ()

/-- The interrupt poll (40_engine.md rule R133): on "continue", with IF = 1 and INTR = 1. -/
def poll : Micro Unit := do
  let take ← look (fun s => flagIF s.regs.flags && s.dev.pic.intr)
  if take then hardwareInterrupt else pure ()

/-! ## From micro-operations to an outcome -/

/-- The state a sequence of micro-operations leaves, finished or ended early. -/
def after {α : Type} (m : Micro α) (s : State) : State :=
  match m s with
  | .ok _ t => t
  | .error _ t => t

/-- An instruction's outcome: always a next state, since every fault is recorded in the state (log 4). -/
def perform (m : Micro Unit) (s : State) : Host.Outcome State Fault Refusal := .next (after m s)

end Sys2Proof.Machine
end

