-- ==== Sys2Proof/Machine/Operands.lean ====
section
/-! DEFINITION. Operand access: effective addresses, reads and writes at width `w`, port addresses
(30_encoding.md rule R106, 40_engine.md rules R142 to R144, 46_io.md rule R260). -/

namespace Sys2Proof.Machine

/-- The effective address: `a`, `reg[BX]`, or `(reg[BX] + off) mod 2^16` (30_encoding.md rule R106). -/
def ea (m : Mode) (g : Regs) : Word :=
  match m with
  | .direct a => a
  | .indirect none => g.bx
  | .indirect (some off) => g.bx + off

/-- An operand that can be read and written, its address computed once (40_engine.md rule R144). -/
inductive Place (w : Width)
  | reg (r : Reg w)
  | mem (a : Word)
  deriving DecidableEq, Repr

/-- Where an operand is, in the registers as they stand. -/
def placeOf {w : Width} (d : Loc w) (g : Regs) : Place w :=
  match d with
  | .reg r => .reg r
  | .mem m => .mem (ea m g)

/-- Compute an effective address and stage it in `ri` (40_engine.md rule R144, 10_state.md rule R35; log 13). -/
def stageEa (m : Mode) : Micro Word := do
  let a ← look (fun s => ea m s.regs)
  setRi a
  pure a

/-- Find where an operand is, staging a memory address. -/
def resolve {w : Width} (d : Loc w) : Micro (Place w) :=
  match d with
  | .reg r => pure (.reg r)
  | .mem m => do
    let a ← stageEa m
    pure (.mem a)

/-- `MemRead` of an operand, its data staged in `id` (40_engine.md rule R142). DESIGN CHOICE (log 13): a byte is staged
zero-extended. -/
def loadOperand (w : Width) (a : Word) : Micro (BitVec w.bits) := do
  let v ← memRead w a.toNat
  setId (v.setWidth 16)
  pure v

/-- `Read` of a place (40_engine.md rule R142). -/
def readPlace {w : Width} (p : Place w) : Micro (BitVec w.bits) :=
  match p with
  | .reg r => look (fun s => s.regs.get r)
  | .mem a => loadOperand w a

/-- `Write` of a place (40_engine.md rule R143). -/
def writePlace {w : Width} (p : Place w) (v : BitVec w.bits) : Micro Unit :=
  match p with
  | .reg r => setReg r v
  | .mem a => memWrite w a.toNat v

/-- `Read` of a source operand (40_engine.md rule R142). -/
def readSource {w : Width} (x : Source w) : Micro (BitVec w.bits) :=
  match x with
  | .reg r => look (fun s => s.regs.get r)
  | .mem m => do
    let a ← stageEa m
    loadOperand w a
  | .imm v => pure v

/-- The I/O address: `zext_16(v)` for PortImm(v), `reg[DX]` for PortDX (46_io.md rule R260). -/
def portAddress (p : Port) (g : Regs) : Word :=
  match p with
  | .imm v => v.setWidth 16
  | .dx => g.dx

end Sys2Proof.Machine
end

