-- ==== Sys2Proof/Machine/BinaryAlu.lean ====
section
/-! DEFINITION. The binary ALU family (41_alu_binary.md): ADD, ADC, SUB, SBB, CMP, AND, OR, XOR. -/

namespace Sys2Proof.Machine

/-- `ExecBinary` of an operation that writes its result back (41_alu_binary.md rule R180). -/
def binary {w : Width} (op : AluOp) (o : Operands w) : Micro Unit := do
  let p ← resolve o.dst
  let a ← readPlace p
  let b ← readSource o.src
  let res ← aluOp op a b
  writePlace p res

/-- `ExecBinary(CMP)`: "computes flags only and skips writeback" (41_alu_binary.md rules R180, R185). DESIGN CHOICE (log 11): its
`alu` event names SUB, since 40_engine.md rule R160 lists no operation CMP. -/
def compare {w : Width} (o : Operands w) : Micro Unit := do
  let p ← resolve o.dst
  let a ← readPlace p
  let b ← readSource o.src
  let _ ← aluOp .sub a b
  pure ()

/-- ADD: `dst <- dst + src (mod 2^w)` (41_alu_binary.md rule R181). -/
def execAdd (w : Width) (o : Operands w) (s : State) : Host.Outcome State Fault Refusal :=
  perform (binary .add o) s

/-- ADC: `dst <- dst + src + FLAGS.CF (mod 2^w)` (41_alu_binary.md rule R182). -/
def execAdc (w : Width) (o : Operands w) (s : State) : Host.Outcome State Fault Refusal :=
  perform (binary .adc o) s

/-- SUB: `dst <- dst - src (mod 2^w)` (41_alu_binary.md rule R183). -/
def execSub (w : Width) (o : Operands w) (s : State) : Host.Outcome State Fault Refusal :=
  perform (binary .sub o) s

/-- SBB: `dst <- dst - src - FLAGS.CF (mod 2^w)` (41_alu_binary.md rule R184). -/
def execSbb (w : Width) (o : Operands w) (s : State) : Host.Outcome State Fault Refusal :=
  perform (binary .sbb o) s

/-- CMP: the flags of `dst - src`, no writeback (41_alu_binary.md rule R185). -/
def execCmp (w : Width) (o : Operands w) (s : State) : Host.Outcome State Fault Refusal :=
  perform (compare o) s

/-- AND: `dst <- dst and src`, CF = OF = 0 (41_alu_binary.md rule R186). -/
def execAnd (w : Width) (o : Operands w) (s : State) : Host.Outcome State Fault Refusal :=
  perform (binary .and o) s

/-- OR: `dst <- dst or src`, CF = OF = 0 (41_alu_binary.md rule R187). -/
def execOr (w : Width) (o : Operands w) (s : State) : Host.Outcome State Fault Refusal :=
  perform (binary .or o) s

/-- XOR: `dst <- dst xor src`, CF = OF = 0 (41_alu_binary.md rule R188). -/
def execXor (w : Width) (o : Operands w) (s : State) : Host.Outcome State Fault Refusal :=
  perform (binary .xor o) s

end Sys2Proof.Machine
end

