-- ==== Sys2Proof/Machine/DataMove.lean ====
section
/-! DEFINITION. The data move family (43_data_move.md): MOV. -/

namespace Sys2Proof.Machine

/-- `ExecMove` (43_data_move.md rule R215): read the source, write the destination. -/
def move {w : Width} (o : Operands w) : Micro Unit := do
  let v ← readSource o.src
  let p ← resolve o.dst
  writePlace p v

/-- MOV: `dst <- src`, no flags (43_data_move.md rules R215, R216). -/
def execMov (w : Width) (o : Operands w) (s : State) : Host.Outcome State Fault Refusal :=
  perform (move o) s

end Sys2Proof.Machine
end

