-- ==== Sys2Proof/Machine/InOut.lean ====
section
/-! DEFINITION. The I/O family (46_io.md): IN, OUT. -/

namespace Sys2Proof.Machine

/-- IN: AL or AX from the port; the register is written only after every byte is read (46_io.md rule R261). -/
def execIn (w : Width) (p : Port) (s : State) : Host.Outcome State Fault Refusal :=
  perform (do
    let a ← look (fun s => portAddress p s.regs)
    let v ← ioRead w a
    setReg (dataReg w) v) s

/-- OUT: AL or AX to the port (46_io.md rule R262). -/
def execOut (w : Width) (p : Port) (s : State) : Host.Outcome State Fault Refusal :=
  perform (do
    let a ← look (fun s => portAddress p s.regs)
    let v ← look (fun s => s.regs.get (dataReg w))
    ioWrite w a v) s

end Sys2Proof.Machine
end

