-- ==== Sys2Proof/Machine/JumpCall.lean ====
section
/-! DEFINITION. The jump/call family (44_jump_call.md): JMP, the eight conditional jumps, CALL. -/

namespace Sys2Proof.Machine

/-- A jump: `if <condition on FLAGS>: reg[IP] <- t` (44_jump_call.md rule R225). Fetch has left IP at the fall-through
address. -/
def jumpIf (cond : Word → Bool) (t : Word) : Micro Unit := do
  let taken ← look (fun s => cond s.regs.flags)
  if taken then setIp t else pure ()

/-- `ExecCall` (44_jump_call.md rule R235): push the return address, then jump. -/
def callTo (t : Word) : Micro Unit := do
  let ip ← look (fun s => s.regs.ip)
  push ip
  setIp t

/-- JMP: jump to `t` always (44_jump_call.md rule R226). -/
def execJmp (t : Word) (s : State) : Host.Outcome State Fault Refusal :=
  perform (jumpIf (fun _ => true) t) s

/-- JZ: jump to `t` if ZF = 1 (44_jump_call.md rule R227). -/
def execJz (t : Word) (s : State) : Host.Outcome State Fault Refusal :=
  perform (jumpIf flagZF t) s

/-- JNZ: jump to `t` if ZF = 0 (44_jump_call.md rule R228). -/
def execJnz (t : Word) (s : State) : Host.Outcome State Fault Refusal :=
  perform (jumpIf (fun f => !flagZF f) t) s

/-- JS: jump to `t` if SF = 1 (44_jump_call.md rule R229). -/
def execJs (t : Word) (s : State) : Host.Outcome State Fault Refusal :=
  perform (jumpIf flagSF t) s

/-- JNS: jump to `t` if SF = 0 (44_jump_call.md rule R230). -/
def execJns (t : Word) (s : State) : Host.Outcome State Fault Refusal :=
  perform (jumpIf (fun f => !flagSF f) t) s

/-- JC: jump to `t` if CF = 1 (44_jump_call.md rule R231). -/
def execJc (t : Word) (s : State) : Host.Outcome State Fault Refusal :=
  perform (jumpIf flagCF t) s

/-- JNC: jump to `t` if CF = 0 (44_jump_call.md rule R232). -/
def execJnc (t : Word) (s : State) : Host.Outcome State Fault Refusal :=
  perform (jumpIf (fun f => !flagCF f) t) s

/-- JO: jump to `t` if OF = 1 (44_jump_call.md rule R233). -/
def execJo (t : Word) (s : State) : Host.Outcome State Fault Refusal :=
  perform (jumpIf flagOF t) s

/-- JNO: jump to `t` if OF = 0 (44_jump_call.md rule R234). -/
def execJno (t : Word) (s : State) : Host.Outcome State Fault Refusal :=
  perform (jumpIf (fun f => !flagOF f) t) s

/-- CALL: push the return address and jump to `t` (44_jump_call.md rule R235). -/
def execCall (t : Word) (s : State) : Host.Outcome State Fault Refusal :=
  perform (callTo t) s

end Sys2Proof.Machine
end

