-- ==== Sys2Proof/Machine/ProcessorControl.lean ====
section
/-! DEFINITION. The processor-control family (48_processor_control.md): HLT, CLI, STI, NOP. -/

namespace Sys2Proof.Machine

/-- HLT: outcome halt (48_processor_control.md rule R295). -/
def execHlt (s : State) : Host.Outcome State Fault Refusal :=
  perform (halt .hlt) s

/-- CLI: `reg[FLAGS].IF <- 0` (48_processor_control.md rule R296). -/
def execCli (s : State) : Host.Outcome State Fault Refusal :=
  perform (do
    let f ← look (fun s => s.regs.flags)
    setFlags (setIF f false)) s

/-- STI: `reg[FLAGS].IF <- 1` (48_processor_control.md rule R297). -/
def execSti (s : State) : Host.Outcome State Fault Refusal :=
  perform (do
    let f ← look (fun s => s.regs.flags)
    setFlags (setIF f true)) s

/-- NOP: nothing (48_processor_control.md rule R298). -/
def execNop (s : State) : Host.Outcome State Fault Refusal :=
  perform (pure ()) s

end Sys2Proof.Machine
end

