-- ==== Sys2Proof/Machine/Return.lean ====
section
/-! DEFINITION. The return family (49_return.md): RET, IRET. -/

namespace Sys2Proof.Machine

/-- RET: `reg[IP] <- Pop()` (49_return.md rule R305). -/
def execRet (s : State) : Host.Outcome State Fault Refusal :=
  perform (do
    let ip ← pop
    setIp ip) s

/-- IRET: pop IP, then the whole of FLAGS (49_return.md rule R307). -/
def execIret (s : State) : Host.Outcome State Fault Refusal :=
  perform endInterrupt s

end Sys2Proof.Machine
end

