-- ==== Sys2Proof/Machine/SoftwareInterrupt.lean ====
section
/-! DEFINITION. The software interrupt family (47_software_interrupt.md): INT. -/

namespace Sys2Proof.Machine

/-- INT 3: emit `breakpoint`; the cycle waits for the host to resume (47_software_interrupt.md rule R282, log 9). -/
def breakpoint : Micro Unit := do
  commit (fun s => { s with cycle := .breakpoint })
  emit .breakpoint

/-- INT 6, up to its wait: emit `char-request` and wait for the host's byte (47_software_interrupt.md rule R284). DESIGN CHOICE
(log 8): R284's pseudocode writes the event before `run <- AwaitChar`; the wait is committed before the event here, as
40_engine.md rule R136 has it for every change, so that the host can supply the byte at the event's own boundary. -/
def requestChar : Micro Unit := do
  commit (fun s => { s with run := .awaitChar none })
  emit .charRequest

/-- INT 6, from the host's byte on: run again and store the byte at BX (47_software_interrupt.md rule R284). DESIGN CHOICE (log
13): BX is not staged in `ri`. -/
def storeChar (c : Byte) : Micro Unit := do
  commit (fun s => { s with run := .running })
  let bx ← look (fun s => s.regs.bx)
  memWrite .w8 bx.toNat c

/-- INT 7, one byte: read it, send it, advance BX and count AL down through the ALU (47_software_interrupt.md rule R287). DESIGN
CHOICE (log 13): the byte is no operand and is not staged in `id`, nor BX in `ri`. -/
def transmitByte : Micro Unit := do
  let bx ← look (fun s => s.regs.bx)
  let c ← memReadByte bx.toNat
  emit (.outputChar c)
  let bx ← look (fun s => s.regs.bx)
  let next ← aluOp .add bx 1
  setReg Reg.bx next
  let al ← look (fun s => s.regs.get Reg.al)
  let left ← aluOp .sub al 1
  setReg Reg.al left

/-- INT 7: `while u(reg[AL]) != 0` (47_software_interrupt.md rule R287). Each turn lowers AL by one, so as many turns as AL
counts suffice. -/
def transmit : Nat → Micro Unit
  | 0 => pure ()
  | n + 1 => do
    let al ← look (fun s => s.regs.get Reg.al)
    if al = 0 then pure ()
    else do
      transmitByte
      transmit n

/-- INT n: 0 halts, 3 is the breakpoint, 6 reads a character, 7 transmits, any other number takes the vector
(47_software_interrupt.md rules R275, R276, R278, R282, R284, R287). -/
def execInt (n : Byte) (s : State) : Host.Outcome State Fault Refusal :=
  perform (
    if n = 0 then halt .int0
    else if n = 3 then breakpoint
    else if n = 6 then requestChar
    else if n = 7 then transmit (s.regs.get Reg.al).toNat
    else startInterrupt n) s

end Sys2Proof.Machine
end

