-- ==== Sys2Proof/Machine/Stack.lean ====
section
/-! DEFINITION. The stack family (45_stack.md): PUSH, POP, PUSHF, POPF. -/

namespace Sys2Proof.Machine

/-- PUSH: the register is read before SP changes, then pushed (45_stack.md rule R246). -/
def execPush (r : Reg .w16) (s : State) : Host.Outcome State Fault Refusal :=
  perform (do
    let v ← look (fun s => s.regs.get r)
    push v) s

/-- POP: the register is written after SP's post-increment (45_stack.md rule R247). -/
def execPop (r : Reg .w16) (s : State) : Host.Outcome State Fault Refusal :=
  perform (do
    let v ← pop
    setReg r v) s

/-- PUSHF: push FLAGS as it stands (45_stack.md rule R248). -/
def execPushf (s : State) : Host.Outcome State Fault Refusal :=
  perform (do
    let f ← look (fun s => s.regs.flags)
    push f) s

/-- POPF: all 16 bits of FLAGS replaced by the popped word (45_stack.md rule R249). -/
def execPopf (s : State) : Host.Outcome State Fault Refusal :=
  perform (do
    let f ← pop
    setFlags f) s

end Sys2Proof.Machine
end

