-- ==== Sys2Proof/Machine/UnaryAlu.lean ====
section
/-! DEFINITION. The unary ALU family (42_alu_unary.md): INC, DEC, NEG, NOT. -/

namespace Sys2Proof.Machine

/-- `ExecUnary` (42_alu_unary.md rule R200): read, one ALU operation, write back. -/
def unary {w : Width} (f : BitVec w.bits → Micro (BitVec w.bits)) (d : Loc w) : Micro Unit := do
  let p ← resolve d
  let a ← readPlace p
  let res ← f a
  writePlace p res

/-- INC: `dst <- dst + 1`, all four flags as `ADD dst, 1` (42_alu_unary.md rule R201). -/
def execInc (w : Width) (d : Loc w) (s : State) : Host.Outcome State Fault Refusal :=
  perform (unary (fun a => aluOp .add a 1) d) s

/-- DEC: `dst <- dst - 1`, all four flags as `SUB dst, 1` (42_alu_unary.md rule R202). -/
def execDec (w : Width) (d : Loc w) (s : State) : Host.Outcome State Fault Refusal :=
  perform (unary (fun a => aluOp .sub a 1) d) s

/-- NEG: `dst <- 0 - dst`, the flags of SUB with left operand 0 (42_alu_unary.md rule R203). -/
def execNeg (w : Width) (d : Loc w) (s : State) : Host.Outcome State Fault Refusal :=
  perform (unary (fun a => aluOp .sub 0 a) d) s

/-- NOT: `dst <- dst xor (M - 1)`, the flags of XOR (42_alu_unary.md rule R204). -/
def execNot (w : Width) (d : Loc w) (s : State) : Host.Outcome State Fault Refusal :=
  perform (unary (fun a => aluOp .xor a (BitVec.allOnes w.bits)) d) s

end Sys2Proof.Machine
end

