-- ==== Sys2Proof/Machine/Dispatch.lean ====
section
/-! DEFINITION. The dispatch to each instruction's meaning (40_engine.md rule R132). -/

namespace Sys2Proof.Machine

/-- The execute phase of an instruction: IP already stands after it. -/
def exec (i : Instr) (s : State) : Host.Outcome State Fault Refusal :=
  match i with
  | .add w o => Sys2Proof.Machine.execAdd w o s
  | .adc w o => Sys2Proof.Machine.execAdc w o s
  | .sub w o => Sys2Proof.Machine.execSub w o s
  | .sbb w o => Sys2Proof.Machine.execSbb w o s
  | .cmp w o => Sys2Proof.Machine.execCmp w o s
  | .and w o => Sys2Proof.Machine.execAnd w o s
  | .or w o => Sys2Proof.Machine.execOr w o s
  | .xor w o => Sys2Proof.Machine.execXor w o s
  | .inc w d => Sys2Proof.Machine.execInc w d s
  | .dec w d => Sys2Proof.Machine.execDec w d s
  | .neg w d => Sys2Proof.Machine.execNeg w d s
  | .not w d => Sys2Proof.Machine.execNot w d s
  | .mov w o => Sys2Proof.Machine.execMov w o s
  | .jmp t => Sys2Proof.Machine.execJmp t s
  | .jz t => Sys2Proof.Machine.execJz t s
  | .jnz t => Sys2Proof.Machine.execJnz t s
  | .js t => Sys2Proof.Machine.execJs t s
  | .jns t => Sys2Proof.Machine.execJns t s
  | .jc t => Sys2Proof.Machine.execJc t s
  | .jnc t => Sys2Proof.Machine.execJnc t s
  | .jo t => Sys2Proof.Machine.execJo t s
  | .jno t => Sys2Proof.Machine.execJno t s
  | .call t => Sys2Proof.Machine.execCall t s
  | .push r => Sys2Proof.Machine.execPush r s
  | .pop r => Sys2Proof.Machine.execPop r s
  | .pushf => Sys2Proof.Machine.execPushf s
  | .popf => Sys2Proof.Machine.execPopf s
  | .inp w p => Sys2Proof.Machine.execIn w p s
  | .outp w p => Sys2Proof.Machine.execOut w p s
  | .int n => Sys2Proof.Machine.execInt n s
  | .hlt => Sys2Proof.Machine.execHlt s
  | .cli => Sys2Proof.Machine.execCli s
  | .sti => Sys2Proof.Machine.execSti s
  | .nop => Sys2Proof.Machine.execNop s
  | .ret => Sys2Proof.Machine.execRet s
  | .iret => Sys2Proof.Machine.execIret s

end Sys2Proof.Machine
end

