-- ==== Sys2Proof/Machine/Cycle.lean ====
section
/-! DEFINITION. The instruction cycle (40_engine.md rules R130 to R141): fetch, the end of a cycle, the waits, and the
placing of one instruction for the host's questions. -/

namespace Sys2Proof.Machine

/-! ## Fetch -/

/-- Where a fetched byte goes (40_engine.md rule R140). -/
inductive LatchSel
  | ir
  | riLow
  | riHigh
  | idLow
  | idHigh
  deriving DecidableEq, Repr

/-- How many instruction bytes hold an address or jump target of an operand (40_engine.md rule R140). DESIGN CHOICE (log 12): the
offset of BX counts as an address. -/
def Operand.addressBytes : Operand → Nat
  | .mem (.direct _) => 2
  | .mem (.indirect (some _)) => 2
  | .mem (.indirect none) => 0
  | .target _ => 2
  | .reg8 _ => 0
  | .reg16 _ => 0
  | .imm _ => 0
  | .port _ => 0
  | .intNum _ => 0

/-- How many instruction bytes hold immediate data of an operand (40_engine.md rule R140). DESIGN CHOICE (log 12): the byte of a
port number and the byte of INT's number count as immediate data. -/
def Operand.immediateBytes (w : Option Width) : Operand → Nat
  | .imm _ => (w.getD .w16).bytes
  | .port (.imm _) => 1
  | .port .dx => 0
  | .intNum _ => 1
  | .reg8 _ => 0
  | .reg16 _ => 0
  | .mem _ => 0
  | .target _ => 0

/-- The latch of byte `k`, the `j`-th from the end (the last is 1): byte 0 goes to IR, "Bytes 1 and up go to the low then high
half of `ri` when they hold an address or jump target, and of `id` when they hold immediate data; bytes that hold neither go
to `ri`" (40_engine.md rule R140). `addr` and `imm` count the bytes of each kind that the instruction has, so each kind begins
with a low half. DESIGN CHOICE (log 12, safe): the immediate bytes are the last ones, the address bytes stand before them. -/
def latchOf (addr imm k j : Nat) : LatchSel :=
  if k = 0 then .ir
  else if j ≤ imm then (if (imm - j) % 2 = 0 then .idLow else .idHigh)
  else if j ≤ imm + addr then (if (imm + addr - j) % 2 = 0 then .riLow else .riHigh)
  else .riLow

/-- Load a fetched byte into its latch. DESIGN CHOICE (log 12): the half of `ri` or `id` that no byte of this instruction goes to
keeps what an earlier instruction left there, which the `reg` event of the latch shows. -/
def latchByte (l : LatchSel) (v : Byte) : Micro Unit :=
  match l with
  | .ir => setIr v
  | .riLow => do
    let x ← look (fun s => s.latches.ri)
    setRi (joinBytes (highByte x) v)
  | .riHigh => do
    let x ← look (fun s => s.latches.ri)
    setRi (joinBytes v (lowByte x))
  | .idLow => do
    let x ← look (fun s => s.latches.id)
    setId (joinBytes (highByte x) v)
  | .idHigh => do
    let x ← look (fun s => s.latches.id)
    setId (joinBytes v (lowByte x))

/-- "consume one instruction byte at `IP` into a register, advancing `IP`" (40_engine.md rules R140, R165). -/
def consume (l : LatchSel) : Micro Unit := do
  let ip ← look (fun s => s.regs.ip)
  let v ← memReadByte ip.toNat
  latchByte l v
  let ip ← look (fun s => s.regs.ip)
  setIp (ip + 1)

/-- Consume the `j` bytes that remain, the next being byte `k`. -/
def consumeAll (addr imm : Nat) : Nat → Nat → Micro Unit
  | _, 0 => pure ()
  | k, j + 1 => do
    consume (latchOf addr imm k (j + 1))
    consumeAll addr imm (k + 1) j

/-- How many bytes after byte 0 hold immediate data. DESIGN CHOICE (log 12): of an instruction shorter than its operands need,
all that there are. -/
def immediateCount (d : Descriptor) : Nat :=
  min (d.code.operands.map (Operand.immediateBytes d.code.w)).sum (d.len - 1)

/-- How many bytes after byte 0 hold addresses or jump targets. DESIGN CHOICE (log 12): of an instruction shorter than its operands
need, what the immediate data leave. -/
def addressCount (d : Descriptor) : Nat :=
  min (d.code.operands.map Operand.addressBytes).sum (d.len - 1 - immediateCount d)

/-- `Fetch(d)`: the `len(d)` bytes of the instruction, one bus transaction each (40_engine.md rule R140). -/
def fetch (d : Descriptor) : Micro Unit := consumeAll (addressCount d) (immediateCount d) 0 d.len

/-- Open a cycle: `emit cycle-start(reg[IP])` (40_engine.md rule R130). -/
def openCycle : Micro Unit := do
  commit (fun s => { s with cycle := .opened })
  let ip ← look (fun s => s.regs.ip)
  emit (.cycleStart ip)

/-! ## The end of a cycle -/

/-- `emit cycle-end(outcome)` (40_engine.md rule R134); with outcome continue the cycle is closed by it. -/
def State.announceEnd (s : State) : State :=
  match s.cycle with
  | .opened => { s with cycle := .closed }.log [.cycleEnd .continue]
  | .ending _ => s.log [.cycleEnd .halt]
  | .closed => s
  | .breakpoint => s
  | .cancelled => s

/-- `if outcome = halt: run <- Halted(reason)`, which follows the `cycle-end` event (40_engine.md rule R130). A reset or a
cancel at the boundary of that event has abandoned the cycle, and nothing is left to do (log 10). -/
def State.enterHalt (s : State) : State :=
  match s.cycle with
  | .ending why => { s with run := .halted why, cycle := .closed }
  | .opened => s
  | .closed => s
  | .breakpoint => s
  | .cancelled => s

/-- The end of a cycle: `cycle-end`, the host's turn at its boundary, and on outcome halt the halt (40_engine.md rules R130,
R134). A cycle that waits, or that the host has abandoned, does not end. -/
def endCycle (s : State) : State :=
  match s.cycle with
  | .opened => (hostTurn s.announceEnd).enterHalt
  | .ending _ => (hostTurn s.announceEnd).enterHalt
  | .closed => s
  | .breakpoint => s
  | .cancelled => s

/-- What follows the execute phase (40_engine.md rules R130, R133): on "continue" the interrupt poll, then the end of the
cycle; on "halt" the end of the cycle; in a wait nothing yet. -/
def finishCycle (s : State) : State :=
  match s.cycle with
  | .opened =>
    match s.run with
    | .running => endCycle (after poll s)
    | .awaitChar _ => s
    | .halted _ => s
  | .ending _ => endCycle s
  | .closed => s
  | .breakpoint => s
  | .cancelled => s

/-! ## One step -/

/-- The outcome of an instruction, with what follows its execute phase. -/
def finishOutcome (o : Host.Outcome State Fault Refusal) : Host.Outcome State Fault Refusal :=
  match o with
  | .next t => .next (finishCycle t)
  | .fault f => .fault f
  | .refused r => .refused r

/-- The cycle of an instruction: open, fetch, execute, finish (40_engine.md rule R130). If the host ends the cycle during
the fetch there is nothing to execute. -/
def runInstr (d : Descriptor) (i : Instr) (s : State) : Host.Outcome State Fault Refusal :=
  match (do openCycle; fetch d : Micro Unit) s with
  | .ok _ t => finishOutcome (exec i t)
  | .error _ t => .next (finishCycle t)

/-- The cycle where no descriptor stands at IP: `raise ProgramFault(no-instruction, reg[IP])` (40_engine.md rule R131). -/
def runNothing (s : State) : Host.Outcome State Fault Refusal :=
  .next (finishCycle (after (do openCycle; raise (.noInstruction s.regs.ip) : Micro Unit) s))

/-- One cycle, for a Program the model admits (30_encoding.md rule R103); a Program it does not admit "is refused by the
model, not executed" (log 24). -/
def runCycle (s : State) : Host.Outcome State Fault Refusal :=
  match s.program.reject? s.params.memMax with
  | some r => .refused (.notAdmitted r)
  | none =>
    match s.index s.regs.ip with
    | none => runNothing s
    | some d =>
      match decodeCode d.code with
      | .error r => .refused (.notAdmitted r)
      | .ok i => runInstr d i s

/-- INT 6 resumes with the host's byte `c` (47_software_interrupt.md rule R284). -/
def resumeChar (c : Byte) (s : State) : Host.Outcome State Fault Refusal :=
  .next (finishCycle (after (storeChar c) s))

/-- The engine waits while the host takes its next turn (log 5). -/
def waitTurn (s : State) : Host.Outcome State Fault Refusal := .next (hostTurn s)

/-- INT 3's wait: the host takes its next turn, and if it resumes the cycle goes on (47_software_interrupt.md rule R282). -/
def waitBreakpoint (s : State) : Host.Outcome State Fault Refusal := .next (finishCycle (hostTurn s))

/-- One step of the machine. Running between two cycles, it performs one cycle. A halted engine "performs no further cycle, no
interrupt poll and no fetch; only a reset makes it run again" (40_engine.md rule R135): the host alone acts. So too in a wait
and after a cancel (log 5). -/
def stepState (s : State) : Host.Outcome State Fault Refusal :=
  match s.cycle, s.run with
  | .cancelled, _ => waitTurn s
  | _, .halted _ => waitTurn s
  | .breakpoint, .running => waitBreakpoint s
  | .closed, .running => runCycle s
  | .opened, .running => .next (finishCycle s)
  | .ending _, .running => .next (finishCycle s)
  | _, .awaitChar (some c) => resumeChar c s
  | _, .awaitChar none => waitTurn s

/-! ## Placing one instruction -/

/-- The state with one instruction as its Program, placed at IP, the engine ready to run it (log 3). -/
def placeInstr (i : Instr) (bytes : List Byte) (s : State) : State :=
  { s with
    program :=
      { descriptors := [{ addr := s.regs.ip, len := bytes.length, code := encodeCode i, bytes := bytes }], data := [] }
    mem := s.mem.lay s.regs.ip.toNat (bytes.map some)
    run := .running
    cycle := .closed }

/-- The state with the instruction of a table word (log 2) placed where the next cycle decodes; a word that is none leaves
the state as it is. -/
def placeWord (s : State) (nbits w : Nat) : State :=
  match decodeBytes (tableBytes nbits w) with
  | .error _ => s
  | .ok (i, _) => placeInstr i (encodeBytes i) s

end Sys2Proof.Machine
end

