-- ==== Sys2Proof/Machine/Step.lean ====
section
/-! DEFINITION. The step of the machine and the placing of an instruction, both by Machine/Cycle.lean. -/

namespace Sys2Proof.Machine

/-- One step (40_engine.md rule R130). -/
def step (s : State) : Host.Outcome State Fault Refusal := stepState s

/-- `s` with the instruction of a table word placed where `step` decodes next (log 2, log 3). -/
def State.withFetchWord (s : State) (nbits w : Nat) : State := placeWord s nbits w

end Sys2Proof.Machine
end

