-- ==== Sys2Proof/Safety.lean ====
section
/-! DEFINITION. The terms claims use: what a run may read and write, a host that lets a cycle finish, the parts of the state
an instruction answers for, and the invariants of the machine. -/

namespace Sys2Proof.Machine

/-! ## Memory as values -/

/-- The width-`w` value at an address, little-endian (20_memory.md rule R65). -/
def Memory.load (m : Memory) : (w : Width) → Nat → BitVec w.bits
  | .w8, a => m.read a
  | .w16, a => joinBytes (m.read (a + 1)) (m.read a)

/-- Memory with a width-`w` value stored at an address, little-endian (20_memory.md rules R65, R67). -/
def Memory.store (m : Memory) : (w : Width) → Nat → BitVec w.bits → Memory
  | .w8, a, v => m.write a v
  | .w16, a, v => (m.write a (lowByte v)).write (a + 1) (highByte v)

/-- The address `b` is one of the bytes of a width-`w` access at `a`. -/
abbrev within (w : Width) (a b : Nat) : Prop := a ≤ b ∧ b < a + w.bytes

/-- Every byte of a width-`w` read at `a` lies in `[0, MEM_MAX]` (20_memory.md rules R62, R66). -/
abbrev State.canRead (s : State) (w : Width) (a : Nat) : Prop := a + w.bytes ≤ s.params.memMax + 1

/-- Every byte of a width-`w` write at `a` lies in `[0, MEM_MAX]` and holds no code (20_memory.md rules R63, R67). -/
abbrev State.canWrite (s : State) (w : Width) (a : Nat) : Prop :=
  s.canRead w a ∧ ∀ b, within w a b → s.reserved b = false

/-! ## A host that lets a cycle finish -/

/-- No turn of the host to come resets the machine or cancels the cycle. It may still tick, request lines, move lines,
supply bytes and resume. -/
def State.undisturbed (s : State) : Bool := s.host.all (fun t => t.all (fun a => !a.ends))

/-- The machine is in the execute phase of a cycle that the host will not end. -/
abbrev State.executing (s : State) : Prop := s.run = .running ∧ s.cycle = .opened ∧ s.undisturbed = true

/-- The machine is between two cycles, running, and the host will not end the next one. -/
abbrev State.ready (s : State) : Prop := s.run = .running ∧ s.cycle = .closed ∧ s.undisturbed = true

/-! ## The parts of the state an instruction answers for -/

/-- The part of the state that no tick, request or line change of the host moves while the engine runs: everything but the
latches, whose values between instructions are any value (10_state.md rule R37), the devices, the events and the host. -/
structure Arch where
  regs : Regs
  mem : Memory
  program : Program
  params : Params
  run : Run
  faultRecord : Option Fault
  cycle : Phase
  draws : Nat
  deriving DecidableEq, Repr

/-- That part of a state. -/
def State.arch (s : State) : Arch :=
  { regs := s.regs, mem := s.mem, program := s.program, params := s.params, run := s.run
    faultRecord := s.faultRecord, cycle := s.cycle, draws := s.draws }

/-- The device registers that only software and reset move: no tick, request or line change does. -/
structure Settings where
  imr : Byte
  isr : Byte
  vec : Vector Byte 8
  comp : Byte
  ca : Byte
  cb : Byte
  extB : Byte
  data : Byte
  ie : Bool
  deriving DecidableEq, Repr

/-- Those registers of the devices. -/
def Devices.settings (d : Devices) : Settings :=
  { imr := d.pic.imr, isr := d.pic.isr, vec := d.pic.vec, comp := d.timer.comp, ca := d.pio.ca, cb := d.pio.cb
    extB := d.pio.extB, data := d.hs.data, ie := d.hs.ie }

/-- From `s` to `t` only the host has moved the devices: the settings stay, and with no turn of the host left nothing moves. -/
abbrev devicesKept (s t : State) : Prop :=
  t.dev.settings = s.dev.settings ∧ (s.host = [] → t.dev = s.dev)

/-- A place can be read. -/
def State.placeReadable (s : State) {w : Width} : Place w → Prop
  | .reg _ => True
  | .mem a => s.canRead w a.toNat

/-- A place can be written. -/
def State.placeWritable (s : State) {w : Width} : Place w → Prop
  | .reg _ => True
  | .mem a => s.canWrite w a.toNat

/-- The value of a place. -/
def State.placeValue (s : State) {w : Width} : Place w → BitVec w.bits
  | .reg r => s.regs.get r
  | .mem a => s.mem.load w a.toNat

/-- The address is none of a place's bytes. -/
def Place.off {w : Width} (p : Place w) (b : Nat) : Prop :=
  match p with
  | .reg _ => True
  | .mem a => ¬ within w a.toNat b

/-- A source operand can be read. -/
def State.sourceReadable (s : State) {w : Width} : Source w → Prop
  | .reg _ => True
  | .mem m => s.canRead w (ea m s.regs).toNat
  | .imm _ => True

/-- The value of a source operand. -/
def State.sourceValue (s : State) {w : Width} : Source w → BitVec w.bits
  | .reg r => s.regs.get r
  | .mem m => s.mem.load w (ea m s.regs).toNat
  | .imm v => v

/-- A place written, nothing else changed. -/
def Arch.put (x : Arch) {w : Width} (p : Place w) (v : BitVec w.bits) : Arch :=
  match p with
  | .reg r => { x with regs := x.regs.set r v }
  | .mem a => { x with mem := x.mem.store w a.toNat v }

/-- FLAGS written, nothing else changed. -/
def Arch.putFlags (x : Arch) (f : Word) : Arch := { x with regs := { x.regs with flags := f } }

/-- IP written, nothing else changed. -/
def Arch.putIp (x : Arch) (a : Word) : Arch := { x with regs := { x.regs with ip := a } }

/-- The instruction ended with outcome halt, nothing else changed (00_scope.md rule R9, `halt`). -/
def Arch.ending (x : Arch) (why : HaltReason) : Arch := { x with cycle := .ending why }

/-- A fault raised: recorded, and the instruction ended with outcome halt, nothing else changed (00_scope.md rule R9, `raise`). -/
def Arch.faulting (x : Arch) (f : Fault) : Arch := { x with cycle := .ending (.fault f), faultRecord := some f }

/-- The cycle closed with outcome halt and the engine halted, nothing else changed (40_engine.md rule R130). -/
def Arch.halted (x : Arch) (why : HaltReason) : Arch := { x with run := .halted why, cycle := .closed }

/-- From `x` to `y` the run state is kept, and the cycle's phase and the fault record too unless a fault was raised. -/
def Arch.goesOnOrFaults (x y : Arch) : Prop :=
  y.run = x.run ∧ (y.cycle = x.cycle ∧ y.faultRecord = x.faultRecord ∨
    ∃ f, y.cycle = .ending (.fault f) ∧ y.faultRecord = some f)

/-- The fault of a one-byte write at an address (20_memory.md rule R63). -/
def State.byteWriteFault (s : State) (a : Nat) : Option Fault :=
  if s.params.memMax < a then some (.memOutOfRange a)
  else if s.reserved a then some (.memWriteReserved a)
  else none

/-- FLAGS after an ALU operation (10_state.md rules R30, R31, 40_engine.md rule R161): CF is bit 0, ZF bit 6, SF bit 7, OF bit
11; every other bit is as in `old`. -/
abbrev flagBits (f old : Word) (cf zf sf of : Bool) : Prop :=
  f.getLsbD 0 = cf ∧ f.getLsbD 6 = zf ∧ f.getLsbD 7 = sf ∧ f.getLsbD 11 = of ∧
    ∀ j, j ≠ 0 → j ≠ 6 → j ≠ 7 → j ≠ 11 → f.getLsbD j = old.getLsbD j

/-- A word pushed (40_engine.md rule R150): SP lowered by two and the word stored there. -/
def Arch.pushed (x : Arch) (v : Word) : Arch :=
  { x with
    regs := x.regs.set Reg.sp (x.regs.sp - 2)
    mem := x.mem.store .w16 (x.regs.sp - 2).toNat v }

/-- The first word an instruction pushes: PUSH, PUSHF, CALL, and INT on the generic path (45_stack.md rules R246, R248,
44_jump_call.md rule R235, 47_software_interrupt.md rule R276). -/
def State.pushes (s : State) (i : Instr) (v : Word) : Prop :=
  (∃ r, i = .push r ∧ v = s.regs.get r) ∨ (i = .pushf ∧ v = s.regs.flags) ∨ (∃ a, i = .call a ∧ v = s.regs.ip) ∨
    ∃ n, i = .int n ∧ n ≠ 0 ∧ n ≠ 3 ∧ n ≠ 6 ∧ n ≠ 7 ∧ v = s.regs.flags

/-- In the machine `s` a push of `v` on the part `x` faults with `f`, and `y` is what it leaves before the fault (40_engine.md rule
R150, 20_memory.md rule R67): no room below SP; SP lowered and the first byte of the slot not writable; the low byte stored and
the second byte not writable. -/
def State.pushFaults (s : State) (x : Arch) (v : Word) (y : Arch) (f : Fault) : Prop :=
  let lowered : Arch := { x with regs := { x.regs with sp := x.regs.sp - 2 } }
  let slot := (x.regs.sp - 2).toNat
  (x.regs.sp.toNat < 2 ∧ f = .stackOverflow x.regs.sp ∧ y = x) ∨
  (2 ≤ x.regs.sp.toNat ∧ s.byteWriteFault slot = some f ∧ y = lowered) ∨
  (2 ≤ x.regs.sp.toNat ∧ s.byteWriteFault slot = none ∧ s.byteWriteFault (slot + 1) = some f ∧
    y = { lowered with mem := x.mem.write slot (v.extractLsb' 0 8) })

/-- Interrupt entry between its two pushes: FLAGS pushed, IF cleared (40_engine.md rule R155). -/
def Arch.halfEntered (x : Arch) : Arch := (x.pushed x.regs.flags).putFlags (setIF x.regs.flags false)

/-- SP raised by two, as a pop leaves it (40_engine.md rule R151). -/
def Arch.popped (x : Arch) : Arch := { x with regs := x.regs.set Reg.sp (x.regs.sp + 2) }

/-- A push goes through (40_engine.md rule R150): there is room below SP and the slot can be written. -/
def State.canPush (s : State) : Prop := 2 ≤ s.regs.sp.toNat ∧ s.canWrite .w16 (s.regs.sp - 2).toNat

/-- A pop goes through (40_engine.md rule R151). -/
abbrev State.canPop (s : State) : Prop := s.regs.sp.toNat + 2 ≤ s.params.memMax + 1

/-- The word at the top of the stack. -/
def State.top (s : State) : Word := s.mem.load .w16 s.regs.sp.toNat

/-- The outcome of the last cycle, seen from the run state it left (40_engine.md rules R130, R132). -/
def outcomeOf (r : Run) : CycleOutcome :=
  match r with
  | .halted _ => .halt
  | .running => .continue
  | .awaitChar _ => .continue

/-- The events of the peripheral modules (60_exceptions.md rule R385), the only ones that the host's actions can report. -/
def Event.ofModule : Event → Bool
  | .picLine _ => true
  | .periph _ _ => true
  | .printerStrobe _ => true
  | .cycleStart _ => false
  | .cycleEnd _ => false
  | .mar _ => false
  | .mbr _ => false
  | .bus _ _ _ => false
  | .reg _ _ => false
  | .alu _ _ _ _ _ => false
  | .fault _ => false
  | .intAck => false
  | .breakpoint => false
  | .charRequest => false
  | .outputChar _ => false

/-- The printer receives a byte (60_exceptions.md rules R370, R376, R377, R385). -/
def Event.isStrobe : Event → Bool
  | .printerStrobe _ => true
  | .picLine _ => false
  | .periph _ _ => false
  | .cycleStart _ => false
  | .cycleEnd _ => false
  | .mar _ => false
  | .mbr _ => false
  | .bus _ _ _ => false
  | .reg _ _ => false
  | .alu _ _ _ _ _ => false
  | .fault _ => false
  | .intAck => false
  | .breakpoint => false
  | .charRequest => false
  | .outputChar _ => false

/-- INT 7's events (60_exceptions.md rule R385). -/
def Event.isOutput : Event → Bool
  | .outputChar _ => true
  | .cycleStart _ => false
  | .cycleEnd _ => false
  | .mar _ => false
  | .mbr _ => false
  | .bus _ _ _ => false
  | .reg _ _ => false
  | .alu _ _ _ _ _ => false
  | .fault _ => false
  | .intAck => false
  | .breakpoint => false
  | .charRequest => false
  | .picLine _ => false
  | .periph _ _ => false
  | .printerStrobe _ => false

/-- A run without a fault. -/
def State.safe (s : State) : Bool := s.faultRecord.isNone

/-! ## Invariants -/

/-- At most one line is in service (60_exceptions.md rule R346). -/
abbrev Pic.oneInService (p : Pic) : Prop := p.isr = 0 ∨ ∃ k : Fin 8, p.isr = BitVec.twoPow 8 k

/-- On the input bits of a port its register shows the external lines (60_exceptions.md rule R366). -/
abbrev Pio.followsLines (p : Pio) : Prop := p.pa &&& p.ca = p.extA &&& p.ca ∧ p.pb &&& p.cb = p.extB &&& p.cb

/-- No cell of memory is listed outside `[0, MEM_MAX]` (10_state.md rule R40). -/
abbrev State.memoryBounded (s : State) : Prop := ∀ c ∈ s.mem.cells, c.1 ≤ s.params.memMax

/-- A reset action. -/
def HostAction.isReset : HostAction → Bool
  | .reset _ _ => true
  | .cancel => false
  | .tick => false
  | .request _ => false
  | .setSwitches _ => false
  | .setBusy _ => false
  | .supply _ => false
  | .resume => false

/-- No turn of the host to come resets the machine. -/
def State.noReset (s : State) : Bool := s.host.all (fun t => t.all (fun a => !a.isReset))

end Sys2Proof.Machine
end

