-- ==== Sys2Proof/Certificates/Slice0/Obligations.lean ====
section
/-! DEFINITION. The statements for the provers, each with the rule of spec/ it formalises. "Executing" is the execute phase of
a cycle under a host that neither resets the machine nor cancels the cycle, but may do everything else at every event
boundary; `State.arch` is the whole state but for latches, devices, events and the host's turns. -/

section

open Sys2Proof Sys2Proof.Machine

/-! ## The ALU and the registers -/

/-- 40_engine.md rule R160, whole: every operation of the ALU over exact integers. -/
def Obligations.AluFollowsRule : Prop :=
  ∀ (w : Width) (a b : BitVec w.bits) (cin : Bool),
    (∀ op, ((alu op a b cin).zf = true ↔ (alu op a b cin).res.toNat = 0) ∧
      ((alu op a b cin).sf = true ↔ (alu op a b cin).res.msb = true)) ∧
    (alu .add a b cin).res.toNat = (a.toNat + b.toNat) % 2 ^ w.bits ∧
    ((alu .add a b cin).cf = true ↔ a.toNat + b.toNat > 2 ^ w.bits - 1) ∧
    ((alu .add a b cin).of = true ↔ a.msb = b.msb ∧ (alu .add a b cin).res.msb ≠ a.msb) ∧
    (alu .adc a b cin).res.toNat = (a.toNat + b.toNat + cin.toNat) % 2 ^ w.bits ∧
    ((alu .adc a b cin).cf = true ↔ a.toNat + b.toNat + cin.toNat > 2 ^ w.bits - 1) ∧
    ((alu .adc a b cin).of = true ↔ a.msb = b.msb ∧ (alu .adc a b cin).res.msb ≠ a.msb) ∧
    ((alu .sub a b cin).res.toNat : Int) = ((a.toNat : Int) - b.toNat) % 2 ^ w.bits ∧
    ((alu .sub a b cin).cf = true ↔ (a.toNat : Int) - b.toNat < 0) ∧
    ((alu .sub a b cin).of = true ↔ a.msb ≠ b.msb ∧ (alu .sub a b cin).res.msb = b.msb) ∧
    ((alu .sbb a b cin).res.toNat : Int) = ((a.toNat : Int) - b.toNat - cin.toNat) % 2 ^ w.bits ∧
    ((alu .sbb a b cin).cf = true ↔ (a.toNat : Int) - b.toNat - cin.toNat < 0) ∧
    ((alu .sbb a b cin).of = true ↔ a.msb ≠ b.msb ∧ (alu .sbb a b cin).res.msb = b.msb) ∧
    ((alu .and a b cin).res = a &&& b ∧ (alu .and a b cin).cf = false ∧ (alu .and a b cin).of = false) ∧
    ((alu .or a b cin).res = a ||| b ∧ (alu .or a b cin).cf = false ∧ (alu .or a b cin).of = false) ∧
    ((alu .xor a b cin).res = a ^^^ b ∧ (alu .xor a b cin).cf = false ∧ (alu .xor a b cin).of = false)

/-- 40_engine.md rule R162: the overflow flag as a range of signed values, and the round trip. -/
def Obligations.AluOverflowIsSignedRange : Prop :=
  ∀ (w : Width) (a b : BitVec w.bits) (cin : Bool),
    let outside := fun x : Int => x < -(2 ^ (w.bits - 1)) ∨ 2 ^ (w.bits - 1) - 1 < x
    ((alu .add a b cin).of = true ↔ outside (a.toInt + b.toInt)) ∧
    ((alu .adc a b cin).of = true ↔ outside (a.toInt + b.toInt + cin.toNat)) ∧
    ((alu .sub a b cin).of = true ↔ outside (a.toInt - b.toInt)) ∧
    ((alu .sbb a b cin).of = true ↔ outside (a.toInt - b.toInt - cin.toNat)) ∧
    (alu .sub (alu .add a b cin).res b cin).res = a

/-- 10_state.md rule R21, whole: the halves of AX, BX, CX, DX; a write of a whole register leaves every other register. -/
def Obligations.RegisterHalves : Prop :=
  ∀ (g : Regs) (b : Byte) (v : Word),
    (g.get Reg.al = g.ax.extractLsb' 0 8 ∧ g.get Reg.ah = g.ax.extractLsb' 8 8 ∧
      g.get Reg.bl = g.bx.extractLsb' 0 8 ∧ g.get Reg.bh = g.bx.extractLsb' 8 8 ∧
      g.get Reg.cl = g.cx.extractLsb' 0 8 ∧ g.get Reg.ch = g.cx.extractLsb' 8 8 ∧
      g.get Reg.dl = g.dx.extractLsb' 0 8 ∧ g.get Reg.dh = g.dx.extractLsb' 8 8) ∧
    (∀ (w : Width) (r : Reg w) (x : BitVec w.bits), (g.set r x).get r = x) ∧
    (g.set Reg.al b = { g with ax := g.ax.extractLsb' 8 8 ++ b } ∧
      g.set Reg.ah b = { g with ax := b ++ g.ax.extractLsb' 0 8 } ∧
      g.set Reg.bl b = { g with bx := g.bx.extractLsb' 8 8 ++ b } ∧
      g.set Reg.bh b = { g with bx := b ++ g.bx.extractLsb' 0 8 } ∧
      g.set Reg.cl b = { g with cx := g.cx.extractLsb' 8 8 ++ b } ∧
      g.set Reg.ch b = { g with cx := b ++ g.cx.extractLsb' 0 8 } ∧
      g.set Reg.dl b = { g with dx := g.dx.extractLsb' 8 8 ++ b } ∧
      g.set Reg.dh b = { g with dx := b ++ g.dx.extractLsb' 0 8 }) ∧
    (g.set Reg.ax v = { g with ax := v } ∧ g.set Reg.bx v = { g with bx := v } ∧ g.set Reg.cx v = { g with cx := v } ∧
      g.set Reg.dx v = { g with dx := v } ∧ g.set Reg.sp v = { g with sp := v }) ∧
    ((g.set Reg.al b).get Reg.ah = g.get Reg.ah ∧ (g.set Reg.ah b).get Reg.al = g.get Reg.al ∧
      (g.set Reg.bl b).get Reg.bh = g.get Reg.bh ∧ (g.set Reg.bh b).get Reg.bl = g.get Reg.bl ∧
      (g.set Reg.cl b).get Reg.ch = g.get Reg.ch ∧ (g.set Reg.ch b).get Reg.cl = g.get Reg.cl ∧
      (g.set Reg.dl b).get Reg.dh = g.get Reg.dh ∧ (g.set Reg.dh b).get Reg.dl = g.get Reg.dl) ∧
    ((g.set Reg.ax v).get Reg.al = v.extractLsb' 0 8 ∧ (g.set Reg.ax v).get Reg.ah = v.extractLsb' 8 8 ∧
      (g.set Reg.bx v).get Reg.bl = v.extractLsb' 0 8 ∧ (g.set Reg.bx v).get Reg.bh = v.extractLsb' 8 8 ∧
      (g.set Reg.cx v).get Reg.cl = v.extractLsb' 0 8 ∧ (g.set Reg.cx v).get Reg.ch = v.extractLsb' 8 8 ∧
      (g.set Reg.dx v).get Reg.dl = v.extractLsb' 0 8 ∧ (g.set Reg.dx v).get Reg.dh = v.extractLsb' 8 8)

/-! ## Memory -/

/-- 20_memory.md rule R62, whole. No premise excludes reserved addresses: code may be read. -/
def Obligations.ByteRead : Prop :=
  ∀ (s : State) (a : Nat), s.executing →
    (a ≤ s.params.memMax →
      ∃ t, memReadByte a s = .ok (s.mem.read a) t ∧ t.arch = s.arch ∧ devicesKept s t) ∧
    (s.params.memMax < a →
      ∃ t, memReadByte a s = .error () t ∧ t.arch = s.arch.faulting (.memOutOfRange a) ∧ devicesKept s t)

/-- 20_memory.md rule R63: the three cases of a one-byte write. -/
def Obligations.ByteWrite : Prop :=
  ∀ (s : State) (a : Nat) (v : Byte), s.executing →
    (a ≤ s.params.memMax → s.reserved a = false →
      ∃ t, memWriteByte a v s = .ok () t ∧ t.arch = { s.arch with mem := s.mem.write a v } ∧ devicesKept s t) ∧
    (a ≤ s.params.memMax → s.reserved a = true →
      ∃ t, memWriteByte a v s = .error () t ∧ t.arch = s.arch.faulting (.memWriteReserved a) ∧
        devicesKept s t) ∧
    (s.params.memMax < a →
      ∃ t, memWriteByte a v s = .error () t ∧ t.arch = s.arch.faulting (.memOutOfRange a) ∧ devicesKept s t)

/-- 20_memory.md rules R65, R66, R67: a word access is two byte transactions, the low byte first at the lower address; a
fault on the second leaves the first. -/
def Obligations.WordAccess : Prop :=
  ∀ (s : State) (a : Nat) (v : Word), s.executing →
    (a + 1 ≤ s.params.memMax →
      ∃ t, memRead .w16 a s = .ok (s.mem.read (a + 1) ++ s.mem.read a) t ∧ t.arch = s.arch ∧ devicesKept s t) ∧
    (a + 1 ≤ s.params.memMax → s.reserved a = false → s.reserved (a + 1) = false →
      ∃ t, memWrite .w16 a v s = .ok () t ∧ devicesKept s t ∧
        t.arch = { s.arch with mem := (s.mem.write a (v.extractLsb' 0 8)).write (a + 1) (v.extractLsb' 8 8) }) ∧
    (a = s.params.memMax → s.reserved a = false →
      ∃ t, memWrite .w16 a v s = .error () t ∧ devicesKept s t ∧
        t.arch = ({ s.arch with mem := s.mem.write a (v.extractLsb' 0 8) } : Arch).faulting
          (.memOutOfRange (a + 1))) ∧
    (a + 1 ≤ s.params.memMax → s.reserved a = false → s.reserved (a + 1) = true →
      ∃ t, memWrite .w16 a v s = .error () t ∧ devicesKept s t ∧
        t.arch = ({ s.arch with mem := s.mem.write a (v.extractLsb' 0 8) } : Arch).faulting
          (.memWriteReserved (a + 1)))

/-- 20_memory.md rules R71, R90: a read returns the most recent write, and a write touches no other byte. -/
def Obligations.ReadAfterWrite : Prop :=
  ∀ (m : Memory) (w : Width) (a : Nat) (v : BitVec w.bits), m.wf = true →
    (m.store w a v).load w a = v ∧ (m.store w a v).wf = true ∧
      ∀ b, ¬ within w a b → (m.store w a v).read b = m.read b

/-! ## What each instruction does when it completes -/

/-- ADD, ADC, SUB, SBB, AND, OR, XOR (41_alu_binary.md rules R180 to R184, R186 to R188): the ALU's result written to the
destination, the ALU's flags to bits 0, 6, 7 and 11 of FLAGS (10_state.md rule R30), nothing else changed. -/
def Obligations.BinaryCompletes : Prop :=
  ∀ (w : Width) (o : Operands w) (s : State), s.executing →
    s.placeReadable (placeOf o.dst s.regs) → s.sourceReadable o.src → s.placeWritable (placeOf o.dst s.regs) →
    ∀ (op : AluOp) (i : Instr),
      (op, i) ∈ [(.add, .add w o), (.adc, .adc w o), (.sub, .sub w o), (.sbb, .sbb w o), (.and, .and w o),
        (.or, .or w o), (.xor, .xor w o)] →
      ∃ t, exec i s = .next t ∧
        (let out := alu op (s.placeValue (placeOf o.dst s.regs)) (s.sourceValue o.src) (flagCF s.regs.flags)
         t.arch = (s.arch.putFlags (setAluFlags s.regs.flags out.cf out.zf out.sf out.of)).put
          (placeOf o.dst s.regs) out.res ∧ flagBits t.regs.flags s.regs.flags out.cf out.zf out.sf out.of) ∧
        devicesKept s t

/-- CMP (41_alu_binary.md rule R185): the flags of SUB and no writeback, also where the destination is code. -/
def Obligations.CmpCompletes : Prop :=
  ∀ (w : Width) (o : Operands w) (s : State), s.executing →
    s.placeReadable (placeOf o.dst s.regs) → s.sourceReadable o.src →
    ∃ t, exec (.cmp w o) s = .next t ∧
      (let out := alu .sub (s.placeValue (placeOf o.dst s.regs)) (s.sourceValue o.src) false
       t.arch = s.arch.putFlags (setAluFlags s.regs.flags out.cf out.zf out.sf out.of) ∧
        flagBits t.regs.flags s.regs.flags out.cf out.zf out.sf out.of) ∧
      devicesKept s t

/-- INC, DEC, NEG, NOT (42_alu_unary.md rules R200 to R204) through the ALU. -/
def Obligations.UnaryCompletes : Prop :=
  ∀ (w : Width) (d : Loc w) (s : State), s.executing →
    s.placeReadable (placeOf d s.regs) → s.placeWritable (placeOf d s.regs) →
    let a := s.placeValue (placeOf d s.regs)
    ∀ (i : Instr) (out : AluOut w.bits),
      (i, out) ∈ [(.inc w d, alu .add a 1 false), (.dec w d, alu .sub a 1 false), (.neg w d, alu .sub 0 a false),
        (.not w d, alu .xor a (BitVec.allOnes w.bits) false)] →
      ∃ t, exec i s = .next t ∧
        t.arch = (s.arch.putFlags (setAluFlags s.regs.flags out.cf out.zf out.sf out.of)).put
          (placeOf d s.regs) out.res ∧
        flagBits t.regs.flags s.regs.flags out.cf out.zf out.sf out.of ∧ devicesKept s t

/-- MOV (43_data_move.md rules R215, R216): the source's value in the destination, no flag. -/
def Obligations.MovCompletes : Prop :=
  ∀ (w : Width) (o : Operands w) (s : State), s.executing →
    s.sourceReadable o.src → s.placeWritable (placeOf o.dst s.regs) →
    ∃ t, exec (.mov w o) s = .next t ∧ t.arch = s.arch.put (placeOf o.dst s.regs) (s.sourceValue o.src) ∧
      devicesKept s t

/-- JMP and the conditional jumps (44_jump_call.md rules R225 to R234): IP becomes the target where the condition holds and
stays at the fall-through address where it does not; nothing else changes, FLAGS and memory included. -/
def Obligations.JumpsComplete : Prop :=
  ∀ (a : Word) (s : State), s.executing →
    ∀ (i : Instr) (taken : Bool),
      (i, taken) ∈ [(.jmp a, true),
        (.jz a, s.regs.flags.getLsbD 6), (.jnz a, !s.regs.flags.getLsbD 6),
        (.js a, s.regs.flags.getLsbD 7), (.jns a, !s.regs.flags.getLsbD 7),
        (.jc a, s.regs.flags.getLsbD 0), (.jnc a, !s.regs.flags.getLsbD 0),
        (.jo a, s.regs.flags.getLsbD 11), (.jno a, !s.regs.flags.getLsbD 11)] →
      ∃ t, exec i s = .next t ∧ t.arch = s.arch.putIp (if taken then a else s.regs.ip) ∧ devicesKept s t

/-- CALL (44_jump_call.md rule R235): IP, which Fetch has left after the CALL, pushed, then replaced by the target. -/
def Obligations.CallCompletes : Prop :=
  ∀ (a : Word) (s : State), s.executing → s.canPush →
    ∃ t, exec (.call a) s = .next t ∧ devicesKept s t ∧
      t.arch = { s.arch with
        regs := { s.regs with sp := s.regs.sp - 2, ip := a }
        mem := s.mem.store .w16 (s.regs.sp - 2).toNat s.regs.ip }

/-- PUSH and PUSHF (45_stack.md rules R246, R248): the register, SP included, is read before SP changes. -/
def Obligations.PushesComplete : Prop :=
  ∀ (s : State), s.executing → s.canPush →
    ∀ (i : Instr) (v : Word), ((∃ r, i = .push r ∧ v = s.regs.get r) ∨ (i = .pushf ∧ v = s.regs.flags)) →
      ∃ t, exec i s = .next t ∧ devicesKept s t ∧
        t.arch = { s.arch with
          regs := { s.regs with sp := s.regs.sp - 2 }
          mem := s.mem.store .w16 (s.regs.sp - 2).toNat v }

/-- POP and POPF (45_stack.md rules R247, R249): POP writes its register after SP, so POP SP leaves the popped word; POPF
replaces all 16 bits of FLAGS. -/
def Obligations.PopsComplete : Prop :=
  ∀ (s : State), s.executing → s.canPop →
    (∀ r : Reg .w16, ∃ t, exec (.pop r) s = .next t ∧ devicesKept s t ∧
      t.arch = { s.arch with
        regs := ({ s.regs with sp := s.regs.sp + 2 } : Regs).set r (s.mem.load .w16 s.regs.sp.toNat) }) ∧
    ∃ t, exec .popf s = .next t ∧ devicesKept s t ∧
      t.arch = { s.arch with
        regs := { s.regs with sp := s.regs.sp + 2, flags := s.mem.load .w16 s.regs.sp.toNat } }

/-- IN (46_io.md rules R260, R261): AL or AX from the claimed registers at `p`, and `p + 1` for AX, a 16-bit sum (00_scope.md rule
R8). The host may move a device
between two transactions, so the value is the device's own under a host that acts no more. `draws` counts the free values
of EOI reads (log 15). -/
def Obligations.InCompletes : Prop :=
  ∀ (p : Port) (s : State) (r q : IoReg), s.executing →
    let a := (portAddress p s.regs).toNat
    let b := (portAddress p s.regs + 1).toNat
    a ≤ s.params.ioMax → chipSelect s.params a = some r →
    (∃ t v, exec (.inp .w8 p) s = .next t ∧ devicesKept s t ∧
      t.arch = { s.arch with regs := s.regs.set Reg.al v, draws := s.draws + drawsOf r } ∧
      (s.host = [] → v = s.dev.read s.draws r)) ∧
    (b ≤ s.params.ioMax → chipSelect s.params b = some q →
      ∃ t lo hi, exec (.inp .w16 p) s = .next t ∧ devicesKept s t ∧
        t.arch = { s.arch with
          regs := { s.regs with ax := hi ++ lo }, draws := s.draws + drawsOf r + drawsOf q } ∧
        (s.host = [] → lo = s.dev.read s.draws r ∧ hi = s.dev.read (s.draws + drawsOf r) q))

/-- OUT (46_io.md rules R260, R262): AL to the claimed register at `p`, and AH to the one at `p + 1` for AX, a 16-bit sum (00_scope.md
rule R8), with the registers' side effects on the devices and on the printer; registers and memory unchanged. The host may move
a device at every boundary, so the whole of them, and the strobes, are the write's own under a host that acts no more. -/
def Obligations.OutCompletes : Prop :=
  ∀ (p : Port) (s : State) (r q : IoReg), s.executing →
    let a := (portAddress p s.regs).toNat
    let b := (portAddress p s.regs + 1).toNat
    a ≤ s.params.ioMax → chipSelect s.params a = some r →
    (let first := s.dev.write s.params.config r (s.regs.get Reg.al)
     let second := first.1.write s.params.config q (s.regs.get Reg.ah)
     (∃ t, exec (.outp .w8 p) s = .next t ∧ t.arch = s.arch ∧ t.dev.settings = first.1.settings ∧
      (s.host = [] → t.dev = first.1 ∧
        t.events.filter Event.isStrobe = (first.2.filter Event.isStrobe).reverse ++ s.events.filter Event.isStrobe)) ∧
     (b ≤ s.params.ioMax → chipSelect s.params b = some q →
      ∃ t, exec (.outp .w16 p) s = .next t ∧ t.arch = s.arch ∧ t.dev.settings = second.1.settings ∧
        (s.host = [] → t.dev = second.1 ∧
          t.events.filter Event.isStrobe =
            ((first.2 ++ second.2).filter Event.isStrobe).reverse ++ s.events.filter Event.isStrobe)))

/-- INT n on the generic path (47_software_interrupt.md rule R276, 40_engine.md rule R155): FLAGS pushed, IF cleared, IP
pushed, IP loaded from the vector at `4 * n`. -/
def Obligations.IntVectorCompletes : Prop :=
  ∀ (n : Byte) (s : State), s.executing → n ≠ 0 → n ≠ 3 → n ≠ 6 → n ≠ 7 →
    4 ≤ s.regs.sp.toNat → s.canWrite .w16 (s.regs.sp - 2).toNat → s.canWrite .w16 (s.regs.sp - 4).toNat →
    s.canRead .w16 (4 * n.toNat) →
    ∃ t, exec (.int n) s = .next t ∧ devicesKept s t ∧
      (let m := (s.mem.store .w16 (s.regs.sp - 2).toNat s.regs.flags).store .w16 (s.regs.sp - 4).toNat s.regs.ip
       t.arch = { s.arch with
        regs := { s.regs with
          sp := s.regs.sp - 4, flags := setIF s.regs.flags false, ip := m.load .w16 (4 * n.toNat) }
        mem := m })

/-- INT 0 (47_software_interrupt.md rule R278, whole): the outcome is halt with reason INT0, nothing else changes, no interrupt
poll follows, and the end of the cycle halts the engine (40_engine.md rule R130). -/
def Obligations.IntZeroHalts : Prop :=
  ∀ s : State, s.executing →
    ∃ t, exec (.int 0) s = .next t ∧ t.arch = s.arch.ending .int0 ∧ devicesKept s t ∧
      (finishCycle t).arch = s.arch.halted .int0 ∧ devicesKept s (finishCycle t)

/-- INT 3 (47_software_interrupt.md rule R282): `breakpoint` is emitted and nothing else changes; the cycle waits (log 9)
until the host resumes, and then completes. -/
def Obligations.IntThreeBreaks : Prop :=
  (∀ s : State, s.executing →
    ∃ t, exec (.int 3) s = .next t ∧ t.arch = { s.arch with cycle := t.cycle } ∧ devicesKept s t ∧
      (t.cycle = .breakpoint ∨ t.cycle = .opened) ∧
      (s.host = [] → t.cycle = .breakpoint ∧ t.events = .breakpoint :: s.events)) ∧
  (∀ s : State, s.run = .running → s.cycle = .breakpoint → s.host = [] → step s = .next s) ∧
  (∀ (s : State) (ts : List HostTurn), s.run = .running → s.cycle = .breakpoint → s.host = [.resume] :: ts →
    step s = .next (finishCycle { s with cycle := .opened, host := ts }))

/-- INT 6 (47_software_interrupt.md rule R284): `char-request`, then the engine waits; the host's byte is stored at BX when it
comes, or faults there. That a supplied byte stands in the run state, `awaitChar (some c)`, for one step before it is stored is
the model's own choice (log 8, DESIGN CHOICE). -/
def Obligations.IntSixReads : Prop :=
  (∀ s : State, s.executing →
    ∃ t, exec (.int 6) s = .next t ∧ t.arch = { s.arch with run := t.run } ∧ devicesKept s t ∧
      (∃ c, t.run = .awaitChar c) ∧
      (s.host = [] → t.run = .awaitChar none ∧ t.events = .charRequest :: s.events)) ∧
  (∀ s : State, s.run = .awaitChar none → s.cycle = .opened → s.host = [] → step s = .next s) ∧
  (∀ (s : State) (c : Byte) (ts : List HostTurn), s.run = .awaitChar none → s.cycle = .opened →
    s.host = [.supply c] :: ts → step s = .next { s with run := .awaitChar (some c), host := ts }) ∧
  (∀ (s : State) (c : Byte), s.run = .awaitChar (some c) → s.cycle = .opened → s.undisturbed = true →
    (s.canWrite .w8 s.regs.bx.toNat →
      ∃ u, step s = .next (finishCycle u) ∧ devicesKept s u ∧
        u.arch = { s.arch with run := .running, mem := s.mem.write s.regs.bx.toNat c }) ∧
    (s.params.memMax < s.regs.bx.toNat →
      ∃ u, step s = .next (finishCycle u) ∧ devicesKept s u ∧
        u.arch = ({ s.arch with run := .running } : Arch).faulting (.memOutOfRange s.regs.bx.toNat)) ∧
    (s.canRead .w8 s.regs.bx.toNat → s.reserved s.regs.bx.toNat = true →
      ∃ u, step s = .next (finishCycle u) ∧ devicesKept s u ∧
        u.arch = ({ s.arch with run := .running } : Arch).faulting (.memWriteReserved s.regs.bx.toNat)))

/-- INT 7 (47_software_interrupt.md rule R287): AL bytes from BX up are sent in address order, AL counts to 0, BX advances, and
FLAGS are those of the last `SUB AL, 1`; with AL = 0 nothing happens. Where byte `k` is the first outside memory, the `k` bytes
before it are sent, BX and AL are moved `k` times, FLAGS are those of the `k`-th `SUB AL, 1`, and the read faults. -/
def Obligations.IntSevenTransmits : Prop :=
  ∀ s : State, s.executing →
    let n := s.regs.get Reg.al
    let addr := fun k => (s.regs.bx + BitVec.ofNat 16 k).toNat
    let sent := fun (k : Nat) (t : State) =>
      t.events.filter Event.isOutput =
        ((List.range k).map fun j => Event.outputChar (s.mem.read (addr j))).reverse ++ s.events.filter Event.isOutput
    ((∀ k, k < n.toNat → addr k ≤ s.params.memMax) →
      ∃ t, exec (.int 7) s = .next t ∧ devicesKept s t ∧
        t.arch = (if n = 0 then s.arch
          else { s.arch with
            regs := ({ s.regs with
              bx := s.regs.bx + n.setWidth 16
              flags := setAluFlags s.regs.flags false true false false } : Regs).set Reg.al 0 }) ∧
        (n ≠ 0 → flagBits t.regs.flags s.regs.flags false true false false) ∧ (s.host = [] → sent n.toNat t)) ∧
    (∀ k, k < n.toNat → (∀ j, j < k → addr j ≤ s.params.memMax) → s.params.memMax < addr k →
      ∃ t, exec (.int 7) s = .next t ∧ devicesKept s t ∧
        (let left := n - BitVec.ofNat 8 k
         t.arch = (if k = 0 then s.arch
          else { s.arch with
            regs := ({ s.regs with
              bx := s.regs.bx + BitVec.ofNat 16 k
              flags := setAluFlags s.regs.flags false false left.msb (decide (left = 0x7F)) } : Regs).set
                Reg.al left }).faulting (.memOutOfRange (addr k)) ∧
         (k ≠ 0 → flagBits t.regs.flags s.regs.flags false false left.msb (decide (left = 0x7F)))) ∧
        (s.host = [] → sent k t))

/-- CLI (48_processor_control.md rule R296, whole): IF becomes 0 and every other bit stays, and the poll of its own cycle takes
nothing. -/
def Obligations.CliCompletes : Prop :=
  ∀ s : State, s.executing →
    ∃ t, exec .cli s = .next t ∧ devicesKept s t ∧
      (∀ j, t.regs.flags.getLsbD j = if j = 9 then false else s.regs.flags.getLsbD j) ∧
      t.arch = s.arch.putFlags t.regs.flags ∧
      (finishCycle t).arch = { t.arch with cycle := .closed } ∧ devicesKept s (finishCycle t)

/-- HLT, STI, NOP (48_processor_control.md rules R295, R297, R298): HLT has outcome halt with reason HLT, no poll follows, and the
end of the cycle halts the engine (40_engine.md rule R130); STI sets IF and no other bit; NOP does nothing. -/
def Obligations.ControlCompletes : Prop :=
  ∀ s : State, s.executing →
    (∃ t, exec .hlt s = .next t ∧ t.arch = s.arch.ending .hlt ∧ devicesKept s t ∧
      (finishCycle t).arch = s.arch.halted .hlt ∧ devicesKept s (finishCycle t)) ∧
    (∃ t, exec .sti s = .next t ∧ devicesKept s t ∧ t.arch = s.arch.putFlags t.regs.flags ∧
      ∀ j, t.regs.flags.getLsbD j = if j = 9 then true else s.regs.flags.getLsbD j) ∧
    exec .nop s = .next s

/-- RET and IRET (49_return.md rules R305, R307): IP popped; for IRET the whole of FLAGS popped after it. -/
def Obligations.ReturnsComplete : Prop :=
  ∀ s : State, s.executing →
    (s.canPop → ∃ t, exec .ret s = .next t ∧ devicesKept s t ∧
      t.arch = { s.arch with
        regs := { s.regs with sp := s.regs.sp + 2, ip := s.mem.load .w16 s.regs.sp.toNat } }) ∧
    (s.regs.sp.toNat + 4 ≤ s.params.memMax + 1 →
      ∃ t, exec .iret s = .next t ∧ devicesKept s t ∧
        t.arch = { s.arch with
          regs := { s.regs with
            sp := s.regs.sp + 4
            ip := s.mem.load .w16 s.regs.sp.toNat
            flags := s.mem.load .w16 (s.regs.sp + 2).toNat } })

/-! ## Faults -/

/-- 41_alu_binary.md rule R180, 42_alu_unary.md rule R200, 43_data_move.md rule R215, 60_exceptions.md rules R331, R332, 20_memory.md
rule R67: an operand read outside memory faults at its first bad byte with nothing changed; a destination whose first byte
cannot be written faults with nothing stored, one whose second byte alone cannot be written with the low byte stored, in both
cases after the ALU has written FLAGS. -/
def Obligations.OperandFaults : Prop :=
  ∀ (w : Width) (o : Operands w) (s : State) (bad : Nat), s.executing →
    (∀ a : Word, placeOf o.dst s.regs = .mem a →
      (bad = a.toNat ∧ s.params.memMax < bad ∨ w = .w16 ∧ a.toNat = s.params.memMax ∧ bad = a.toNat + 1) →
      ∀ i ∈ [Instr.add w o, .adc w o, .sub w o, .sbb w o, .cmp w o, .and w o, .or w o, .xor w o,
          .inc w o.dst, .dec w o.dst, .neg w o.dst, .not w o.dst],
        ∃ t, exec i s = .next t ∧ t.arch = s.arch.faulting (.memOutOfRange bad) ∧ devicesKept s t) ∧
    (∀ m : Mode, o.src = .mem m →
      (bad = (ea m s.regs).toNat ∧ s.params.memMax < bad ∨
        w = .w16 ∧ (ea m s.regs).toNat = s.params.memMax ∧ bad = (ea m s.regs).toNat + 1) →
      ∀ i ∈ [Instr.add w o, .adc w o, .sub w o, .sbb w o, .cmp w o, .and w o, .or w o, .xor w o, .mov w o],
        ∃ t, exec i s = .next t ∧ t.arch = s.arch.faulting (.memOutOfRange bad) ∧ devicesKept s t) ∧
    (∀ (a : Word) (f : Fault), placeOf o.dst s.regs = .mem a → s.sourceReadable o.src →
      let x := s.placeValue (placeOf o.dst s.regs)
      let y := s.sourceValue o.src
      let c := flagCF s.regs.flags
      let low := fun v : BitVec w.bits => s.mem.write a.toNat (v.extractLsb' 0 8)
      let alus := [(Instr.add w o, alu .add x y c), (.adc w o, alu .adc x y c), (.sub w o, alu .sub x y c),
        (.sbb w o, alu .sbb x y c), (.and w o, alu .and x y c), (.or w o, alu .or x y c), (.xor w o, alu .xor x y c),
        (.inc w o.dst, alu .add x 1 c), (.dec w o.dst, alu .sub x 1 c), (.neg w o.dst, alu .sub 0 x c),
        (.not w o.dst, alu .xor x (BitVec.allOnes w.bits) c)]
      (s.byteWriteFault a.toNat = some f →
        (∃ t, exec (.mov w o) s = .next t ∧ t.arch = s.arch.faulting f ∧ devicesKept s t) ∧
        (s.canRead w a.toNat → ∀ i out, (i, out) ∈ alus →
          ∃ t, exec i s = .next t ∧ devicesKept s t ∧
            t.arch = (s.arch.putFlags (setAluFlags s.regs.flags out.cf out.zf out.sf out.of)).faulting f)) ∧
      (w = .w16 → s.byteWriteFault a.toNat = none → s.byteWriteFault (a.toNat + 1) = some f →
        (∃ t, exec (.mov w o) s = .next t ∧ devicesKept s t ∧
          t.arch = ({ s.arch with mem := low y } : Arch).faulting f) ∧
        (s.canRead w a.toNat → ∀ i out, (i, out) ∈ alus →
          ∃ t, exec i s = .next t ∧ devicesKept s t ∧
            t.arch = ({ s.arch.putFlags (setAluFlags s.regs.flags out.cf out.zf out.sf out.of) with
              mem := low out.res } : Arch).faulting f)))

/-- 40_engine.md rules R150, R151, R155, 60_exceptions.md rules R331, R350: a push with SP below 2 and a pop past the high bound fault
with nothing changed; a push whose slot cannot be written faults with SP lowered, the low byte stored if it can be, and CALL's IP
not replaced; the second push of interrupt entry faults with the first done and IF = 0; IRET's second pop faults with IP already
replaced. The entry of a hardware interrupt faults in the same ways, the line already in service, and the engine is halted; the
host of that part acts no more. -/
def Obligations.StackFaults : Prop :=
  (∀ s : State, s.executing →
    (∀ (i : Instr) (v : Word) (y : Arch) (f : Fault), s.pushes i v → s.pushFaults s.arch v y f →
      ∃ t, exec i s = .next t ∧ t.arch = y.faulting f ∧ devicesKept s t) ∧
    (∀ (n : Byte) (y : Arch) (f : Fault), n ≠ 0 → n ≠ 3 → n ≠ 6 → n ≠ 7 →
      s.canPush → s.pushFaults s.arch.halfEntered s.regs.ip y f →
      ∃ t, exec (.int n) s = .next t ∧ t.arch = y.faulting f ∧ devicesKept s t) ∧
    (s.params.memMax + 1 < s.regs.sp.toNat + 2 →
      ∀ i : Instr, ((∃ r, i = .pop r) ∨ i = .popf ∨ i = .ret ∨ i = .iret) →
        ∃ t, exec i s = .next t ∧ t.arch = s.arch.faulting (.stackUnderflow s.regs.sp) ∧ devicesKept s t) ∧
    (s.canPop → s.params.memMax + 1 < (s.regs.sp + 2).toNat + 2 →
      ∃ t, exec .iret s = .next t ∧ devicesKept s t ∧
        t.arch = ({ s.arch with
          regs := { s.regs with sp := s.regs.sp + 2, ip := s.mem.load .w16 s.regs.sp.toNat } } : Arch).faulting
          (.stackUnderflow (s.regs.sp + 2)))) ∧
  ∀ (s : State) (n : Byte) (pic : Pic) (y : Arch) (f : Fault), s.run = .running → s.cycle = .opened → s.host = [] →
    flagIF s.regs.flags = true → s.dev.pic.acknowledge? = some (n, pic) →
    (s.pushFaults s.arch s.regs.flags y f ∨ s.canPush ∧ s.pushFaults s.arch.halfEntered s.regs.ip y f) →
    (finishCycle s).dev = { s.dev with pic := pic } ∧ (finishCycle s).arch = (y.faulting f).halted (.fault f)

/-- 20_memory.md rules R75, R77, R80, R82, 60_exceptions.md rule R321, 46_io.md rules R261, R262: an I/O address above IO_MAX, or
claimed by no module of the configuration, faults; registers and memory stay, and of a word OUT whose second byte faults the first
write stays. An address is claimed by the register IO_MAP gives it if the configuration holds that register's module; the last
clause is the default IO_MAP, register by register. -/
def Obligations.IoFaults : Prop :=
  (∀ (p : Port) (s : State) (bad : Nat) (f : Fault), s.executing →
    (s.params.ioMax < bad ∧ f = .ioOutOfRange bad ∨
      bad ≤ s.params.ioMax ∧ chipSelect s.params bad = none ∧ f = .ioUnclaimed bad) →
    (bad = (portAddress p s.regs).toNat →
      ∀ w, ∀ i ∈ [Instr.inp w p, .outp w p],
        ∃ t, exec i s = .next t ∧ t.arch = s.arch.faulting f ∧ devicesKept s t) ∧
    (∀ r, bad = (portAddress p s.regs + 1).toNat → (portAddress p s.regs).toNat ≤ s.params.ioMax →
      chipSelect s.params (portAddress p s.regs).toNat = some r →
      (∃ t, exec (.inp .w16 p) s = .next t ∧ devicesKept s t ∧
        t.arch = ({ s.arch with draws := s.draws + drawsOf r } : Arch).faulting f) ∧
      ∃ t, exec (.outp .w16 p) s = .next t ∧ t.arch = s.arch.faulting f ∧
        t.dev.settings = (s.dev.write s.params.config r (s.regs.get Reg.al)).1.settings ∧
        (s.host = [] → t.dev = (s.dev.write s.params.config r (s.regs.get Reg.al)).1))) ∧
  (∀ (p : Params) (a : Nat) (r : IoReg), chipSelect p a = some r ↔
    p.ioMap.lookup a = some r ∧
      (r.module = .pic ∨ r.module = .timer ∨
        r.module = .pio ∧ (p.config = .pioSwitchesLeds ∨ p.config = .pioPrinter) ∨
        r.module = .handshake ∧ p.config = .handshakePrinter)) ∧
  ∀ (c : Configuration) (a : Nat) (r : IoReg), chipSelect (Config.params c) a = some r ↔
    (a, r) ∈ [(0x20, IoReg.eoi), (0x21, .imr), (0x22, .irr), (0x23, .isr), (0x24, .vec 0), (0x25, .vec 1), (0x26, .vec 2),
      (0x27, .vec 3), (0x28, .vec 4), (0x29, .vec 5), (0x2A, .vec 6), (0x2B, .vec 7), (0x10, .cont), (0x11, .comp)] ∨
    (c = .pioSwitchesLeds ∨ c = .pioPrinter) ∧ (a, r) ∈ [(0x30, IoReg.pa), (0x31, .pb), (0x32, .ca), (0x33, .cb)] ∨
    c = .handshakePrinter ∧ (a, r) ∈ [(0x40, IoReg.data), (0x41, .state)]

/-- 40_engine.md rule R131, whole: no descriptor at IP; the fault is recorded and the engine halted, the cycle closed. The devices
and the host's turns are the host's to move. -/
def Obligations.NoInstructionFaults : Prop :=
  ∀ s : State, s.ready → s.program.reject? s.params.memMax = none → s.index s.regs.ip = none →
    ∃ t, step s = .next t ∧
      t.arch = { s.arch with
        run := .halted (.fault (.noInstruction s.regs.ip)), faultRecord := some (.noInstruction s.regs.ip) } ∧ t.latches = s.latches ∧
      devicesKept s t ∧
      (s.host = [] → t.events = .cycleEnd .halt :: .fault (.noInstruction s.regs.ip) :: .cycleStart s.regs.ip :: s.events)

/-! ## Frames: what an instruction leaves unchanged on every path, faults included -/

/-- ADD, ADC, SUB, SBB, CMP, AND, OR, XOR, INC, DEC, NEG, NOT with a register destination (41_alu_binary.md rule R180,
42_alu_unary.md rule R200, 10_state.md rules R21, R31): no register but the destination, of FLAGS no bit but CF, ZF, SF, OF, no
byte of memory. -/
def Obligations.AluRegisterFrame : Prop :=
  ∀ (w : Width) (o : Operands w) (r : Reg w) (s t : State), s.executing → o.dst = .reg r →
    ∀ i ∈ [Instr.add w o, .adc w o, .sub w o, .sbb w o, .cmp w o, .and w o, .or w o, .xor w o,
        .inc w (.reg r), .dec w (.reg r), .neg w (.reg r), .not w (.reg r)],
      exec i s = .next t →
      (∃ v f, t.regs = { s.regs.set r v with flags := f } ∧
        ∀ j, j ≠ 0 → j ≠ 6 → j ≠ 7 → j ≠ 11 → f.getLsbD j = s.regs.flags.getLsbD j) ∧
      (∀ b, t.mem.read b = s.mem.read b) ∧
      t.program = s.program ∧ t.params = s.params ∧ t.draws = s.draws ∧ s.arch.goesOnOrFaults t.arch ∧ devicesKept s t ∧
      (i = .cmp w o → ∃ f, t.regs = { s.regs with flags := f })

/-- The same with a memory destination: no register but FLAGS, and no byte of memory outside the operand's bytes; CMP changes
no byte at all. -/
def Obligations.AluMemoryFrame : Prop :=
  ∀ (w : Width) (o : Operands w) (m : Mode) (s t : State), s.executing → o.dst = .mem m →
    ∀ i ∈ [Instr.add w o, .adc w o, .sub w o, .sbb w o, .cmp w o, .and w o, .or w o, .xor w o,
        .inc w (.mem m), .dec w (.mem m), .neg w (.mem m), .not w (.mem m)],
      exec i s = .next t →
      (∃ f, t.regs = { s.regs with flags := f } ∧
        ∀ j, j ≠ 0 → j ≠ 6 → j ≠ 7 → j ≠ 11 → f.getLsbD j = s.regs.flags.getLsbD j) ∧
      (∀ b, ¬ within w (ea m s.regs).toNat b → t.mem.read b = s.mem.read b) ∧
      t.program = s.program ∧ t.params = s.params ∧ t.draws = s.draws ∧ s.arch.goesOnOrFaults t.arch ∧ devicesKept s t ∧
      (i = .cmp w o → ∀ b, t.mem.read b = s.mem.read b)

/-- MOV (43_data_move.md rule R215): FLAGS stay; only the destination register, or the destination's bytes, may change. -/
def Obligations.MovFrame : Prop :=
  ∀ (w : Width) (o : Operands w) (s t : State), s.executing → exec (.mov w o) s = .next t →
    (∀ r, o.dst = .reg r → (∃ v, t.regs = s.regs.set r v) ∧ ∀ b, t.mem.read b = s.mem.read b) ∧
    (∀ m, o.dst = .mem m → t.regs = s.regs ∧
      ∀ b, ¬ within w (ea m s.regs).toNat b → t.mem.read b = s.mem.read b) ∧
    t.program = s.program ∧ t.params = s.params ∧ t.draws = s.draws ∧ s.arch.goesOnOrFaults t.arch ∧ devicesKept s t

/-- PUSH, PUSHF, CALL, POP, POPF, RET, IRET (45_stack.md rule R245, 44_jump_call.md rule R235, 49_return.md rules R305, R307):
registers but SP and the one named, and memory outside the pushed slot. -/
def Obligations.StackFrame : Prop :=
  ∀ (s t : State), s.executing →
    (∀ i : Instr, ((∃ r, i = .push r) ∨ i = .pushf ∨ ∃ a, i = .call a) → exec i s = .next t →
      (∃ sp ip, t.regs = { s.regs with sp := sp, ip := ip } ∧ ((∀ a, i ≠ .call a) → ip = s.regs.ip)) ∧
      (∀ b, ¬ within .w16 (s.regs.sp - 2).toNat b → t.mem.read b = s.mem.read b) ∧
      t.program = s.program ∧ t.params = s.params ∧ t.draws = s.draws ∧ s.arch.goesOnOrFaults t.arch ∧ devicesKept s t) ∧
    (∀ i : Instr, ((∃ r, i = .pop r) ∨ i = .popf ∨ i = .ret ∨ i = .iret) → exec i s = .next t →
      (∃ sp ip f, (∀ r, i = .pop r → ∃ v, t.regs = ({ s.regs with sp := sp } : Regs).set r v) ∧
        ((∀ r, i ≠ .pop r) → t.regs = { s.regs with sp := sp, ip := ip, flags := f }) ∧
        (i = .popf → ip = s.regs.ip) ∧ (i = .ret → f = s.regs.flags)) ∧
      (∀ b, t.mem.read b = s.mem.read b) ∧
      t.program = s.program ∧ t.params = s.params ∧ t.draws = s.draws ∧ s.arch.goesOnOrFaults t.arch ∧ devicesKept s t)

/-- INT (47_software_interrupt.md rules R276, R282, R284, R287): the generic path changes SP, IP and IF alone of the registers
and the two slots below SP alone of memory; INT 7 changes BX, AL and the four ALU flags alone; INT 3 and INT 6 change no
register and, until the byte arrives, no memory. -/
def Obligations.IntFrame : Prop :=
  ∀ (n : Byte) (s t : State), s.executing → exec (.int n) s = .next t →
    (n ≠ 0 → n ≠ 3 → n ≠ 6 → n ≠ 7 →
      (∃ sp ip f, t.regs = { s.regs with sp := sp, ip := ip, flags := f } ∧
        ∀ j, j ≠ 9 → f.getLsbD j = s.regs.flags.getLsbD j) ∧
      ∀ b, ¬ within .w16 (s.regs.sp - 2).toNat b → ¬ within .w16 (s.regs.sp - 4).toNat b →
        t.mem.read b = s.mem.read b) ∧
    (n = 7 →
      (∃ bx al f, t.regs = ({ s.regs with bx := bx, flags := f } : Regs).set Reg.al al ∧
        ∀ j, j ≠ 0 → j ≠ 6 → j ≠ 7 → j ≠ 11 → f.getLsbD j = s.regs.flags.getLsbD j) ∧
      ∀ b, t.mem.read b = s.mem.read b) ∧
    ((n = 0 ∨ n = 3 ∨ n = 6) → t.regs = s.regs ∧ ∀ b, t.mem.read b = s.mem.read b) ∧
    (n ≠ 0 → n ≠ 3 → n ≠ 6 → s.arch.goesOnOrFaults t.arch) ∧
    (n = 0 → t.run = s.run ∧ t.cycle = .ending .int0) ∧ (n = 3 → t.run = s.run) ∧ (n = 6 → t.cycle = s.cycle) ∧
    ((n = 0 ∨ n = 3 ∨ n = 6) → t.faultRecord = s.faultRecord) ∧
    t.program = s.program ∧ t.params = s.params ∧ t.draws = s.draws ∧ devicesKept s t

/-- IN and OUT (46_io.md rules R261, R262): IN changes AL or AX alone and no device; OUT changes no register; neither changes
memory. -/
def Obligations.IoFrame : Prop :=
  ∀ (w : Width) (p : Port) (s t : State), s.executing →
    (exec (.inp w p) s = .next t →
      (∃ v, t.regs = s.regs.set (dataReg w) v) ∧ (∀ b, t.mem.read b = s.mem.read b) ∧
      t.program = s.program ∧ t.params = s.params ∧ s.arch.goesOnOrFaults t.arch ∧ devicesKept s t) ∧
    (exec (.outp w p) s = .next t →
      t.regs = s.regs ∧ (∀ b, t.mem.read b = s.mem.read b) ∧
      t.program = s.program ∧ t.params = s.params ∧ t.draws = s.draws ∧ s.arch.goesOnOrFaults t.arch)

/-! ## Decoding and the cycle -/

/-- 30_encoding.md rules R100, R110: the decoder reads every instruction back from its encoding, every operand at every value. -/
def Obligations.DecodeEncode : Prop := ∀ i : Instr, decodeCode (encodeCode i) = .ok i

/-- 30_encoding.md rules R103, R110, R111: the decoder accepts nothing but an instruction's encoding; a stack instruction's
width may be left out (log 1). -/
def Obligations.DecodeOnlyEncodings : Prop :=
  ∀ (c : Code) (i : Instr), decodeCode c = .ok i →
    c = encodeCode i ∨ (c.family = .stack ∧ c.w = none ∧ { c with w := some .w16 } = encodeCode i)

/-- The MODEL'S OWN byte form (log 2) numbers the instructions without loss, whatever bytes follow. -/
def Obligations.ByteFormRoundTrip : Prop :=
  ∀ (i : Instr) (rest : List Byte), decodeBytes (encodeBytes i ++ rest) = .ok (i, rest)

/-- 30_encoding.md rules R101, R110, 95_test_vectors.md W8, W9, M4, INT-1, J1: descriptors written out from the spec decode to
the instruction they stand for. -/
def Obligations.DescriptorsDecode : Prop :=
  decodeCode ⟨.dataMove, .mov, some .w16, [.reg16 .ax, .imm 5]⟩ = .ok (.mov .w16 (.ri .ax 5)) ∧
  decodeCode ⟨.dataMove, .mov, some .w8, [.reg8 .al, .mem (.indirect (some 0xFFFF))]⟩ =
    .ok (.mov .w8 (.rm .al (.indirect (some 0xFFFF)))) ∧
  decodeCode ⟨.io, .outp, some .w8, [.port (.imm 0x50), .reg8 .al]⟩ = .ok (.outp .w8 (.imm 0x50)) ∧
  decodeCode ⟨.softwareInterrupt, .int, none, [.intNum 0x10]⟩ = .ok (.int 0x10) ∧
  decodeCode ⟨.jumpCall, .call, none, [.target 0x3000]⟩ = .ok (.call 0x3000) ∧
  decodeCode ⟨.processorControl, .hlt, none, []⟩ = .ok .hlt

/-- 40_engine.md rules R130, R131, R132, R140: where the descriptor at IP decodes, the step opens the cycle, fetches, executes
exactly that instruction with IP after it, and finishes the cycle. -/
def Obligations.StepRunsDecoded : Prop :=
  ∀ (s : State) (d : Descriptor) (i : Instr), s.ready → s.program.reject? s.params.memMax = none →
    s.index s.regs.ip = some d → decodeCode d.code = .ok i →
    ∃ u, step s = finishOutcome (exec i u) ∧ u.executing ∧ devicesKept s u ∧
      u.arch = { s.arch with
        cycle := .opened, regs := { s.regs with ip := d.addr + BitVec.ofNat 16 d.len } }

/-- 30_encoding.md rule R103: a Program that breaks a check is refused, not executed. That the check is made at every cycle, and
that it also covers byte counts, jump lengths and the addresses of data literals, is the model's own choice (log 24, DESIGN CHOICE). -/
def Obligations.UnadmittedProgramRefused : Prop :=
  ∀ (s : State) (r : Reject), s.run = .running → s.cycle = .closed → s.program.reject? s.params.memMax = some r →
    step s = .refused (.notAdmitted r)

/-- 40_engine.md rules R130, R134: a step that closes a cycle has emitted `cycle-end` with its outcome, a faulting cycle included,
as the last event of the engine. `u` is the state at that event: after it the host takes its turn, and on outcome halt the
engine halts. `h` is what the host's turn reports: events of the modules alone, none if the host acts no more. -/
def Obligations.EveryCycleEnds : Prop :=
  ∀ s t : State, s.undisturbed = true → (s.cycle ≠ .closed ∨ s.run = .running) → step s = .next t → t.cycle = .closed →
    ∃ u m h, u.events = .cycleEnd (outcomeOf t.run) :: (m ++ s.events) ∧ t = (hostTurn u).enterHalt ∧
      t.events = h ++ u.events ∧ (∀ e ∈ h, e.ofModule = true) ∧ (s.host = [] → h = [])

/-! ## Interrupts -/

/-- 60_exceptions.md rule R345, whole: `acknowledge()` takes the lowest pending unmasked line, moves it from IRR to ISR, returns
its vector number, and leaves INTR at 0; with a line in service nothing is acknowledged. -/
def Obligations.AcknowledgeTakesLowest : Prop :=
  (∀ p : Pic, p.isr ≠ 0 → p.intr = false) ∧
  (∀ p : Pic, p.intr = false → p.acknowledge? = none) ∧
  ∀ p : Pic, p.intr = true →
    ∃ (k : Fin 8) (q : Pic), p.acknowledge? = some (p.vec[k], q) ∧
      p.irr.getLsbD k = true ∧ p.imr.getLsbD k = false ∧
      (∀ j : Fin 8, j < k → p.irr.getLsbD j = false ∨ p.imr.getLsbD j = true) ∧
      (∀ j : Fin 8, q.irr.getLsbD j = if j = k then false else p.irr.getLsbD j) ∧
      (∀ j : Fin 8, q.isr.getLsbD j = decide (j = k)) ∧
      q.imr = p.imr ∧ q.vec = p.vec ∧ q.intr = false

/-- 60_exceptions.md rules R341, R343, R344, R347: a request is latched, masked or not; while a line is in service INTR stays 0;
the EOI write, whatever its value, clears ISR alone and lets the pending unmasked requests assert INTR. A write of IMR or of a
vector register sets that register alone, a write of IRR or ISR nothing, and a read gives the named register. -/
def Obligations.NoNesting : Prop :=
  ∀ (d : Devices) (c : Configuration) (k : Fin 8) (v : Byte) (n : Nat),
    let d' := (requestLine k d).1
    (∀ j : Fin 8, d'.pic.irr.getLsbD j = (decide (j = k) || d.pic.irr.getLsbD j)) ∧
    { d' with pic := { d'.pic with irr := d.pic.irr } } = d ∧
    (d.pic.isr ≠ 0 → d'.pic.intr = false) ∧
    (d.pic.isr = 0 → d.pic.imr.getLsbD k = false → d'.pic.intr = true) ∧
    (let e := (d'.write c .eoi v).1
     e = { d' with pic := { d'.pic with isr := 0 } } ∧ (d.pic.imr.getLsbD k = false → e.pic.intr = true)) ∧
    (d.write c .imr v).1 = { d with pic := { d.pic with imr := v } } ∧
    ((d.write c .imr v).1.pic.intr = true ↔ d.pic.isr = 0 ∧ ∃ j : Fin 8, d.pic.irr.getLsbD j = true ∧ v.getLsbD j = false) ∧
    (let e := (d.write c (.vec k) v).1
     e = { d with pic := { d.pic with vec := e.pic.vec } } ∧
      ∀ j : Fin 8, e.pic.vec[j] = if j = k then v else d.pic.vec[j]) ∧
    (d.write c .irr v).1 = d ∧ (d.write c .isr v).1 = d ∧
    d.read n .imr = d.pic.imr ∧ d.read n .irr = d.pic.irr ∧ d.read n .isr = d.pic.isr ∧ d.read n (.vec k) = d.pic.vec[k]

/-- 60_exceptions.md rules R350, R351, R352, 40_engine.md rules R133, R155: with IF = 1 and INTR = 1 at the end of an
instruction the acknowledged line's vector is entered, whatever its number; the host acts no more. -/
def Obligations.InterruptTaken : Prop :=
  ∀ (s : State) (n : Byte) (pic : Pic), s.run = .running → s.cycle = .opened → s.host = [] →
    flagIF s.regs.flags = true → s.dev.pic.acknowledge? = some (n, pic) →
    4 ≤ s.regs.sp.toNat → s.canWrite .w16 (s.regs.sp - 2).toNat → s.canWrite .w16 (s.regs.sp - 4).toNat →
    s.canRead .w16 (4 * n.toNat) →
    (finishCycle s).dev = { s.dev with pic := pic } ∧
      (let m := (s.mem.store .w16 (s.regs.sp - 2).toNat s.regs.flags).store .w16 (s.regs.sp - 4).toNat s.regs.ip
       (finishCycle s).arch = { s.arch with
        cycle := .closed
        regs := { s.regs with
          sp := s.regs.sp - 4, flags := setIF s.regs.flags false, ip := m.load .w16 (4 * n.toNat) }
        mem := m })

/-- 40_engine.md rules R130, R133, 60_exceptions.md rule R333: with IF = 0 or INTR = 0 no interrupt is taken and the cycle only
closes; with outcome halt none is taken, the cycle closes and the engine is halted for the reason. -/
def Obligations.InterruptNotTaken : Prop :=
  ∀ s : State, s.undisturbed = true →
    (s.cycle = .opened → s.run = .running → flagIF s.regs.flags = false ∨ s.dev.pic.intr = false →
      (finishCycle s).arch = { s.arch with cycle := .closed } ∧ devicesKept s (finishCycle s)) ∧
    (∀ why, s.cycle = .ending why →
      (finishCycle s).arch = s.arch.halted why ∧ devicesKept s (finishCycle s))

/-! ## The peripherals -/

/-- 60_exceptions.md rule R361: a tick of the host adds one to CONT modulo 256, on the whole machine; COMP and everything outside
the devices stay. -/
def Obligations.TickCounts : Prop :=
  ∀ s : State, (applyAction .tick s).dev.timer.cont.toNat = (s.dev.timer.cont.toNat + 1) % 256 ∧
    (applyAction .tick s).dev.timer.comp = s.dev.timer.comp ∧ (applyAction .tick s).arch = s.arch

/-- 60_exceptions.md rules R360, R362: a tick requests line 1 exactly when CONT has reached COMP; a write of CONT or COMP sets that
register and requests nothing; a read gives the named register. -/
def Obligations.TimerRequestsOnMatch : Prop :=
  ∀ (d : Devices) (c : Configuration) (v : Byte) (n : Nat),
    let d' := (tickTimer d).1
    (d.timer.cont + 1 = d.timer.comp → d'.pic = { d.pic with irr := d.pic.irr ||| 0x02 }) ∧
    (d.timer.cont + 1 ≠ d.timer.comp → d'.pic = d.pic) ∧
    d'.pio = d.pio ∧ d'.hs = d.hs ∧
    (d.write c .cont v).1 = { d with timer := { d.timer with cont := v } } ∧
    (d.write c .comp v).1 = { d with timer := { d.timer with comp := v } } ∧
    d.read n .cont = d.timer.cont ∧ d.read n .comp = d.timer.comp

/-- 60_exceptions.md rules R366, R367, R369, R370, 95_test_vectors.md W7: after a write of PA an input bit shows the external line
and an output bit the written value; a write of CA sets CA, and the bits made input show the lines while the others stay; likewise
port B; a move of the switches, or of PioPrinter's busy line, moves input bits of PA alone; each touches nothing else, and a
read gives the named register. In PioPrinter the printer receives PB exactly when the output bit PA[1] rises. That a write of CA
too can be that rise is DEDUCED (log 21). -/
def Obligations.PortBits : Prop :=
  ∀ (d : Devices) (c : Configuration) (v : Byte) (k : Fin 8) (b : Bool) (n : Nat),
    (let e := (d.write c .pa v).1
     e = { d with pio := { d.pio with pa := e.pio.pa } } ∧
      e.pio.pa.getLsbD k = if d.pio.ca.getLsbD k then d.pio.extA.getLsbD k else v.getLsbD k) ∧
    (let e := (d.write c .ca v).1
     e = { d with pio := { d.pio with ca := v, pa := e.pio.pa } } ∧
      e.pio.pa.getLsbD k = if v.getLsbD k then d.pio.extA.getLsbD k else d.pio.pa.getLsbD k) ∧
    (let e := (d.write c .pb v).1
     e = { d with pio := { d.pio with pb := e.pio.pb } } ∧
      e.pio.pb.getLsbD k = if d.pio.cb.getLsbD k then d.pio.extB.getLsbD k else v.getLsbD k) ∧
    (let e := (d.write c .cb v).1
     e = { d with pio := { d.pio with cb := v, pb := e.pio.pb } } ∧
      e.pio.pb.getLsbD k = if v.getLsbD k then d.pio.extB.getLsbD k else d.pio.pb.getLsbD k) ∧
    (let e := (moveSwitches .pioSwitchesLeds v d).1
     e = { d with pio := { d.pio with extA := v, pa := e.pio.pa } } ∧
      e.pio.pa.getLsbD k = if d.pio.ca.getLsbD k then v.getLsbD k else d.pio.pa.getLsbD k) ∧
    (let e := (driveBusy .pioPrinter b d).1
     e = { d with pio := { d.pio with extA := if b then 0x01 else 0x00, pa := e.pio.pa } } ∧
      e.pio.pa.getLsbD k = if d.pio.ca.getLsbD k then decide (k = 0) && b else d.pio.pa.getLsbD k) ∧
    ((d.write c .pa v).2.filter Event.isStrobe =
      if c = .pioPrinter ∧ d.pio.ca.getLsbD 1 = false ∧ d.pio.pa.getLsbD 1 = false ∧ v.getLsbD 1 = true then
        [.printerStrobe d.pio.pb] else []) ∧
    ((d.write c .ca v).2.filter Event.isStrobe =
      if c = .pioPrinter ∧ d.pio.ca.getLsbD 1 = true ∧ d.pio.pa.getLsbD 1 = true ∧ v.getLsbD 1 = false then
        [.printerStrobe d.pio.pb] else []) ∧
    (d.write c .pb v).2.filter Event.isStrobe = [] ∧ (d.write c .cb v).2.filter Event.isStrobe = [] ∧
    (driveBusy .pioPrinter b d).2.filter Event.isStrobe = [] ∧
    d.read n .pa = d.pio.pa ∧ d.read n .pb = d.pio.pb ∧ d.read n .ca = d.pio.ca ∧ d.read n .cb = d.pio.cb

/-- 60_exceptions.md rule R376: DATA takes the byte, the printer receives it, and a read returns it. That the write also reports
a `periph` event, and before the strobe, is the model's own choice (log 22, DESIGN CHOICE). -/
def Obligations.DataWriteStrobes : Prop :=
  ∀ (d : Devices) (c : Configuration) (v : Byte) (n : Nat),
    (d.write c .data v).1 = { d with hs := { d.hs with data := v } } ∧
    (d.write c .data v).2 = [.periph .data v, .printerStrobe v] ∧
    (d.write c .data v).1.read n .data = v

/-- 60_exceptions.md rules R375, R377, R378: STATE reads as IE and busy alone; a write takes bit 7 as IE, pulses the strobe on
bit 1 and ignores the rest; the printer going free requests line 2 exactly when it was busy and IE = 1. -/
def Obligations.HandshakeState : Prop :=
  ∀ (d : Devices) (c : Configuration) (v : Byte) (n : Nat) (b : Bool),
    (∀ k : Fin 8, (d.read n .state).getLsbD k =
      if k = 7 then d.hs.ie else if k = 0 then d.hs.busy else false) ∧
    (d.write c .state v).1 = { d with hs := { d.hs with ie := v.getLsbD 7 } } ∧
    (.printerStrobe d.hs.data ∈ (d.write c .state v).2 ↔ v.getLsbD 1 = true) ∧
    (let e := (driveBusy .handshakePrinter b d).1
     e.hs = { d.hs with busy := b } ∧ e.timer = d.timer ∧ e.pio = d.pio ∧
     e.pic = if d.hs.busy = true ∧ b = false ∧ d.hs.ie = true then { d.pic with irr := d.pic.irr ||| 0x04 } else d.pic)

/-! ## Reset -/

/-- 10_state.md rule R55, 70_reset_and_hazards.md rules R400, R401, R402, for the values the spec states. A halted engine runs
again only by this. That PA, PB and busy are those of the external lines before the reset, under every policy, is the model's
own choice: a reset keeps the lines (log 20, DESIGN CHOICE; decision D35 only suggests carrying them under `unchanged`). -/
def Obligations.ResetDefaults : Prop :=
  (∀ (s : State) (p : Program) (policy : Policy) (ts : List HostTurn), (∃ why, s.run = .halted why) →
    s.host = [.reset p policy] :: ts → step s = .next (resetState p policy { s with host := ts })) ∧
  ∀ (s : State) (p : Program) (policy : Policy),
    let t := resetState p policy s
    t.regs =
      { ax := 0, bx := 0, cx := 0, dx := 0, flags := 0
        sp := BitVec.ofNat 16 (s.params.memMax + 1), ip := s.params.resetIp } ∧
    t.run = .running ∧ t.faultRecord = none ∧ t.events = [] ∧ t.program = p ∧ t.params = s.params ∧
    (s.params.carries = [] ∨ policy ≠ .unchanged →
      t.dev.timer = { cont := 0, comp := 0 } ∧ t.dev.pio.ca = 0xFF ∧ t.dev.pio.cb = 0xFF ∧
      t.dev.pio.pa = s.dev.pio.extA ∧ t.dev.pio.pb = s.dev.pio.extB ∧ t.dev.hs.data = 0 ∧ t.dev.hs.ie = false ∧
      t.dev.hs.busy = s.dev.hs.busy)

/-- 60_exceptions.md rule R348, whole: the PIC's registers return to their defaults whatever the policy and whatever the
configuration carries. -/
def Obligations.PicResetIgnoresPolicy : Prop :=
  ∀ (s : State) (p : Program) (policy : Policy),
    (resetState p policy s).dev.pic = { imr := 0xFF, irr := 0x00, isr := 0x00, vec := s.params.vecReset }

/-- 10_state.md rule R55, 70_reset_and_hazards.md rules R400, R403, 30_encoding.md rule R102: a byte outside the Program holds what
the policy gives, under `randomize` a free draw; a byte of an instruction holds the Program's; a literal of a data block that
no instruction covers, nor a literal of a later block of the list (log 24, the model's choice), stands at its address. -/
def Obligations.ResetMemory : Prop :=
  ∀ (s : State) (p : Program) (policy : Policy), s.mem.wf = true → p.reject? s.params.memMax = none →
    (∀ a, (∀ d ∈ p.descriptors, d.covers a = false) →
      (∀ b ∈ p.data, ∀ k v, b.bytes[k]? = some (some v) → b.addr + k ≠ a) →
      (resetState p policy s).mem.read a =
        match policy with
        | .unchanged => s.mem.read a
        | .clean => 0x00
        | .randomize => Config.freeFill s.draws a) ∧
    (∀ d ∈ p.descriptors, ∀ k v, d.bytes[k]? = some v → (resetState p policy s).mem.read (d.addr.toNat + k) = v) ∧
    (∀ before b later, p.data = before ++ b :: later → ∀ k v, b.bytes[k]? = some (some v) →
      (∀ d ∈ p.descriptors, d.covers (b.addr + k) = false) →
      (∀ b' ∈ later, ∀ k' v', b'.bytes[k']? = some (some v') → b'.addr + k' ≠ b.addr + k) →
      (resetState p policy s).mem.read (b.addr + k) = v)

/-! ## Invariants of every step -/

/-- 10_state.md rule R40, 60_exceptions.md rule R320: every step, a reset in it included, keeps memory in its canonical form
and within `[0, MEM_MAX]`, and the parameters as they are. -/
def Obligations.StepKeepsMemory : Prop :=
  ∀ s t : State, s.mem.wf = true ∧ s.memoryBounded → step s = .next t →
    t.mem.wf = true ∧ t.memoryBounded ∧ t.params = s.params

/-- 60_exceptions.md rule R346: every step keeps at most one line in service. -/
def Obligations.StepKeepsOneInService : Prop :=
  ∀ s t : State, s.dev.pic.oneInService → step s = .next t → t.dev.pic.oneInService

/-- 60_exceptions.md rules R366, R367: every step keeps each port's input bits equal to the external lines. For a step in which the
host resets the machine this rests on the model's own choice (log 20, DESIGN CHOICE): a reset keeps the lines and recomputes PA and
PB under every policy, a PA or PB that an `unchanged` reset carries without CA or CB too. -/
def Obligations.StepKeepsPortsFollowing : Prop :=
  ∀ s t : State, s.dev.pio.followsLines → step s = .next t → t.dev.pio.followsLines

/-- 20_memory.md rule R93, 10_state.md rules R41, R42, 60_exceptions.md rule R320: without a reset no step changes the Program,
a byte of code, the parameters or the configuration. -/
def Obligations.StepKeepsCode : Prop :=
  ∀ s t : State, s.noReset = true → step s = .next t →
    t.noReset = true ∧ t.program = s.program ∧ t.params = s.params ∧
      ∀ a, s.reserved a = true → t.mem.read a = s.mem.read a

/-- 40_engine.md rule R135, 60_exceptions.md rule R381: without a reset a halted engine stays halted, the fault record,
registers, latches, memory and Program intact. -/
def Obligations.HaltedStaysHalted : Prop :=
  ∀ (s : State) (why : HaltReason), s.run = .halted why → s.noReset = true →
    ∃ t, step s = .next t ∧ t.run = .halted why ∧ t.faultRecord = s.faultRecord ∧ t.regs = s.regs ∧ t.latches = s.latches ∧ t.mem = s.mem ∧
      t.program = s.program ∧ t.params = s.params ∧ t.noReset = true

/-- The state after reset meets the invariants, and is what `reset(program, clean)` of the empty Program leaves (log 17, log 18,
log 19, log 20: the configuration, the policy, the parameter defaults, VEC and the external lines are the model's choices). That no
turn of the host is to come and that the cycle is closed, on which `noReset` and `ready` rest, are the model's own choices too
(log 6, log 9, DESIGN CHOICE). -/
def Obligations.ResetMeetsInvariants : Prop :=
  State.reset.params.wf = true ∧ State.reset.mem.wf = true ∧ State.reset.memoryBounded ∧ State.reset.dev.pic.oneInService ∧
    State.reset.dev.pio.followsLines ∧ State.reset.noReset = true ∧ State.reset.ready ∧
    resetState { descriptors := [], data := [] } .clean State.reset = State.reset

end
end

