-- ==== Sys2Proof/Laws/State.lean ====
section
/-! SUPPORT. The fields of a state after each named update. -/

namespace Sys2Proof.Machine

/-! ## Reporting events -/

@[simp] theorem State.log_regs (s : State) (es : List Event) : (s.log es).regs = s.regs := rfl
@[simp] theorem State.log_latches (s : State) (es : List Event) : (s.log es).latches = s.latches := rfl
@[simp] theorem State.log_mem (s : State) (es : List Event) : (s.log es).mem = s.mem := rfl
@[simp] theorem State.log_program (s : State) (es : List Event) : (s.log es).program = s.program := rfl
@[simp] theorem State.log_params (s : State) (es : List Event) : (s.log es).params = s.params := rfl
@[simp] theorem State.log_dev (s : State) (es : List Event) : (s.log es).dev = s.dev := rfl
@[simp] theorem State.log_run (s : State) (es : List Event) : (s.log es).run = s.run := rfl
@[simp] theorem State.log_faultRecord (s : State) (es : List Event) : (s.log es).faultRecord = s.faultRecord := rfl
@[simp] theorem State.log_cycle (s : State) (es : List Event) : (s.log es).cycle = s.cycle := rfl
@[simp] theorem State.log_host (s : State) (es : List Event) : (s.log es).host = s.host := rfl
@[simp] theorem State.log_draws (s : State) (es : List Event) : (s.log es).draws = s.draws := rfl
@[simp] theorem State.log_arch (s : State) (es : List Event) : (s.log es).arch = s.arch := rfl
@[simp] theorem State.log_undisturbed (s : State) (es : List Event) : (s.log es).undisturbed = s.undisturbed := rfl

/-! ## Replacing the devices -/

@[simp] theorem State.device_regs (s : State) (r : Devices × List Event) : (s.device r).regs = s.regs := rfl
@[simp] theorem State.device_latches (s : State) (r : Devices × List Event) : (s.device r).latches = s.latches := rfl
@[simp] theorem State.device_mem (s : State) (r : Devices × List Event) : (s.device r).mem = s.mem := rfl
@[simp] theorem State.device_program (s : State) (r : Devices × List Event) : (s.device r).program = s.program := rfl
@[simp] theorem State.device_params (s : State) (r : Devices × List Event) : (s.device r).params = s.params := rfl
@[simp] theorem State.device_dev (s : State) (r : Devices × List Event) : (s.device r).dev = r.1 := rfl
@[simp] theorem State.device_run (s : State) (r : Devices × List Event) : (s.device r).run = s.run := rfl
@[simp] theorem State.device_faultRecord (s : State) (r : Devices × List Event) :
    (s.device r).faultRecord = s.faultRecord := rfl
@[simp] theorem State.device_cycle (s : State) (r : Devices × List Event) : (s.device r).cycle = s.cycle := rfl
@[simp] theorem State.device_host (s : State) (r : Devices × List Event) : (s.device r).host = s.host := rfl
@[simp] theorem State.device_draws (s : State) (r : Devices × List Event) : (s.device r).draws = s.draws := rfl
@[simp] theorem State.device_arch (s : State) (r : Devices × List Event) : (s.device r).arch = s.arch := rfl
@[simp] theorem State.device_undisturbed (s : State) (r : Devices × List Event) :
    (s.device r).undisturbed = s.undisturbed := rfl

/-! ## The architectural part -/

@[simp] theorem State.arch_regs (s : State) : s.arch.regs = s.regs := rfl
@[simp] theorem State.arch_mem (s : State) : s.arch.mem = s.mem := rfl
@[simp] theorem State.arch_program (s : State) : s.arch.program = s.program := rfl
@[simp] theorem State.arch_params (s : State) : s.arch.params = s.params := rfl
@[simp] theorem State.arch_run (s : State) : s.arch.run = s.run := rfl
@[simp] theorem State.arch_faultRecord (s : State) : s.arch.faultRecord = s.faultRecord := rfl
@[simp] theorem State.arch_cycle (s : State) : s.arch.cycle = s.cycle := rfl
@[simp] theorem State.arch_draws (s : State) : s.arch.draws = s.draws := rfl

/-- Reserved is read from the Program, so states with one architectural part agree on it. -/
theorem State.reserved_of_arch {s t : State} (h : t.arch = s.arch) (a : Nat) : t.reserved a = s.reserved a := by
  have hp : t.program = s.program := congrArg Arch.program h
  simp [State.reserved, hp]

/-! ## The end of a cycle -/

theorem State.announceEnd_opened {s : State} (h : s.cycle = .opened) :
    s.announceEnd = ({ s with cycle := .closed } : State).log [.cycleEnd .continue] := by simp [State.announceEnd, h]

theorem State.announceEnd_ending {s : State} {why : HaltReason} (h : s.cycle = .ending why) :
    s.announceEnd = s.log [.cycleEnd .halt] := by simp [State.announceEnd, h]

theorem State.enterHalt_ending {s : State} {why : HaltReason} (h : s.cycle = .ending why) :
    s.enterHalt = { s with run := .halted why, cycle := .closed } := by simp [State.enterHalt, h]

theorem State.enterHalt_other {s : State} (h : ∀ why, s.cycle ≠ .ending why) : s.enterHalt = s := by
  unfold State.enterHalt
  split <;> simp_all

@[simp] theorem State.enterHalt_dev (s : State) : s.enterHalt.dev = s.dev := by unfold State.enterHalt; split <;> rfl
@[simp] theorem State.enterHalt_host (s : State) : s.enterHalt.host = s.host := by unfold State.enterHalt; split <;> rfl
@[simp] theorem State.enterHalt_events (s : State) : s.enterHalt.events = s.events := by
  unfold State.enterHalt; split <;> rfl
@[simp] theorem State.enterHalt_undisturbed (s : State) : s.enterHalt.undisturbed = s.undisturbed := by
  simp [State.undisturbed]

/-- A cycle whose execute phase is over ends by its `cycle-end`, the host's turn and, on outcome halt, the halt. -/
theorem endCycle_of {s : State} (h : s.cycle = .opened ∨ ∃ why, s.cycle = .ending why) :
    endCycle s = (hostTurn s.announceEnd).enterHalt := by
  rcases h with h | ⟨why, h⟩ <;> simp [endCycle, h]

/-! ## Writing a register -/

@[simp] theorem Regs.set_ip (g : Regs) {w : Width} (r : Reg w) (v : BitVec w.bits) : (g.set r v).ip = g.ip := by
  cases r <;> rfl

@[simp] theorem Regs.set_flags (g : Regs) {w : Width} (r : Reg w) (v : BitVec w.bits) : (g.set r v).flags = g.flags := by
  cases r <;> rfl

theorem lowByte_join (h l : Byte) : lowByte (joinBytes h l) = l := by
  unfold lowByte joinBytes
  ext i hi
  simp only [BitVec.getElem_extractLsb', BitVec.getLsbD_append]
  simp [hi]

theorem highByte_join (h l : Byte) : highByte (joinBytes h l) = h := by
  unfold highByte joinBytes
  ext i hi
  simp only [BitVec.getElem_extractLsb', BitVec.getLsbD_append]
  have h1 : ¬ 8 + i < 8 := by omega
  simp [h1, hi]

theorem join_high_low (v : Word) : joinBytes (highByte v) (lowByte v) = v := by
  unfold joinBytes highByte lowByte
  ext i hi
  simp only [BitVec.getElem_append, BitVec.getElem_extractLsb']
  split
  · simp [BitVec.getLsbD_eq_getElem hi]
  · have h8 : 8 + (i - 8) = i := by omega
    simp [h8, BitVec.getLsbD_eq_getElem hi]

/-- A register reads as written (10_state.md rule R21). -/
theorem Regs.set_get (g : Regs) {w : Width} (r : Reg w) : g.set r (g.get r) = g := by
  cases r <;> simp [Regs.set, Regs.get, join_high_low]

theorem Regs.get_set (g : Regs) {w : Width} (r : Reg w) (v : BitVec w.bits) : (g.set r v).get r = v := by
  cases r <;> first | rfl | exact lowByte_join _ _ | exact highByte_join _ _

end Sys2Proof.Machine
end

