-- ==== Sys2Proof/Laws/Decode.lean ====
section
/-! SUPPORT. Laws of the decoder's pieces: each reader answers what its writer wrote, and nothing else. -/

namespace Sys2Proof

/-! ## Operand lists -/

theorem readOperands_operandList {w : Width} (o : Operands w) : readOperands w (operandList o) = some o := by
  cases w <;> cases o <;> simp [operandList, regOperand, readOperands]

theorem readLoc_locList {w : Width} (d : Loc w) : readLoc w (locList d) = some d := by
  cases w <;> cases d <;> simp [locList, regOperand, readLoc]

theorem readPort_rawPort (p : Port) : readPort (rawPort p) = p := by
  cases p <;> simp [rawPort, readPort]

theorem rawPort_readPort {w : Option Width} {p : RawPort} (h : Operand.problem? w (.port p) = none) :
    rawPort (readPort p) = p := by
  cases p with
  | dx => rfl
  | imm v =>
    have : v < 256 := by simpa [Operand.problem?] using h
    simp [rawPort, readPort, Nat.mod_eq_of_lt this]

theorem port_problem (w : Option Width) (p : Port) : Operand.problem? w (.port (rawPort p)) = none := by
  cases p with
  | dx => rfl
  | imm v => simpa [Operand.problem?, rawPort] using v.isLt

theorem operandList_problem {w : Width} (o : Operands w) :
    (operandList o).findSome? (Operand.problem? (some w)) = none := by
  cases w <;> cases o <;> simp [operandList, regOperand, Operand.problem?] <;> exact BitVec.isLt _

theorem locList_problem {w : Width} (d : Loc w) : (locList d).findSome? (Operand.problem? (some w)) = none := by
  cases w <;> cases d <;> simp [locList, regOperand, Operand.problem?]

/-- Operands are read from their own list alone. -/
theorem operandList_of_readOperands {w : Width} {l : List Operand} {o : Operands w}
    (hl : l.findSome? (Operand.problem? (some w)) = none) (h : readOperands w l = some o) : l = operandList o := by
  rcases l with _ | ⟨a, _ | ⟨b, _ | ⟨c, l⟩⟩⟩
  · cases w <;> simp [readOperands] at h
  · cases w <;> simp [readOperands] at h
  · cases w <;> cases a <;> cases b <;> simp [readOperands] at h <;> subst h <;>
      simp [operandList, regOperand] <;> simp [Operand.problem?] at hl <;> exact (Nat.mod_eq_of_lt hl).symm
  · cases w <;> simp [readOperands] at h

theorem locList_of_readLoc {w : Width} {l : List Operand} {d : Loc w} (h : readLoc w l = some d) : l = locList d := by
  rcases l with _ | ⟨a, _ | ⟨b, l⟩⟩
  · cases w <;> simp [readLoc] at h
  · cases w <;> cases a <;> simp [readLoc] at h <;> subst h <;> simp [locList, regOperand]
  · cases w <;> simp [readLoc] at h

theorem operands_of_readIn {w : Width} {l : List Operand} {p : Port}
    (hl : l.findSome? (Operand.problem? (some w)) = none) (h : readIn w l = some p) :
    l = [regOperand (dataReg w), .port (rawPort p)] := by
  rcases l with _ | ⟨a, _ | ⟨b, _ | ⟨c, l⟩⟩⟩
  · cases w <;> simp [readIn] at h
  · cases w <;> rcases a with (_ | _) | (_ | _) | _ | _ | _ | _ | _ <;> simp [readIn] at h
  · cases w <;> rcases a with (_ | _) | (_ | _) | _ | _ | _ | _ | _ <;> cases b <;> simp [readIn] at h <;> subst h
    · have := rawPort_readPort (p := ‹RawPort›) (List.findSome?_eq_none_iff.mp hl _ (by simp))
      simp [this, regOperand, dataReg]
    · have := rawPort_readPort (p := ‹RawPort›) (List.findSome?_eq_none_iff.mp hl _ (by simp))
      simp [this, regOperand, dataReg]
  · cases w <;> rcases a with (_ | _) | (_ | _) | _ | _ | _ | _ | _ <;> simp [readIn] at h

theorem operands_of_readOut {w : Width} {l : List Operand} {p : Port}
    (hl : l.findSome? (Operand.problem? (some w)) = none) (h : readOut w l = some p) :
    l = [.port (rawPort p), regOperand (dataReg w)] := by
  rcases l with _ | ⟨b, _ | ⟨a, _ | ⟨c, l⟩⟩⟩
  · cases w <;> simp [readOut] at h
  · cases w <;> cases b <;> simp [readOut] at h
  · cases w <;> rcases a with (_ | _) | (_ | _) | _ | _ | _ | _ | _ <;> cases b <;> simp [readOut] at h <;> subst h
    · have := rawPort_readPort (p := ‹RawPort›) (List.findSome?_eq_none_iff.mp hl _ (by simp))
      simp [this, regOperand, dataReg]
    · have := rawPort_readPort (p := ‹RawPort›) (List.findSome?_eq_none_iff.mp hl _ (by simp))
      simp [this, regOperand, dataReg]
  · cases w <;> cases b <;> rcases a with (_ | _) | (_ | _) | _ | _ | _ | _ | _ <;> simp [readOut] at h

/-! ## Byte forms -/

theorem row_readback (m : Mnemonic) : Mnemonic.all[m.row.toNat]? = some m := by
  cases m <;> decide

/-- The operands that carry a tag in the byte form of a width-`w` instruction. -/
def Operand.tagged (w : Width) : Operand → Prop
  | .imm v => v < 2 ^ w.bits
  | .port (.imm v) => v < 256
  | .port .dx => True
  | .reg8 _ => True
  | .reg16 _ => True
  | .mem _ => True
  | .target _ => False
  | .intNum _ => False

theorem readOperand_operandBytes {w : Width} {o : Operand} (h : o.tagged w) (rest : List Byte) :
    readOperand (operandBytes w o ++ rest) = .ok (o, rest) := by
  cases o with
  | reg8 r => cases r <;> rfl
  | reg16 r => cases r <;> rfl
  | mem m =>
    rcases m with a | (_ | a)
    · simp [operandBytes, readOperand, tagRegisters, takeWord, Machine.join_high_low]
    · simp [operandBytes, readOperand, tagRegisters]
    · simp [operandBytes, readOperand, tagRegisters, takeWord, Machine.join_high_low]
  | imm v =>
    cases w with
    | w8 =>
      have h : v < 256 := h
      simp [operandBytes, readOperand, tagRegisters, takeByte, Nat.mod_eq_of_lt h]
    | w16 =>
      have h : v < 65536 := h
      have : (Machine.joinBytes (BitVec.ofNat 8 (v / 256)) (BitVec.ofNat 8 v)).toNat = v := by
        simp only [Machine.joinBytes, BitVec.toNat_append, BitVec.toNat_ofNat]
        rw [Nat.shiftLeft_eq, Nat.mul_comm, ← Nat.two_pow_add_eq_or_of_lt (by omega)]
        omega
      simp [operandBytes, readOperand, tagRegisters, takeWord, this]
  | port p =>
    cases p with
    | dx => simp [operandBytes, readOperand, tagRegisters]
    | imm v =>
      have h : v < 256 := h
      simp [operandBytes, readOperand, tagRegisters, takeByte, Nat.mod_eq_of_lt h]
  | target t => exact h.elim
  | intNum n => exact h.elim

theorem readOperandBytes_flatMap {w : Width} {os : List Operand} (h : ∀ o ∈ os, o.tagged w) (rest : List Byte) :
    readOperandBytes os.length (os.flatMap (operandBytes w) ++ rest) = .ok (os, rest) := by
  induction os with
  | nil => rfl
  | cons o os ih =>
    simp only [List.flatMap_cons, List.length_cons, List.append_assoc, readOperandBytes]
    rw [readOperand_operandBytes (h o (by simp))]
    dsimp only
    rw [ih fun x hx => h x (by simp [hx])]

theorem operandList_tagged {w : Width} (o : Operands w) : ∀ x ∈ operandList o, x.tagged w := by
  cases w <;> cases o <;> simp [operandList, regOperand, Operand.tagged] <;> exact BitVec.isLt _

theorem locList_tagged {w : Width} (d : Loc w) : ∀ x ∈ locList d, x.tagged w := by
  cases w <;> cases d <;> simp [locList, regOperand, Operand.tagged]

theorem operandList_length {w : Width} (o : Operands w) : (operandList o).length = 2 := by cases o <;> rfl

theorem locList_length {w : Width} (d : Loc w) : (locList d).length = 1 := by cases d <;> rfl

end Sys2Proof
end

