-- ==== Sys2Proof/Laws/Flags.lean ====
section
/-! SUPPORT. The bits of FLAGS after each update. -/

namespace Sys2Proof.Machine

theorem setBit_getLsbD (f : Word) {i : Nat} (hi : i < 16) (b : Bool) (j : Nat) :
    (setBit f i b).getLsbD j = if j = i then b else f.getLsbD j := by
  unfold setBit
  cases b <;> by_cases h : j = i
  · subst h
    simp [hi]
  · by_cases hj : j < 16
    · simp [h, hj]
    · simp [h, BitVec.getLsbD_of_ge _ j (Nat.le_of_not_lt hj)]
  · subst h
    simp [hi]
  · simp [BitVec.getLsbD_twoPow, h, Ne.symm h]

/-- IF, and every other bit kept (48_processor_control.md rules R296, R297). -/
theorem setIF_getLsbD (f : Word) (b : Bool) (j : Nat) :
    (setIF f b).getLsbD j = if j = 9 then b else f.getLsbD j := setBit_getLsbD f (by omega) b j

/-- The ALU's four bits, and every other bit kept (10_state.md rule R31). -/
theorem setAluFlags_getLsbD (f : Word) (cf zf sf of : Bool) (j : Nat) :
    (setAluFlags f cf zf sf of).getLsbD j =
      if j = 0 then cf else if j = 6 then zf else if j = 7 then sf else if j = 11 then of else f.getLsbD j := by
  simp only [setAluFlags, setBit_getLsbD _ (by omega : 11 < 16), setBit_getLsbD _ (by omega : 7 < 16),
    setBit_getLsbD _ (by omega : 6 < 16), setBit_getLsbD _ (by omega : 0 < 16)]
  split_ifs <;> simp_all

/-- FLAGS after an ALU operation, bit by bit (10_state.md rule R30). -/
theorem flagBits_setAluFlags (f : Word) (cf zf sf of : Bool) : flagBits (setAluFlags f cf zf sf of) f cf zf sf of := by
  refine ⟨?_, ?_, ?_, ?_, fun j h0 h6 h7 h11 => ?_⟩ <;> rw [setAluFlags_getLsbD] <;> simp [*]

@[simp] theorem setAluFlags_cf (f : Word) (c z s o : Bool) : flagCF (setAluFlags f c z s o) = c :=
  (setAluFlags_getLsbD ..).trans (by simp)

@[simp] theorem setAluFlags_zf (f : Word) (c z s o : Bool) : flagZF (setAluFlags f c z s o) = z :=
  (setAluFlags_getLsbD ..).trans (by simp)

@[simp] theorem setAluFlags_sf (f : Word) (c z s o : Bool) : flagSF (setAluFlags f c z s o) = s :=
  (setAluFlags_getLsbD ..).trans (by simp)

@[simp] theorem setAluFlags_of (f : Word) (c z s o : Bool) : flagOF (setAluFlags f c z s o) = o :=
  (setAluFlags_getLsbD ..).trans (by simp)

@[simp] theorem setAluFlags_if (f : Word) (c z s o : Bool) : flagIF (setAluFlags f c z s o) = flagIF f :=
  (setAluFlags_getLsbD ..).trans (by simp [flagIF])

/-- Only the last of two updates counts. -/
theorem setAluFlags_twice (f : Word) (c z s o c' z' s' o' : Bool) :
    setAluFlags (setAluFlags f c z s o) c' z' s' o' = setAluFlags f c' z' s' o' := by
  apply BitVec.eq_of_getLsbD_eq
  intro j hj
  simp only [setAluFlags_getLsbD]
  split_ifs <;> rfl

/-- Writing back the bits that are there changes nothing. -/
theorem setAluFlags_same (f : Word) : setAluFlags f (flagCF f) (flagZF f) (flagSF f) (flagOF f) = f := by
  apply BitVec.eq_of_getLsbD_eq
  intro j hj
  simp only [setAluFlags_getLsbD, flagCF, flagZF, flagSF, flagOF]
  split_ifs <;> simp_all

@[simp] theorem setIF_if (f : Word) (b : Bool) : flagIF (setIF f b) = b :=
  (setIF_getLsbD ..).trans (by simp)

@[simp] theorem setIF_cf (f : Word) (b : Bool) : flagCF (setIF f b) = flagCF f :=
  (setIF_getLsbD ..).trans (by simp [flagCF])

@[simp] theorem setIF_zf (f : Word) (b : Bool) : flagZF (setIF f b) = flagZF f :=
  (setIF_getLsbD ..).trans (by simp [flagZF])

@[simp] theorem setIF_sf (f : Word) (b : Bool) : flagSF (setIF f b) = flagSF f :=
  (setIF_getLsbD ..).trans (by simp [flagSF])

@[simp] theorem setIF_of (f : Word) (b : Bool) : flagOF (setIF f b) = flagOF f :=
  (setIF_getLsbD ..).trans (by simp [flagOF])

/-- The flags every ALU operation shares (40_engine.md rule R160). -/
theorem alu_zf_sf {n : Nat} (op : AluOp) (a b : BitVec n) (cin : Bool) :
    (alu op a b cin).zf = decide ((alu op a b cin).res.toNat = 0) ∧ (alu op a b cin).sf = (alu op a b cin).res.msb := by
  cases op <;> exact ⟨rfl, rfl⟩

theorem alu_add_res {n : Nat} (a b : BitVec n) (cin : Bool) : (alu .add a b cin).res = a + b := by
  apply BitVec.eq_of_toNat_eq
  simp [alu, aluSum, aluOut]

theorem alu_sub_res {n : Nat} (a b : BitVec n) (cin : Bool) : (alu .sub a b cin).res = a - b := by
  simp only [alu, aluDiff, aluOut]
  rw [Int.sub_eq_add_neg, BitVec.ofInt_add, BitVec.ofInt_neg, BitVec.sub_eq_add_neg]
  simp

/-- The carry flag that goes in matters to ADC and SBB alone (40_engine.md rule R160). -/
theorem alu_sub_cin {n : Nat} (a b : BitVec n) (c c' : Bool) : alu .sub a b c = alu .sub a b c' := rfl

end Sys2Proof.Machine
end

