-- ==== Sys2Proof/Laws/Host.lean ====
section
/-! SUPPORT. What the host's turns can do: ticks, requests, line changes, bytes and resumes move nothing of the architectural
part of a machine that is not waiting, and no device register that only software and reset move. -/

namespace Sys2Proof.Machine

/-- The engine waits for nothing of the host's. -/
def Arch.steady (x : Arch) : Prop := x.run ≠ .awaitChar none ∧ x.cycle ≠ .breakpoint

theorem requestLine_settings (k : Fin 8) (d : Devices) : (requestLine k d).1.settings = d.settings := rfl

theorem tickTimer_settings (d : Devices) : (tickTimer d).1.settings = d.settings := by
  unfold tickTimer
  dsimp only
  split <;> rfl

theorem refreshA_settings (c : Configuration) (d : Devices) (new : Pio) (h1 : new.ca = d.pio.ca) (h2 : new.cb = d.pio.cb)
    (h3 : new.extB = d.pio.extB) : (refreshA c d new).1.settings = d.settings := by
  simp [refreshA, Devices.settings, Pio.updateA, h1, h2, h3]

theorem moveSwitches_settings (c : Configuration) (v : Byte) (d : Devices) :
    (moveSwitches c v d).1.settings = d.settings := by
  unfold moveSwitches
  split
  · exact refreshA_settings _ _ _ rfl rfl rfl
  · rfl

theorem driveBusy_settings (c : Configuration) (b : Bool) (d : Devices) : (driveBusy c b d).1.settings = d.settings := by
  cases c with
  | picTimer => rfl
  | pioSwitchesLeds => rfl
  | pioPrinter => exact refreshA_settings _ _ _ rfl rfl rfl
  | handshakePrinter =>
    unfold driveBusy
    dsimp only
    split <;> rfl

/-- An action that ends no cycle leaves the architectural part of a machine that is not waiting, the settings and the host's
turns. -/
theorem applyAction_keeps {a : HostAction} (ha : a.ends = false) {s : State} (hs : s.arch.steady) :
    (applyAction a s).arch = s.arch ∧ (applyAction a s).dev.settings = s.dev.settings ∧
      (applyAction a s).host = s.host := by
  cases a with
  | tick => exact ⟨rfl, tickTimer_settings _, rfl⟩
  | request k => exact ⟨rfl, requestLine_settings _ _, rfl⟩
  | setSwitches v => exact ⟨rfl, moveSwitches_settings _ _ _, rfl⟩
  | setBusy b => exact ⟨rfl, driveBusy_settings _ _ _, rfl⟩
  | supply c =>
    have h : s.run ≠ .awaitChar none := hs.1
    simp only [applyAction, supplyChar]
    split <;> simp_all
  | resume =>
    have h : s.cycle ≠ .breakpoint := hs.2
    simp only [applyAction, resumeBreakpoint]
    split <;> simp_all
  | cancel => simp [HostAction.ends] at ha
  | reset p policy => simp [HostAction.ends] at ha

theorem applyTurn_keeps {t : HostTurn} (ht : t.all (fun a => !a.ends) = true) {s : State} (hs : s.arch.steady) :
    (applyTurn t s).arch = s.arch ∧ (applyTurn t s).dev.settings = s.dev.settings ∧ (applyTurn t s).host = s.host := by
  induction t generalizing s with
  | nil => exact ⟨rfl, rfl, rfl⟩
  | cons a t ih =>
    simp only [List.all_cons, Bool.and_eq_true, Bool.not_eq_true'] at ht
    have h1 := applyAction_keeps ht.1 hs
    have h2 := ih ht.2 (s := applyAction a s) (by rw [h1.1]; exact hs)
    exact ⟨h2.1.trans h1.1, h2.2.1.trans h1.2.1, h2.2.2.trans h1.2.2⟩

/-- From `s` to `t` the host has only moved on. -/
def hostOnly (s t : State) : Prop := t.undisturbed = true ∧ (s.host = [] → t.host = [])

theorem hostOnly_trans {s t u : State} (h1 : hostOnly s t) (h2 : hostOnly t u) : hostOnly s u :=
  ⟨h2.1, fun h => h2.2 (h1.2 h)⟩

/-- The turn at a boundary, for a host that ends no cycle. -/
theorem hostTurn_keeps {s : State} (hu : s.undisturbed = true) (hs : s.arch.steady) :
    s.turnEnds = false ∧ (hostTurn s).arch = s.arch ∧ devicesKept s (hostTurn s) ∧ hostOnly s (hostTurn s) := by
  unfold hostTurn State.turnEnds
  cases hh : s.host with
  | nil => exact ⟨rfl, rfl, ⟨rfl, fun _ => rfl⟩, ⟨hu, fun _ => hh⟩⟩
  | cons t ts =>
    simp only [State.undisturbed, hh, List.all_cons, Bool.and_eq_true] at hu
    have h := applyTurn_keeps hu.1 (s := { s with host := ts }) hs
    dsimp only at h ⊢
    refine ⟨?_, h.1, ⟨h.2.1, fun e => by simp [hh] at e⟩, ⟨?_, fun e => by simp [hh] at e⟩⟩
    · simpa [List.any_eq_false, List.all_eq_true] using hu.1
    · simp only [State.undisturbed, h.2.2]
      exact hu.2

/-! ## The same wherever the engine is -/

/-- A host that acts no more. -/
theorem hostTurn_nil {s : State} (h : s.host = []) : hostTurn s = s := by simp [hostTurn, h]

/-- An action that ends no cycle, wherever the engine is: it may answer a wait, and moves nothing else but the devices. -/
theorem applyAction_calm {a : HostAction} (ha : a.ends = false) (s : State) :
    (applyAction a s).arch = { s.arch with run := (applyAction a s).run, cycle := (applyAction a s).cycle } ∧
    ((applyAction a s).run = s.run ∨ s.run = .awaitChar none ∧ ∃ c, (applyAction a s).run = .awaitChar (some c)) ∧
    ((applyAction a s).cycle = s.cycle ∨ s.cycle = .breakpoint ∧ (applyAction a s).cycle = .opened) ∧
    (applyAction a s).dev.settings = s.dev.settings ∧ (applyAction a s).host = s.host := by
  cases a with
  | tick => exact ⟨rfl, .inl rfl, .inl rfl, tickTimer_settings _, rfl⟩
  | request k => exact ⟨rfl, .inl rfl, .inl rfl, requestLine_settings _ _, rfl⟩
  | setSwitches v => exact ⟨rfl, .inl rfl, .inl rfl, moveSwitches_settings _ _ _, rfl⟩
  | setBusy b => exact ⟨rfl, .inl rfl, .inl rfl, driveBusy_settings _ _ _, rfl⟩
  | supply c => simp only [applyAction, supplyChar]; split <;> simp_all [State.arch]
  | resume => simp only [applyAction, resumeBreakpoint]; split <;> simp_all [State.arch]
  | cancel => simp [HostAction.ends] at ha
  | reset p policy => simp [HostAction.ends] at ha

theorem applyTurn_calm {t : HostTurn} (ht : t.all (fun a => !a.ends) = true) (s : State) :
    (applyTurn t s).arch = { s.arch with run := (applyTurn t s).run, cycle := (applyTurn t s).cycle } ∧
    ((applyTurn t s).run = s.run ∨ s.run = .awaitChar none ∧ ∃ c, (applyTurn t s).run = .awaitChar (some c)) ∧
    ((applyTurn t s).cycle = s.cycle ∨ s.cycle = .breakpoint ∧ (applyTurn t s).cycle = .opened) ∧
    (applyTurn t s).dev.settings = s.dev.settings ∧ (applyTurn t s).host = s.host := by
  induction t generalizing s with
  | nil => exact ⟨rfl, .inl rfl, .inl rfl, rfl, rfl⟩
  | cons a t ih =>
    simp only [List.all_cons, Bool.and_eq_true, Bool.not_eq_true'] at ht
    obtain ⟨a1, a2, a3, a4, a5⟩ := applyAction_calm ht.1 s
    obtain ⟨b1, b2, b3, b4, b5⟩ := ih ht.2 (applyAction a s)
    refine ⟨?_, ?_, ?_, b4.trans a4, b5.trans a5⟩
    · show (applyTurn t (applyAction a s)).arch = _
      rw [b1, a1]; rfl
    · show (applyTurn t (applyAction a s)).run = s.run ∨
        s.run = .awaitChar none ∧ ∃ c, (applyTurn t (applyAction a s)).run = .awaitChar (some c)
      rcases b2 with b2 | ⟨b2, c, b2'⟩
      · rw [b2]; exact a2
      · rcases a2 with a2 | ⟨a2, c', a2'⟩
        · exact .inr ⟨a2 ▸ b2, c, b2'⟩
        · rw [a2'] at b2; simp at b2
    · show (applyTurn t (applyAction a s)).cycle = s.cycle ∨
        s.cycle = .breakpoint ∧ (applyTurn t (applyAction a s)).cycle = .opened
      rcases b3 with b3 | ⟨b3, b3'⟩
      · rw [b3]; exact a3
      · rcases a3 with a3 | ⟨a3, a3'⟩
        · exact .inr ⟨a3 ▸ b3, b3'⟩
        · rw [a3'] at b3; simp at b3

/-- The turn of a host that ends no cycle, wherever the engine is. -/
theorem hostTurn_calm {s : State} (hu : s.undisturbed = true) :
    s.turnEnds = false ∧ (hostTurn s).arch = { s.arch with run := (hostTurn s).run, cycle := (hostTurn s).cycle } ∧
    ((hostTurn s).run = s.run ∨ s.run = .awaitChar none ∧ ∃ c, (hostTurn s).run = .awaitChar (some c)) ∧
    ((hostTurn s).cycle = s.cycle ∨ s.cycle = .breakpoint ∧ (hostTurn s).cycle = .opened) ∧
    devicesKept s (hostTurn s) ∧ hostOnly s (hostTurn s) := by
  unfold hostTurn State.turnEnds
  cases hh : s.host with
  | nil => exact ⟨rfl, rfl, .inl rfl, .inl rfl, ⟨rfl, fun _ => rfl⟩, hu, fun _ => hh⟩
  | cons t ts =>
    simp only [State.undisturbed, hh, List.all_cons, Bool.and_eq_true] at hu
    obtain ⟨b1, b2, b3, b4, b5⟩ := applyTurn_calm hu.1 { s with host := ts }
    refine ⟨?_, b1, b2, b3, ⟨b4, fun e => by simp [hh] at e⟩, ?_, fun e => by simp [hh] at e⟩
    · simpa [List.any_eq_false, List.all_eq_true] using hu.1
    · simp only [State.undisturbed, b5]; exact hu.2

/-! ## The same for a host that may cancel but does not reset -/

theorem applyAction_params {a : HostAction} (s : State) : (applyAction a s).params = s.params := by
  cases a with
  | supply c => simp only [applyAction, supplyChar]; split <;> rfl
  | resume => simp only [applyAction, resumeBreakpoint]; split <;> rfl
  | cancel => simp only [applyAction, cancelCycle]; split <;> rfl
  | _ => rfl

/-- An action that does not reset leaves everything but the devices, the wait, the cycle's phase and the events, which grow. -/
theorem applyAction_noReset {a : HostAction} (ha : a.isReset = false) (s : State) :
    (applyAction a s).regs = s.regs ∧ (applyAction a s).latches = s.latches ∧ (applyAction a s).mem = s.mem ∧
      (applyAction a s).program = s.program ∧ (applyAction a s).params = s.params ∧ (applyAction a s).host = s.host ∧
      (applyAction a s).faultRecord = s.faultRecord ∧ (∀ why, s.run = .halted why → (applyAction a s).run = .halted why) ∧
      ∃ es, (applyAction a s).events = es ++ s.events := by
  cases a with
  | tick => exact ⟨rfl, rfl, rfl, rfl, rfl, rfl, rfl, fun _ h => h, _, rfl⟩
  | request k => exact ⟨rfl, rfl, rfl, rfl, rfl, rfl, rfl, fun _ h => h, _, rfl⟩
  | setSwitches v => exact ⟨rfl, rfl, rfl, rfl, rfl, rfl, rfl, fun _ h => h, _, rfl⟩
  | setBusy b => exact ⟨rfl, rfl, rfl, rfl, rfl, rfl, rfl, fun _ h => h, _, rfl⟩
  | supply c =>
    simp only [applyAction, supplyChar]
    split <;> simp_all
  | resume =>
    simp only [applyAction, resumeBreakpoint]
    split <;> exact ⟨rfl, rfl, rfl, rfl, rfl, rfl, rfl, fun _ h => h, [], rfl⟩
  | cancel =>
    simp only [applyAction, cancelCycle]
    split <;> exact ⟨rfl, rfl, rfl, rfl, rfl, rfl, rfl, fun _ h => h, [], rfl⟩
  | reset p policy => simp [HostAction.isReset] at ha

theorem applyTurn_noReset {t : HostTurn} (ht : t.all (fun a => !a.isReset) = true) (s : State) :
    (applyTurn t s).regs = s.regs ∧ (applyTurn t s).latches = s.latches ∧ (applyTurn t s).mem = s.mem ∧
      (applyTurn t s).program = s.program ∧ (applyTurn t s).params = s.params ∧ (applyTurn t s).host = s.host ∧
      (applyTurn t s).faultRecord = s.faultRecord ∧ (∀ why, s.run = .halted why → (applyTurn t s).run = .halted why) ∧
      ∃ es, (applyTurn t s).events = es ++ s.events := by
  induction t generalizing s with
  | nil => exact ⟨rfl, rfl, rfl, rfl, rfl, rfl, rfl, fun _ h => h, [], rfl⟩
  | cons a t ih =>
    simp only [List.all_cons, Bool.and_eq_true, Bool.not_eq_true'] at ht
    obtain ⟨a1, a2, a3, a4, a5, a6, ar, a7, es, a8⟩ := applyAction_noReset ht.1 s
    obtain ⟨b1, b2, b3, b4, b5, b6, br, b7, fs, b8⟩ := ih ht.2 (applyAction a s)
    exact ⟨b1.trans a1, b2.trans a2, b3.trans a3, b4.trans a4, b5.trans a5, b6.trans a6, br.trans ar, fun w h => b7 w (a7 w h),
      fs ++ es, by rw [List.append_assoc, ← a8]; exact b8⟩

/-- The turn at a boundary, for a host that does not reset. -/
theorem hostTurn_noReset {s : State} (hn : s.noReset = true) :
    (hostTurn s).regs = s.regs ∧ (hostTurn s).latches = s.latches ∧ (hostTurn s).mem = s.mem ∧
      (hostTurn s).program = s.program ∧ (hostTurn s).params = s.params ∧ (hostTurn s).noReset = true ∧
      (hostTurn s).faultRecord = s.faultRecord ∧ (∀ why, s.run = .halted why → (hostTurn s).run = .halted why) ∧
      ∃ es, (hostTurn s).events = es ++ s.events := by
  unfold hostTurn
  cases hh : s.host with
  | nil => exact ⟨rfl, rfl, rfl, rfl, rfl, hn, rfl, fun _ h => h, [], rfl⟩
  | cons t ts =>
    simp only [State.noReset, hh, List.all_cons, Bool.and_eq_true] at hn
    obtain ⟨b1, b2, b3, b4, b5, b6, br, b7, b8⟩ := applyTurn_noReset hn.1 { s with host := ts }
    exact ⟨b1, b2, b3, b4, b5, by simp only [State.noReset, b6]; exact hn.2, br, b7, b8⟩

/-- What the devices report are events of the modules (60_exceptions.md rule R385). -/
theorem applyAction_events {a : HostAction} (ha : a.isReset = false) (s : State) :
    ∃ es, (applyAction a s).events = es ++ s.events ∧ ∀ e ∈ es, e.ofModule = true := by
  have key : ∀ r : Devices × List Event, (∀ e ∈ r.2, e.ofModule = true) →
      ∃ es, (s.device r).events = es ++ s.events ∧ ∀ e ∈ es, e.ofModule = true :=
    fun r h => ⟨r.2.reverse, rfl, fun e he => h e (List.mem_reverse.mp he)⟩
  have hr : ∀ (c : Configuration) (d : Devices) (p : Pio), ∀ e ∈ (refreshA c d p).2, e.ofModule = true := by
    intro c d p e he
    unfold refreshA pioReaction at he
    dsimp only at he
    simp only [List.mem_cons] at he
    rcases he with rfl | he
    · rfl
    · split at he
      · exact List.mem_singleton.mp he ▸ rfl
      · simp at he
  cases a with
  | tick =>
    refine key _ fun e he => ?_
    unfold tickTimer at he
    dsimp only at he
    split at he
    · simp only [requestLine, List.mem_cons, List.not_mem_nil, or_false] at he
      rcases he with rfl | rfl | rfl <;> rfl
    · simp only [List.mem_cons, List.not_mem_nil, or_false] at he
      exact he ▸ rfl
  | request k =>
    refine key _ fun e he => ?_
    simp only [requestLine, List.mem_cons, List.not_mem_nil, or_false] at he
    rcases he with rfl | rfl <;> rfl
  | setSwitches v =>
    refine key _ fun e he => ?_
    unfold moveSwitches at he
    split at he
    · exact hr _ _ _ e he
    · simp at he
  | setBusy b =>
    refine key _ fun e he => ?_
    unfold driveBusy at he
    split at he
    · exact hr _ _ _ e he
    · dsimp only at he
      split at he
      · simp only [requestLine, List.mem_cons, List.not_mem_nil, or_false] at he
        rcases he with rfl | rfl | rfl <;> rfl
      · simp only [List.mem_cons, List.not_mem_nil, or_false] at he
        exact he ▸ rfl
    · simp at he
    · simp at he
  | supply c =>
    simp only [applyAction, supplyChar]
    split <;> exact ⟨[], rfl, by simp⟩
  | resume =>
    simp only [applyAction, resumeBreakpoint]
    split <;> exact ⟨[], rfl, by simp⟩
  | cancel =>
    simp only [applyAction, cancelCycle]
    split <;> exact ⟨[], rfl, by simp⟩
  | reset p policy => simp [HostAction.isReset] at ha

theorem applyTurn_events {t : HostTurn} (ht : t.all (fun a => !a.isReset) = true) (s : State) :
    ∃ es, (applyTurn t s).events = es ++ s.events ∧ ∀ e ∈ es, e.ofModule = true := by
  induction t generalizing s with
  | nil => exact ⟨[], rfl, by simp⟩
  | cons a t ih =>
    simp only [List.all_cons, Bool.and_eq_true, Bool.not_eq_true'] at ht
    obtain ⟨es, h1, h2⟩ := applyAction_events ht.1 s
    obtain ⟨fs, k1, k2⟩ := ih ht.2 (applyAction a s)
    refine ⟨fs ++ es, by rw [List.append_assoc, ← h1]; exact k1, fun e he => ?_⟩
    exact (List.mem_append.mp he).elim (k2 e) (h2 e)

/-- The turn of a host that does not reset reports events of the modules alone, and none if there is no turn. -/
theorem hostTurn_events {s : State} (hn : s.noReset = true) :
    ∃ es, (hostTurn s).events = es ++ s.events ∧ (∀ e ∈ es, e.ofModule = true) ∧ (s.host = [] → es = []) := by
  unfold hostTurn
  cases hh : s.host with
  | nil => exact ⟨[], rfl, by simp, fun _ => rfl⟩
  | cons t ts =>
    simp only [State.noReset, hh, List.all_cons, Bool.and_eq_true] at hn
    obtain ⟨es, h1, h2⟩ := applyTurn_events hn.1 { s with host := ts }
    exact ⟨es, h1, h2, fun e => by simp at e⟩

theorem HostAction.isReset_of_ends {a : HostAction} (h : a.ends = false) : a.isReset = false := by
  cases a <;> simp_all [HostAction.ends, HostAction.isReset]

/-- A host that ends no cycle does not reset. -/
theorem State.noReset_of_undisturbed {s : State} (h : s.undisturbed = true) : s.noReset = true := by
  simp only [State.undisturbed, State.noReset, List.all_eq_true, Bool.not_eq_true'] at *
  exact fun t ht a ha => HostAction.isReset_of_ends (h t ht a ha)

end Sys2Proof.Machine
end

