-- ==== Sys2Proof/Laws/Memory.lean ====
section
/-! SUPPORT. The laws of memory: read after write, and that every operation keeps the canonical form. -/

namespace Sys2Proof.Machine

theorem cellAt_insertCell (a b : Nat) (v : Byte) (cs : List Host.Cell) :
    cellAt b (insertCell a v cs) = if b = a then some v else cellAt b cs := by
  induction cs with
  | nil => simp [insertCell, cellAt]
  | cons c cs ih =>
    obtain ⟨x, y⟩ := c
    unfold insertCell
    split
    · simp [cellAt]
    · split
      · subst_vars
        by_cases h : b = x <;> simp [cellAt, h]
      · by_cases h : b = x
        · subst h
          simp [cellAt, Ne.symm ‹¬a = b›]
        · simp [cellAt, h, ih]

/-- Above every listed address there is no cell. -/
theorem cellAt_of_allAbove {a : Nat} {cs : List Host.Cell} (h : allAbove a cs = true) {b : Nat} (hb : b ≤ a) :
    cellAt b cs = none := by
  induction cs with
  | nil => rfl
  | cons c cs ih =>
    simp only [allAbove, List.all_cons, Bool.and_eq_true, decide_eq_true_eq] at h
    have hne : b ≠ c.1 := by omega
    simp only [cellAt, hne, if_false]
    exact ih h.2

theorem cellAt_eraseCell {a : Nat} {cs : List Host.Cell} (h : rising cs = true) (b : Nat) :
    cellAt b (eraseCell a cs) = if b = a then none else cellAt b cs := by
  induction cs with
  | nil => simp [eraseCell, cellAt]
  | cons c cs ih =>
    obtain ⟨x, y⟩ := c
    simp only [rising, Bool.and_eq_true] at h
    unfold eraseCell
    split
    · subst_vars
      by_cases hb : b = x
      · subst hb
        simpa using cellAt_of_allAbove h.1 (Nat.le_refl _)
      · simp [cellAt, hb]
    · by_cases hb : b = x
      · subst hb
        simp [cellAt, Ne.symm ‹¬a = b›]
      · simp [cellAt, hb, ih h.2]

theorem allAbove_insertCell {x a : Nat} {v : Byte} {cs : List Host.Cell} (h : allAbove x cs = true) (hx : x < a) :
    allAbove x (insertCell a v cs) = true := by
  induction cs with
  | nil => simpa [insertCell, allAbove] using hx
  | cons c cs ih =>
    obtain ⟨y, z⟩ := c
    simp only [allAbove, List.all_cons, Bool.and_eq_true, decide_eq_true_eq] at h ih
    unfold insertCell
    split
    · simp [allAbove, hx, h.1, h.2]
    · split
      · simp [allAbove, hx, h.2]
      · simp only [allAbove, List.all_cons, Bool.and_eq_true, decide_eq_true_eq]
        exact ⟨h.1, ih h.2⟩

theorem allAbove_eraseCell {x a : Nat} {cs : List Host.Cell} (h : allAbove x cs = true) :
    allAbove x (eraseCell a cs) = true := by
  induction cs with
  | nil => rfl
  | cons c cs ih =>
    simp only [allAbove, List.all_cons, Bool.and_eq_true, decide_eq_true_eq] at h ih
    unfold eraseCell
    split
    · exact h.2
    · simp only [allAbove, List.all_cons, Bool.and_eq_true, decide_eq_true_eq]
      exact ⟨h.1, ih h.2⟩

theorem allAbove_trans {x y : Nat} {cs : List Host.Cell} (h : allAbove y cs = true) (hxy : x ≤ y) :
    allAbove x cs = true := by
  simp only [allAbove, List.all_eq_true, decide_eq_true_eq] at h ⊢
  intro c hc
  have := h c hc
  omega

theorem rising_insertCell {a : Nat} {v : Byte} {cs : List Host.Cell} (h : rising cs = true) :
    rising (insertCell a v cs) = true := by
  induction cs with
  | nil => rfl
  | cons c cs ih =>
    obtain ⟨y, z⟩ := c
    simp only [rising, Bool.and_eq_true] at h
    unfold insertCell
    split
    · simp only [rising, Bool.and_eq_true]
      refine ⟨?_, h⟩
      simp only [allAbove, List.all_cons, Bool.and_eq_true, decide_eq_true_eq]
      exact ⟨‹_›, allAbove_trans h.1 (Nat.le_of_lt ‹_›)⟩
    · split
      · subst_vars
        simpa [rising] using h
      · simp only [rising, Bool.and_eq_true]
        exact ⟨allAbove_insertCell h.1 (by omega), ih h.2⟩

theorem rising_eraseCell {a : Nat} {cs : List Host.Cell} (h : rising cs = true) : rising (eraseCell a cs) = true := by
  induction cs with
  | nil => rfl
  | cons c cs ih =>
    simp only [rising, Bool.and_eq_true] at h
    unfold eraseCell
    split
    · exact h.2
    · simp only [rising, Bool.and_eq_true]
      exact ⟨allAbove_eraseCell h.1, ih h.2⟩

theorem mem_insertCell {a : Nat} {v : Byte} {cs : List Host.Cell} {c : Host.Cell} (h : c ∈ insertCell a v cs) :
    c = (a, v) ∨ c ∈ cs := by
  induction cs with
  | nil => simpa [insertCell] using h
  | cons d cs ih =>
    obtain ⟨y, z⟩ := d
    unfold insertCell at h
    split at h
    · simpa using h
    · split at h
      · simp only [List.mem_cons] at h ⊢
        exact h.imp_right .inr
      · simp only [List.mem_cons] at h ⊢
        rcases h with h | h
        · exact .inr (.inl h)
        · exact (ih h).imp_right .inr

theorem mem_eraseCell {a : Nat} {cs : List Host.Cell} {c : Host.Cell} (h : c ∈ eraseCell a cs) : c ∈ cs := by
  induction cs with
  | nil => exact h
  | cons d cs ih =>
    unfold eraseCell at h
    split at h
    · exact List.mem_cons_of_mem _ h
    · simp only [List.mem_cons] at h ⊢
      exact h.imp_right ih

@[simp] theorem Memory.write_fill (m : Memory) (a : Nat) (v : Byte) : (m.write a v).fill = m.fill := by
  unfold Memory.write
  split <;> rfl

/-- The canonical form, as a proposition. -/
theorem Memory.wf_iff (m : Memory) :
    m.wf = true ↔ rising m.cells = true ∧ ∀ c ∈ m.cells, c.2 ≠ m.fill.byte c.1 := by
  simp [Memory.wf, List.all_eq_true]

/-- A read after a write (20_memory.md rule R90). -/
theorem Memory.read_write {m : Memory} (h : m.wf = true) (a b : Nat) (v : Byte) :
    (m.write a v).read b = if b = a then v else m.read b := by
  rw [Memory.wf_iff] at h
  unfold Memory.write Memory.read
  split
  · rw [cellAt_eraseCell h.1]
    by_cases hb : b = a
    · subst hb
      simp_all
    · simp [hb]
  · rw [cellAt_insertCell]
    by_cases hb : b = a <;> simp [hb]

/-- A write leaves every other byte alone, whatever the form of the memory. -/
theorem cellAt_eraseCell_other {a b : Nat} (hb : b ≠ a) (cs : List Host.Cell) :
    cellAt b (eraseCell a cs) = cellAt b cs := by
  induction cs with
  | nil => rfl
  | cons c cs ih =>
    unfold eraseCell
    split
    · subst_vars
      simp [cellAt, hb]
    · simp [cellAt, ih]

theorem Memory.read_write_other (m : Memory) {a b : Nat} (hb : b ≠ a) (v : Byte) :
    (m.write a v).read b = m.read b := by
  unfold Memory.write Memory.read
  split
  · rw [cellAt_eraseCell_other hb]
  · rw [cellAt_insertCell]
    simp [hb]

/-- A write keeps the canonical form. -/
theorem Memory.wf_write {m : Memory} (h : m.wf = true) (a : Nat) (v : Byte) : (m.write a v).wf = true := by
  rw [Memory.wf_iff] at h ⊢
  unfold Memory.write
  split
  · exact ⟨rising_eraseCell h.1, fun c hc => h.2 c (mem_eraseCell hc)⟩
  · refine ⟨rising_insertCell h.1, fun c hc => ?_⟩
    rcases mem_insertCell hc with rfl | hc
    · assumption
    · exact h.2 c hc

@[simp] theorem Memory.lay_fill (m : Memory) (a : Nat) (bs : List (Option Byte)) : (m.lay a bs).fill = m.fill := by
  induction bs generalizing m a with
  | nil => rfl
  | cons b bs ih => cases b <;> simp [Memory.lay, ih]

/-- Laying bytes down keeps the canonical form. -/
theorem Memory.wf_lay {m : Memory} (h : m.wf = true) (a : Nat) (bs : List (Option Byte)) : (m.lay a bs).wf = true := by
  induction bs generalizing m a with
  | nil => exact h
  | cons b bs ih =>
    cases b with
    | none => exact ih h (a + 1)
    | some v => exact ih (Memory.wf_write h a v) (a + 1)

/-- A laid list touches only the addresses of its bytes. -/
theorem Memory.read_lay_off {b : Nat} {bs : List (Option Byte)} {a : Nat} (m : Memory)
    (h : ∀ k v, bs[k]? = some (some v) → a + k ≠ b) : (m.lay a bs).read b = m.read b := by
  induction bs generalizing m a with
  | nil => rfl
  | cons c cs ih =>
    have hs : ∀ k v, cs[k]? = some (some v) → a + 1 + k ≠ b := by
      intro k v hk
      have := h (k + 1) v (by simpa using hk)
      omega
    cases c with
    | none => exact ih m hs
    | some v =>
      have h0 : b ≠ a := fun e => h 0 v rfl e.symm
      exact (ih (m.write a v) hs).trans (m.read_write_other h0 v)

/-- A laid byte reads back. -/
theorem Memory.read_lay_at {bs : List (Option Byte)} {a k : Nat} {v : Byte} {m : Memory} (hm : m.wf = true)
    (h : bs[k]? = some (some v)) : (m.lay a bs).read (a + k) = v := by
  induction bs generalizing m a k with
  | nil => simp at h
  | cons c cs ih =>
    cases k with
    | zero =>
      simp only [List.getElem?_cons_zero, Option.some.injEq] at h
      subst h
      have h0 := (m.write a v).read_lay_off (bs := cs) (a := a + 1) (b := a + 0) fun j _ _ => by omega
      refine h0.trans ?_
      rw [Memory.read_write hm]
      simp
    | succ k =>
      have h : cs[k]? = some (some v) := by simpa using h
      have e : a + (k + 1) = a + 1 + k := by omega
      rw [e]
      cases c with
      | none => exact ih hm h
      | some u => exact ih (Memory.wf_write hm a u) h

theorem wf_layData {m : Memory} (h : m.wf = true) (bs : List DataBlock) : (layData m bs).wf = true := by
  induction bs generalizing m with
  | nil => exact h
  | cons b bs ih => exact ih (Memory.wf_lay h _ _)

theorem wf_layCode {m : Memory} (h : m.wf = true) (ds : List Descriptor) : (layCode m ds).wf = true := by
  induction ds generalizing m with
  | nil => exact h
  | cons d ds ih => exact ih (Memory.wf_lay h _ _)

theorem wf_layProgram {m : Memory} (h : m.wf = true) (memMax : Nat) (p : Program) :
    (layProgram memMax p m).wf = true := by
  unfold layProgram
  split
  · exact wf_layCode (wf_layData h _) _
  · exact h

theorem wf_policyMemory {m : Memory} (h : m.wf = true) (policy : Policy) (n : Nat) :
    (policyMemory policy n m).wf = true := by
  cases policy
  · exact h
  · rfl
  · rfl

/-- The memory after a reset has the canonical form. -/
theorem wf_resetState {s : State} (h : s.mem.wf = true) (p : Program) (policy : Policy) :
    (resetState p policy s).mem.wf = true :=
  wf_layProgram (wf_policyMemory h policy s.draws) _ p

/-- The memory of the reset state has the canonical form. -/
theorem State.reset_mem_wf : State.reset.mem.wf = true := rfl

/-- Bytes whose literals lie in `[0, n]` list no cell outside it (10_state.md rule R40). -/
theorem lay_bounded {m : Memory} {n : Nat} (h : ∀ c ∈ m.cells, c.1 ≤ n) {a : Nat} {bs : List (Option Byte)}
    (hb : literalsInside n a bs = true) : ∀ c ∈ (m.lay a bs).cells, c.1 ≤ n := by
  induction bs generalizing m a with
  | nil => exact h
  | cons b bs ih =>
    cases b with
    | none => exact ih h hb
    | some v =>
      simp only [literalsInside, Bool.and_eq_true, decide_eq_true_eq] at hb
      refine ih (fun c hc => ?_) hb.2
      unfold Memory.write at hc
      split at hc
      · exact h c (mem_eraseCell hc)
      · rcases mem_insertCell hc with rfl | hc
        · exact hb.1
        · exact h c hc

/-- Bytes that all lie in memory hold no literal outside it. -/
theorem literalsInside_of_length {n a : Nat} {bs : List (Option Byte)} (h : a + bs.length ≤ n + 1) :
    literalsInside n a bs = true := by
  induction bs generalizing a with
  | nil => rfl
  | cons b bs ih =>
    simp only [List.length_cons] at h
    have := ih (a := a + 1) (by omega)
    cases b <;> simp [literalsInside, this]
    omega

end Sys2Proof.Machine
end

