-- ==== Sys2Proof/Laws/Micro.lean ====
section
/-! SUPPORT. Running micro-operations. `Does m s a x f` says what a sequence of micro-operations does under any host that ends
no cycle: it goes on with `a`, the architectural part becomes `x`, and of the devices `f` is changed, the rest only by the
host. `Fails` is the same for one that ends early. Each shared operation has its lemma here. -/

namespace Sys2Proof.Machine

/-! ## Sequencing -/

theorem bind_apply {α β : Type} (m : Micro α) (k : α → Micro β) (s : State) :
    (m >>= k) s = (match m s with
      | .ok a t => k a t
      | .error e t => .error e t) := by
  show EStateM.bind m k s = _
  unfold EStateM.bind
  cases m s <;> rfl

theorem pure_apply {α : Type} (a : α) (s : State) : (pure a : Micro α) s = .ok a s := rfl

theorem look_apply {α : Type} (f : State → α) (s : State) : look f s = .ok (f s) s := rfl

theorem look_bind {α β : Type} (f : State → α) (k : α → Micro β) (s : State) : (look f >>= k) s = k (f s) s := by
  rw [bind_apply, look_apply]

theorem commit_apply (f : State → State) (s : State) : commit f s = .ok () (f s) := rfl

theorem stop_apply {α : Type} (s : State) : (stop : Micro α) s = .error () s := rfl

/-- A change of the devices that sends equal settings to equal settings. -/
def settled (f : Devices → Devices) : Prop :=
  ∀ d d' : Devices, d.settings = d'.settings → (f d).settings = (f d').settings

theorem settled_id : settled id := fun _ _ h => h

/-- What a sequence of micro-operations that goes on does. -/
def Does {α : Type} (m : Micro α) (s : State) (a : α) (x : Arch) (f : Devices → Devices) : Prop :=
  ∃ t, m s = .ok a t ∧ t.arch = x ∧ hostOnly s t ∧ t.dev.settings = (f s.dev).settings ∧ (s.host = [] → t.dev = f s.dev)

/-- What a sequence of micro-operations that ends early does. -/
def Fails {α : Type} (m : Micro α) (s : State) (x : Arch) (f : Devices → Devices) : Prop :=
  ∃ t, m s = .error () t ∧ t.arch = x ∧ hostOnly s t ∧ t.dev.settings = (f s.dev).settings ∧ (s.host = [] → t.dev = f s.dev)

theorem does_bind {α β : Type} {m : Micro α} {k : α → Micro β} {s : State} {a : α} {b : β} {x y : Arch}
    {f g : Devices → Devices} (hm : Does m s a x f) (hg : settled g)
    (hk : ∀ t, t.undisturbed = true → t.arch = x → Does (k a) t b y g) : Does (m >>= k) s b y (g ∘ f) := by
  obtain ⟨t, h1, h2, h3, h4, h5⟩ := hm
  obtain ⟨u, k1, k2, k3, k4, k5⟩ := hk t h3.1 h2
  refine ⟨u, ?_, k2, hostOnly_trans h3 k3, k4.trans (hg _ _ h4), fun e => ?_⟩
  · rw [bind_apply, h1]
    exact k1
  · rw [k5 (h3.2 e), h5 e]
    rfl

theorem does_then_fails {α β : Type} {m : Micro α} {k : α → Micro β} {s : State} {a : α} {x y : Arch}
    {f g : Devices → Devices} (hm : Does m s a x f) (hg : settled g)
    (hk : ∀ t, t.undisturbed = true → t.arch = x → Fails (k a) t y g) : Fails (m >>= k) s y (g ∘ f) := by
  obtain ⟨t, h1, h2, h3, h4, h5⟩ := hm
  obtain ⟨u, k1, k2, k3, k4, k5⟩ := hk t h3.1 h2
  refine ⟨u, ?_, k2, hostOnly_trans h3 k3, k4.trans (hg _ _ h4), fun e => ?_⟩
  · rw [bind_apply, h1]
    exact k1
  · rw [k5 (h3.2 e), h5 e]
    rfl

theorem fails_bind {α β : Type} {m : Micro α} {k : α → Micro β} {s : State} {x : Arch} {f : Devices → Devices}
    (hm : Fails m s x f) : Fails (m >>= k) s x f := by
  obtain ⟨t, h1, h2⟩ := hm
  refine ⟨t, ?_, h2⟩
  rw [bind_apply, h1]

/-- Sequencing of steps that leave the devices to the host. -/
theorem does_seq {α β : Type} {m : Micro α} {k : α → Micro β} {s : State} {a : α} {b : β} {x y : Arch}
    (hm : Does m s a x id) (hk : ∀ t, t.undisturbed = true → t.arch = x → Does (k a) t b y id) :
    Does (m >>= k) s b y id := does_bind hm settled_id hk

theorem does_seq_fails {α β : Type} {m : Micro α} {k : α → Micro β} {s : State} {a : α} {x y : Arch}
    (hm : Does m s a x id) (hk : ∀ t, t.undisturbed = true → t.arch = x → Fails (k a) t y id) :
    Fails (m >>= k) s y id := does_then_fails hm settled_id hk

/-! The lemmas below speak of a state `s` through its architectural part `x`, so that they chain. -/

theorem does_pure {α : Type} {s : State} {x : Arch} (hu : s.undisturbed = true) (hx : s.arch = x) (a : α) :
    Does (pure a) s a x id :=
  ⟨s, rfl, hx, ⟨hu, id⟩, rfl, fun _ => rfl⟩

/-- Looking at something of the architectural part. -/
theorem does_look {α : Type} {s : State} {x : Arch} (hu : s.undisturbed = true) (hx : s.arch = x) {f : State → α}
    (g : Arch → α) (hg : ∀ s, f s = g s.arch) : Does (look f) s (g x) x id :=
  ⟨s, by rw [look_apply, hg, hx], hx, ⟨hu, id⟩, rfl, fun _ => rfl⟩

/-- A change that touches neither the devices nor the host. -/
theorem does_commit {s : State} {x : Arch} (hu : s.undisturbed = true) (hx : s.arch = x) {f : State → State}
    (g : Arch → Arch) (hg : ∀ s, (f s).arch = g s.arch) (hd : ∀ s, (f s).dev = s.dev) (hh : ∀ s, (f s).host = s.host) :
    Does (commit f) s () (g x) id :=
  ⟨f s, rfl, by rw [hg, hx], ⟨by simpa [State.undisturbed, hh] using hu, fun e => (hh s).trans e⟩, by rw [hd]; rfl,
    fun _ => hd s⟩

theorem does_boundary {s : State} {x : Arch} (hu : s.undisturbed = true) (hx : s.arch = x) (hs : x.steady) :
    Does boundary s () x id := by
  subst hx
  obtain ⟨h1, h2, h3, h4⟩ := hostTurn_keeps hu hs
  exact ⟨hostTurn s, by simp [boundary, h1], h2, h4, h3.1, h3.2⟩

theorem does_emit {s : State} {x : Arch} (hu : s.undisturbed = true) (hx : s.arch = x) (hs : x.steady) (e : Event) :
    Does (emit e) s () x id :=
  does_seq (does_commit hu hx id (fun _ => rfl) (fun _ => rfl) (fun _ => rfl)) fun _ ht hy => does_boundary ht hy hs

/-- An event under a host that ends no cycle, wherever the engine is. -/
theorem emit_calm {s : State} (h : s.undisturbed = true) (e : Event) : emit e s = .ok () (hostTurn (s.log [e])) := by
  have hu : (s.log [e]).undisturbed = true := h
  show boundary (s.log [e]) = _
  simp [boundary, (hostTurn_calm hu).1]

/-- An event under a host that acts no more. -/
theorem emit_quiet {s : State} (h : s.host = []) (e : Event) : emit e s = .ok () (s.log [e]) := by
  have hl : (s.log [e]).host = [] := h
  rw [emit_calm (by simp [State.undisturbed, h]), hostTurn_nil hl]

/-- A register write, or any other change of the architectural part and the latches, reported by an event. -/
theorem does_report {s : State} {x : Arch} (hu : s.undisturbed = true) (hx : s.arch = x) {f : State → State}
    (g : Arch → Arch) (hg : ∀ s, (f s).arch = g s.arch) (hd : ∀ s, (f s).dev = s.dev) (hh : ∀ s, (f s).host = s.host)
    (hs : (g x).steady) (e : Event) : Does (do commit f; emit e) s () (g x) id :=
  does_seq (does_commit hu hx g hg hd hh) fun _ ht hy => does_emit ht hy hs e

theorem emitAll_quiet {s : State} (h : s.host = []) (es : List Event) :
    emitAll es s = .ok () { s with events := es.reverse ++ s.events } := by
  induction es generalizing s with
  | nil => rfl
  | cons e es ih =>
    simp only [emitAll, bind_apply, emit_quiet h]
    rw [ih (by exact h)]
    simp [State.log]

theorem does_emitAll {s : State} {x : Arch} (hu : s.undisturbed = true) (hx : s.arch = x) (hs : x.steady)
    (es : List Event) : Does (emitAll es) s () x id := by
  induction es generalizing s with
  | nil => exact does_pure hu hx ()
  | cons e es ih => exact does_seq (does_emit hu hx hs e) fun t ht hy => ih ht hy

/-- A fault ends the micro-operations with the fault recorded and the cycle ending on it. -/
theorem fails_raise {α : Type} {s : State} {x : Arch} (hu : s.undisturbed = true) (hx : s.arch = x) (hs : x.steady)
    (f : Fault) : Fails (raise f : Micro α) s (x.faulting f) id :=
  does_seq_fails (does_commit hu hx (fun x => x.faulting f) (fun _ => rfl) (fun _ => rfl) (fun _ => rfl))
    fun _ ht hy =>
      does_seq_fails (does_emit ht hy ⟨hs.1, by simp [Arch.faulting]⟩ _) fun u hv hz =>
        ⟨u, rfl, hz, ⟨hv, id⟩, rfl, fun _ => rfl⟩

/-! ## Registers and latches -/

theorem does_setReg {s : State} {x : Arch} (hu : s.undisturbed = true) (hx : s.arch = x) (hs : x.steady) {w : Width}
    (r : Reg w) (v : BitVec w.bits) : Does (setReg r v) s () { x with regs := x.regs.set r v } id := by
  refine does_report hu hx (fun x => { x with regs := x.regs.set r v }) ?_ ?_ ?_ hs _ <;> intro _ <;> rfl

theorem does_setIp {s : State} {x : Arch} (hu : s.undisturbed = true) (hx : s.arch = x) (hs : x.steady) (v : Word) :
    Does (setIp v) s () (x.putIp v) id := by
  refine does_report hu hx (fun x => x.putIp v) ?_ ?_ ?_ hs _ <;> intro _ <;> rfl

theorem does_setFlags {s : State} {x : Arch} (hu : s.undisturbed = true) (hx : s.arch = x) (hs : x.steady) (v : Word) :
    Does (setFlags v) s () (x.putFlags v) id := by
  refine does_report hu hx (fun x => x.putFlags v) ?_ ?_ ?_ hs _ <;> intro _ <;> rfl

theorem does_setRi {s : State} {x : Arch} (hu : s.undisturbed = true) (hx : s.arch = x) (hs : x.steady) (v : Word) :
    Does (setRi v) s () x id := by
  refine does_report hu hx id ?_ ?_ ?_ hs _ <;> intro _ <;> rfl

theorem does_setId {s : State} {x : Arch} (hu : s.undisturbed = true) (hx : s.arch = x) (hs : x.steady) (v : Word) :
    Does (setId v) s () x id := by
  refine does_report hu hx id ?_ ?_ ?_ hs _ <;> intro _ <;> rfl

theorem does_setIr {s : State} {x : Arch} (hu : s.undisturbed = true) (hx : s.arch = x) (hs : x.steady) (v : Byte) :
    Does (setIr v) s () x id := by
  refine does_report hu hx id ?_ ?_ ?_ hs _ <;> intro _ <;> rfl

theorem does_setMar {s : State} {x : Arch} (hu : s.undisturbed = true) (hx : s.arch = x) (hs : x.steady) (a : Nat) :
    Does (setMar a) s () x id := by
  refine does_report hu hx id ?_ ?_ ?_ hs _ <;> intro _ <;> rfl

theorem does_setMbr {s : State} {x : Arch} (hu : s.undisturbed = true) (hx : s.arch = x) (hs : x.steady) (v : Byte) :
    Does (setMbr v) s () x id := by
  refine does_report hu hx id ?_ ?_ ?_ hs _ <;> intro _ <;> rfl

/-- The ALU micro-operation (40_engine.md rule R161): the result, and FLAGS with the ALU's four bits replaced. -/
theorem does_aluOp {s : State} {x : Arch} (hu : s.undisturbed = true) (hx : s.arch = x) (hs : x.steady) {n : Nat}
    (op : AluOp) (a b : BitVec n) :
    Does (aluOp op a b) s (alu op a b (flagCF x.regs.flags)).res
      (x.putFlags (flagsAfter x.regs.flags (alu op a b (flagCF x.regs.flags)))) id :=
  does_seq (does_look hu hx (fun x => x.regs.flags) (fun _ => rfl)) fun _ ht hy =>
    does_seq (does_commit ht hy
        (fun y => y.putFlags (flagsAfter x.regs.flags (alu op a b (flagCF x.regs.flags))))
        (fun _ => rfl) (fun _ => rfl) (fun _ => rfl)) fun _ hv hz =>
      does_seq (does_emit hv hz hs _) fun _ hw hq => does_pure hw hq _

/-! ## Memory transactions -/

/-- Reserved, read from the architectural part. -/
def Arch.reserved (x : Arch) (a : Nat) : Bool := x.program.descriptors.any (fun d => d.covers a)

theorem State.reserved_arch (s : State) (a : Nat) : s.reserved a = s.arch.reserved a := rfl

theorem does_memReadByte {s : State} {x : Arch} (hu : s.undisturbed = true) (hx : s.arch = x) (hs : x.steady) {a : Nat}
    (ha : a ≤ x.params.memMax) : Does (memReadByte a) s (x.mem.read a) x id := by
  refine does_seq (does_setMar hu hx hs a) fun _ ht hy => ?_
  refine does_seq (does_look ht hy (fun x => x.params.memMax) (fun _ => rfl)) fun _ ht hy => ?_
  rw [if_pos ha]
  refine does_seq (does_look ht hy (fun x => x.mem.read a) (fun _ => rfl)) fun _ ht hy => ?_
  refine does_seq (does_emit ht hy hs _) fun _ ht hy => ?_
  refine does_seq (does_setMbr ht hy hs _) fun _ ht hy => ?_
  exact does_pure ht hy _

theorem fails_busFault {α : Type} {s : State} {x : Arch} (hu : s.undisturbed = true) (hx : s.arch = x) (hs : x.steady)
    (kind : BusKind) (a : Nat) (f : Fault) : Fails (busFault kind a f : Micro α) s (x.faulting f) id :=
  does_seq_fails (does_emit hu hx hs _) fun _ ht hy => fails_raise ht hy hs f

theorem fails_memReadByte {s : State} {x : Arch} (hu : s.undisturbed = true) (hx : s.arch = x) (hs : x.steady) {a : Nat}
    (ha : x.params.memMax < a) : Fails (memReadByte a) s (x.faulting (.memOutOfRange a)) id := by
  refine does_seq_fails (does_setMar hu hx hs a) fun _ ht hy => ?_
  refine does_seq_fails (does_look ht hy (fun x => x.params.memMax) (fun _ => rfl)) fun _ ht hy => ?_
  rw [if_neg (by omega)]
  exact fails_busFault ht hy hs _ _ _

theorem does_memWriteByte {s : State} {x : Arch} (hu : s.undisturbed = true) (hx : s.arch = x) (hs : x.steady) {a : Nat}
    (ha : a ≤ x.params.memMax) (hr : x.reserved a = false) (v : Byte) :
    Does (memWriteByte a v) s () { x with mem := x.mem.write a v } id := by
  refine does_seq (does_setMar hu hx hs a) fun _ ht hy => ?_
  refine does_seq (does_setMbr ht hy hs v) fun _ ht hy => ?_
  refine does_seq (does_look ht hy (fun x => x.params.memMax) (fun _ => rfl)) fun _ ht hy => ?_
  rw [if_pos ha]
  refine does_seq (does_look ht hy (fun x => x.reserved a) (fun _ => rfl)) fun _ ht hy => ?_
  simp only [hr, Bool.false_eq_true, if_false]
  refine does_report ht hy (fun x => { x with mem := x.mem.write a v }) ?_ ?_ ?_ hs _ <;> intro _ <;> rfl

theorem fails_memWriteByte_range {s : State} {x : Arch} (hu : s.undisturbed = true) (hx : s.arch = x) (hs : x.steady)
    {a : Nat} (ha : x.params.memMax < a) (v : Byte) :
    Fails (memWriteByte a v) s (x.faulting (.memOutOfRange a)) id := by
  refine does_seq_fails (does_setMar hu hx hs a) fun _ ht hy => ?_
  refine does_seq_fails (does_setMbr ht hy hs v) fun _ ht hy => ?_
  refine does_seq_fails (does_look ht hy (fun x => x.params.memMax) (fun _ => rfl)) fun _ ht hy => ?_
  rw [if_neg (by omega)]
  exact fails_busFault ht hy hs _ _ _

theorem fails_memWriteByte_code {s : State} {x : Arch} (hu : s.undisturbed = true) (hx : s.arch = x) (hs : x.steady)
    {a : Nat} (ha : a ≤ x.params.memMax) (hr : x.reserved a = true) (v : Byte) :
    Fails (memWriteByte a v) s (x.faulting (.memWriteReserved a)) id := by
  refine does_seq_fails (does_setMar hu hx hs a) fun _ ht hy => ?_
  refine does_seq_fails (does_setMbr ht hy hs v) fun _ ht hy => ?_
  refine does_seq_fails (does_look ht hy (fun x => x.params.memMax) (fun _ => rfl)) fun _ ht hy => ?_
  rw [if_pos ha]
  refine does_seq_fails (does_look ht hy (fun x => x.reserved a) (fun _ => rfl)) fun _ ht hy => ?_
  simp only [hr, if_true]
  exact fails_busFault ht hy hs _ _ _

/-- `MemRead(a, n)` within memory (20_memory.md rules R65, R66). -/
theorem does_memRead {s : State} {x : Arch} (hu : s.undisturbed = true) (hx : s.arch = x) (hs : x.steady) {w : Width}
    {a : Nat} (ha : a + w.bytes ≤ x.params.memMax + 1) : Does (memRead w a) s (x.mem.load w a) x id := by
  cases w with
  | w8 => exact does_memReadByte hu hx hs (by simp only [Width.bytes] at ha; omega)
  | w16 =>
    simp only [Width.bytes] at ha
    refine does_seq (does_memReadByte hu hx hs (by omega)) fun _ ht hy => ?_
    refine does_seq (does_memReadByte ht hy hs (by omega)) fun _ ht hy => ?_
    exact does_pure ht hy _

/-- `MemRead(a, n)` whose byte `bad` is the first outside memory (20_memory.md rules R62, R66). -/
theorem fails_memRead {s : State} {x : Arch} (hu : s.undisturbed = true) (hx : s.arch = x) (hs : x.steady) {w : Width}
    {a bad : Nat} (hb : bad = a ∧ x.params.memMax < bad ∨ w = .w16 ∧ a = x.params.memMax ∧ bad = a + 1) :
    Fails (memRead w a) s (x.faulting (.memOutOfRange bad)) id := by
  rcases hb with ⟨rfl, hb⟩ | ⟨rfl, ha, rfl⟩
  · cases w with
    | w8 => exact fails_memReadByte hu hx hs hb
    | w16 => exact fails_bind (fails_memReadByte hu hx hs hb)
  · refine does_seq_fails (does_memReadByte hu hx hs (by omega)) fun _ ht hy => ?_
    exact fails_bind (fails_memReadByte ht hy hs (by omega))

/-- `MemWrite(a, n, v)` within memory and off the code (20_memory.md rules R65, R67). -/
theorem does_memWrite {s : State} {x : Arch} (hu : s.undisturbed = true) (hx : s.arch = x) (hs : x.steady) {w : Width}
    {a : Nat} (ha : a + w.bytes ≤ x.params.memMax + 1) (hr : ∀ b, within w a b → x.reserved b = false)
    (v : BitVec w.bits) : Does (memWrite w a v) s () { x with mem := x.mem.store w a v } id := by
  cases w with
  | w8 =>
    simp only [Width.bytes] at ha
    exact does_memWriteByte hu hx hs (by omega) (hr a ⟨Nat.le_refl _, by simp [Width.bytes]⟩) v
  | w16 =>
    simp only [Width.bytes] at ha
    refine does_seq (does_memWriteByte hu hx hs (by omega) (hr a ⟨Nat.le_refl _, by simp [Width.bytes]⟩) _)
      fun _ ht hy => ?_
    exact does_memWriteByte ht hy hs (by simpa using (by omega : a + 1 ≤ x.params.memMax))
      (hr (a + 1) ⟨by omega, by simp [Width.bytes]⟩) _

/-! ## The stack -/

/-- Push with room below SP and a writable slot (40_engine.md rule R150). -/
theorem does_push {s : State} {x : Arch} (hu : s.undisturbed = true) (hx : s.arch = x) (hs : x.steady)
    (hsp : 2 ≤ x.regs.sp.toNat) (ha : (x.regs.sp - 2).toNat + 2 ≤ x.params.memMax + 1)
    (hr : ∀ b, within .w16 (x.regs.sp - 2).toNat b → x.reserved b = false) (v : Word) :
    Does (push v) s () (x.pushed v) id := by
  refine does_seq (does_look hu hx (fun x => x.regs.sp) (fun _ => rfl)) fun _ ht hy => ?_
  rw [if_neg (by omega)]
  refine does_seq (does_setReg ht hy hs Reg.sp _) fun _ ht hy => ?_
  exact does_memWrite ht hy hs ha hr v

theorem fails_push {s : State} {x : Arch} (hu : s.undisturbed = true) (hx : s.arch = x) (hs : x.steady)
    (hsp : x.regs.sp.toNat < 2) (v : Word) :
    Fails (push v) s (x.faulting (.stackOverflow x.regs.sp)) id := by
  refine does_seq_fails (does_look hu hx (fun x => x.regs.sp) (fun _ => rfl)) fun _ ht hy => ?_
  rw [if_pos hsp]
  exact fails_raise ht hy hs _

/-- Pop below the high bound (40_engine.md rule R151). -/
theorem does_pop {s : State} {x : Arch} (hu : s.undisturbed = true) (hx : s.arch = x) (hs : x.steady)
    (ha : x.regs.sp.toNat + 2 ≤ x.params.memMax + 1) :
    Does pop s (x.mem.load .w16 x.regs.sp.toNat) x.popped id := by
  refine does_seq (does_look hu hx (fun x => x.regs.sp) (fun _ => rfl)) fun _ ht hy => ?_
  refine does_seq (does_look ht hy (fun x => x.params.memMax) (fun _ => rfl)) fun _ ht hy => ?_
  rw [if_neg (by omega)]
  refine does_seq (does_memRead ht hy hs (w := .w16) (by simpa [Width.bytes] using ha)) fun _ ht hy => ?_
  refine does_seq (does_setReg ht hy hs Reg.sp _) fun _ ht hy => ?_
  exact does_pure ht hy _

theorem fails_pop {s : State} {x : Arch} (hu : s.undisturbed = true) (hx : s.arch = x) (hs : x.steady)
    (ha : x.params.memMax + 1 < x.regs.sp.toNat + 2) :
    Fails pop s (x.faulting (.stackUnderflow x.regs.sp)) id := by
  refine does_seq_fails (does_look hu hx (fun x => x.regs.sp) (fun _ => rfl)) fun _ ht hy => ?_
  refine does_seq_fails (does_look ht hy (fun x => x.params.memMax) (fun _ => rfl)) fun _ ht hy => ?_
  rw [if_pos (by omega)]
  exact fails_raise ht hy hs _

/-! ## Operands -/

/-- Finding a place stages at most an address. -/
theorem does_resolve {s : State} {x : Arch} (hu : s.undisturbed = true) (hx : s.arch = x) (hs : x.steady) {w : Width}
    (d : Loc w) : Does (resolve d) s (placeOf d x.regs) x id := by
  cases d with
  | reg r => exact does_pure hu hx _
  | mem m =>
    refine does_seq (a := ea m x.regs) ?_ fun _ ht hy => does_pure ht hy _
    refine does_seq (does_look hu hx (fun x => ea m x.regs) (fun _ => rfl)) fun _ ht hy => ?_
    exact does_seq (does_setRi ht hy hs _) fun _ ht hy => does_pure ht hy _

theorem does_loadOperand {s : State} {x : Arch} (hu : s.undisturbed = true) (hx : s.arch = x) (hs : x.steady) {w : Width}
    {a : Word} (ha : a.toNat + w.bytes ≤ x.params.memMax + 1) :
    Does (loadOperand w a) s (x.mem.load w a.toNat) x id :=
  does_seq (does_memRead hu hx hs ha) fun _ ht hy =>
    does_seq (does_setId ht hy hs _) fun _ ht hy => does_pure ht hy _

/-- Reading a readable place (40_engine.md rule R142). -/
theorem does_readPlace {s r : State} (hu : s.undisturbed = true) (hx : s.arch = r.arch) (hs : r.arch.steady)
    {w : Width} {p : Place w} (hp : r.placeReadable p) : Does (readPlace p) s (r.placeValue p) r.arch id := by
  cases p with
  | reg q => exact does_look hu hx (fun x => x.regs.get q) (fun _ => rfl)
  | mem a => exact does_loadOperand hu hx hs hp

/-- Reading a readable source (40_engine.md rule R142). -/
theorem does_readSource {s r : State} (hu : s.undisturbed = true) (hx : s.arch = r.arch) (hs : r.arch.steady)
    {w : Width} {q : Source w} (hq : r.sourceReadable q) : Does (readSource q) s (r.sourceValue q) r.arch id := by
  cases q with
  | reg q => exact does_look hu hx (fun x => x.regs.get q) (fun _ => rfl)
  | imm v => exact does_pure hu hx _
  | mem m =>
    refine does_seq (a := ea m r.regs) ?_ fun _ ht hy => does_loadOperand ht hy hs hq
    refine does_seq (does_look hu hx (fun x => ea m x.regs) (fun _ => rfl)) fun _ ht hy => ?_
    exact does_seq (does_setRi ht hy hs _) fun _ ht hy => does_pure ht hy _

/-- Writing a place that `r`, of the same parameters and Program, can write (40_engine.md rule R143). -/
theorem does_writePlace {s r : State} {x : Arch} (hu : s.undisturbed = true) (hx : s.arch = x) (hs : x.steady)
    (hpa : x.params = r.params) (hpr : x.program = r.program) {w : Width} {p : Place w} (hp : r.placeWritable p)
    (v : BitVec w.bits) : Does (writePlace p v) s () (x.put p v) id := by
  cases p with
  | reg r => exact does_setReg hu hx hs r v
  | mem a =>
    refine does_memWrite hu hx hs (hpa ▸ hp.1) (fun b hb => ?_) v
    rw [Arch.reserved, hpr]
    exact hp.2 b hb

/-- A byte that cannot be written, in a state of the parameters and Program of `r` (20_memory.md rule R63). -/
theorem fails_memWriteByte {s r : State} {x : Arch} (hu : s.undisturbed = true) (hx : s.arch = x) (hs : x.steady)
    (hpa : x.params = r.params) (hpr : x.program = r.program) {a : Nat} {f : Fault} (hf : r.byteWriteFault a = some f)
    (v : Byte) : Fails (memWriteByte a v) s (x.faulting f) id := by
  unfold State.byteWriteFault at hf
  split_ifs at hf with h1 h2
  · exact Option.some.inj hf ▸ fails_memWriteByte_range hu hx hs (hpa ▸ h1) v
  · exact Option.some.inj hf ▸
      fails_memWriteByte_code hu hx hs (hpa ▸ (by omega)) (by rw [Arch.reserved, hpr]; exact h2) v

/-- A write whose first byte cannot be written: nothing is stored (20_memory.md rules R63, R67). -/
theorem fails_memWrite_first {s r : State} {x : Arch} (hu : s.undisturbed = true) (hx : s.arch = x) (hs : x.steady)
    (hpa : x.params = r.params) (hpr : x.program = r.program) {w : Width} {a : Nat} {f : Fault}
    (hf : r.byteWriteFault a = some f) (v : BitVec w.bits) : Fails (memWrite w a v) s (x.faulting f) id := by
  cases w with
  | w8 => exact fails_memWriteByte hu hx hs hpa hpr hf v
  | w16 => exact fails_bind (fails_memWriteByte hu hx hs hpa hpr hf _)

/-- A word write whose second byte alone cannot be written: the low byte is stored (20_memory.md rule R67). -/
theorem fails_memWrite_second {s r : State} {x : Arch} (hu : s.undisturbed = true) (hx : s.arch = x) (hs : x.steady)
    (hpa : x.params = r.params) (hpr : x.program = r.program) {a : Nat} {f : Fault}
    (h0 : r.byteWriteFault a = none) (hf : r.byteWriteFault (a + 1) = some f) (v : Word) :
    Fails (memWrite .w16 a v) s (({ x with mem := x.mem.write a (lowByte v) } : Arch).faulting f) id := by
  unfold State.byteWriteFault at h0
  split_ifs at h0 with h1 h2
  exact does_seq_fails (does_memWriteByte hu hx hs (hpa ▸ (by omega))
    (by rw [Arch.reserved, hpr]; exact Bool.eq_false_iff.mpr h2) _) fun _ ht hy => fails_memWriteByte ht hy hs hpa hpr hf _

/-- A memory place whose first byte cannot be written (40_engine.md rule R143). -/
theorem fails_writePlace_first {s r : State} {x : Arch} (hu : s.undisturbed = true) (hx : s.arch = x) (hs : x.steady)
    (hpa : x.params = r.params) (hpr : x.program = r.program) {w : Width} {a : Word} {f : Fault}
    (hf : r.byteWriteFault a.toNat = some f) (v : BitVec w.bits) :
    Fails (writePlace (.mem a) v) s (x.faulting f) id := fails_memWrite_first hu hx hs hpa hpr hf v

/-- A word place whose second byte alone cannot be written (40_engine.md rule R143). -/
theorem fails_writePlace_second {s r : State} {x : Arch} (hu : s.undisturbed = true) (hx : s.arch = x) (hs : x.steady)
    (hpa : x.params = r.params) (hpr : x.program = r.program) {a : Word} {f : Fault}
    (h0 : r.byteWriteFault a.toNat = none) (hf : r.byteWriteFault (a.toNat + 1) = some f) (v : Word) :
    Fails (writePlace (w := .w16) (.mem a) v) s
      (({ x with mem := x.mem.write a.toNat (lowByte v) } : Arch).faulting f) id :=
  fails_memWrite_second hu hx hs hpa hpr h0 hf v

/-! ## Outcomes -/

/-- The next state of an instruction whose micro-operations go on. -/
theorem does_perform {m : Micro Unit} {s : State} {x : Arch} {f : Devices → Devices} (h : Does m s () x f) :
    ∃ t, perform m s = .next t ∧ t.arch = x ∧ hostOnly s t ∧ t.dev.settings = (f s.dev).settings ∧
      (s.host = [] → t.dev = f s.dev) := by
  obtain ⟨t, h1, h2⟩ := h
  exact ⟨t, by simp [perform, after, h1], h2⟩

/-- The next state of an instruction whose micro-operations end early. -/
theorem fails_perform {m : Micro Unit} {s : State} {x : Arch} {f : Devices → Devices} (h : Fails m s x f) :
    ∃ t, perform m s = .next t ∧ t.arch = x ∧ hostOnly s t ∧ t.dev.settings = (f s.dev).settings ∧
      (s.host = [] → t.dev = f s.dev) := by
  obtain ⟨t, h1, h2⟩ := h
  exact ⟨t, by simp [perform, after, h1], h2⟩

/-- A machine in its execute phase waits for nothing. -/
theorem State.executing_steady {s : State} (h : s.executing) : s.arch.steady := by
  obtain ⟨h1, h2, _⟩ := h
  constructor <;> simp [h1, h2]

end Sys2Proof.Machine
end

