-- ==== Sys2Proof/Laws/Engine.lean ====
section
/-! SUPPORT. The longer operations of the engine, in the terms of Laws/Micro.lean: interrupt entry and return, INT 7, I/O, the
fetch, and what follows the execute phase. -/

namespace Sys2Proof.Machine

/-! ## The stack slots -/

/-- A push on `x` goes through (40_engine.md rule R150). -/
def Arch.canPush (x : Arch) : Prop :=
  2 ≤ x.regs.sp.toNat ∧ (x.regs.sp - 2).toNat + 2 ≤ x.params.memMax + 1 ∧
    ∀ b, within .w16 (x.regs.sp - 2).toNat b → x.reserved b = false

/-- A pop on `x` goes through (40_engine.md rule R151). -/
def Arch.canPop (x : Arch) : Prop := x.regs.sp.toNat + 2 ≤ x.params.memMax + 1

theorem State.canPush_arch {s : State} (h : s.canPush) : s.arch.canPush := ⟨h.1, h.2.1, h.2.2⟩

theorem State.canPop_arch {s : State} (h : s.canPop) : s.arch.canPop := h

theorem does_push' {s : State} {x : Arch} (hu : s.undisturbed = true) (hx : s.arch = x) (hs : x.steady)
    (h : x.canPush) (v : Word) : Does (push v) s () (x.pushed v) id := does_push hu hx hs h.1 h.2.1 h.2.2 v

/-- A push that faults, in each of its ways, in a state of the parameters and Program of `r` (40_engine.md rule R150). -/
theorem fails_push_any {s r : State} {x y : Arch} (hu : s.undisturbed = true) (hx : s.arch = x) (hs : x.steady)
    (hpa : x.params = r.params) (hpr : x.program = r.program) {v : Word} {f : Fault} (h : r.pushFaults x v y f) :
    Fails (push v) s (y.faulting f) id := by
  rcases h with ⟨h, rfl, rfl⟩ | ⟨h, hf, rfl⟩ | ⟨h, h0, hf, rfl⟩
  · exact fails_push hu hx hs h v
  · refine does_seq_fails (does_look hu hx (fun x => x.regs.sp) (fun _ => rfl)) fun _ ht hy => ?_
    rw [if_neg (by omega)]
    exact does_seq_fails (does_setReg ht hy hs Reg.sp _) fun _ ht hy => fails_memWrite_first (w := .w16) ht hy hs hpa hpr hf v
  · refine does_seq_fails (does_look hu hx (fun x => x.regs.sp) (fun _ => rfl)) fun _ ht hy => ?_
    rw [if_neg (by omega)]
    exact does_seq_fails (does_setReg ht hy hs Reg.sp _) fun _ ht hy => fails_memWrite_second ht hy hs hpa hpr h0 hf v

@[simp] theorem Arch.pushed_steady (x : Arch) (v : Word) : (x.pushed v).steady = x.steady := rfl
@[simp] theorem Arch.putFlags_steady (x : Arch) (v : Word) : (x.putFlags v).steady = x.steady := rfl
@[simp] theorem Arch.putIp_steady (x : Arch) (v : Word) : (x.putIp v).steady = x.steady := rfl
@[simp] theorem Arch.popped_steady (x : Arch) : x.popped.steady = x.steady := rfl

/-! ## Interrupt entry and return -/

/-- What `StartInterrupt(n)` leaves (40_engine.md rule R155). -/
def Arch.entered (x : Arch) (n : Byte) : Arch :=
  let y := ((x.pushed x.regs.flags).putFlags (setIF x.regs.flags false)).pushed x.regs.ip
  y.putIp (y.mem.load .w16 (4 * n.toNat))

/-- Interrupt entry with two writable slots and a readable vector (40_engine.md rule R155). -/
theorem does_startInterrupt {s : State} {x : Arch} (hu : s.undisturbed = true) (hx : s.arch = x) (hs : x.steady)
    {n : Byte} (h1 : x.canPush) (h2 : (x.pushed x.regs.flags).canPush) (hv : 4 * n.toNat + 2 ≤ x.params.memMax + 1) :
    Does (startInterrupt n) s () (x.entered n) id := by
  refine does_seq (does_look hu hx (fun x => x.regs.flags) (fun _ => rfl)) fun _ ht hy => ?_
  refine does_seq (does_push' ht hy hs h1 _) fun _ ht hy => ?_
  refine does_seq (does_setFlags ht hy hs _) fun _ ht hy => ?_
  refine does_seq (does_look ht hy (fun x => x.regs.ip) (fun _ => rfl)) fun _ ht hy => ?_
  refine does_seq (does_push' ht hy hs h2 _) fun _ ht hy => ?_
  refine does_seq (does_memRead ht hy hs (w := .w16) hv) fun _ ht hy => ?_
  exact does_setIp ht hy hs _

/-- Interrupt entry that faults at its first or its second push (40_engine.md rule R155). -/
theorem fails_startInterrupt {s r : State} {x y : Arch} (hu : s.undisturbed = true) (hx : s.arch = x) (hs : x.steady)
    (hpa : x.params = r.params) (hpr : x.program = r.program) {n : Byte} {f : Fault}
    (h : r.pushFaults x x.regs.flags y f ∨ x.canPush ∧ r.pushFaults x.halfEntered x.regs.ip y f) :
    Fails (startInterrupt n) s (y.faulting f) id := by
  refine does_seq_fails (does_look hu hx (fun x => x.regs.flags) (fun _ => rfl)) fun _ ht hy => ?_
  rcases h with h | ⟨h1, h⟩
  · exact fails_bind (fails_push_any ht hy hs hpa hpr h)
  · refine does_seq_fails (does_push' ht hy hs h1 _) fun _ ht hy => ?_
    refine does_seq_fails (does_setFlags ht hy hs _) fun _ ht hy => ?_
    refine does_seq_fails (does_look ht hy (fun x => x.regs.ip) (fun _ => rfl)) fun _ ht hy => ?_
    exact fails_bind (fails_push_any (x := x.halfEntered) ht hy hs hpa hpr h)

/-- What IRET leaves (49_return.md rule R307). -/
def Arch.returned (x : Arch) : Arch :=
  let y := x.popped.putIp (x.mem.load .w16 x.regs.sp.toNat)
  y.popped.putFlags (y.mem.load .w16 y.regs.sp.toNat)

/-- Return with two readable slots (49_return.md rule R307). -/
theorem does_endInterrupt {s : State} {x : Arch} (hu : s.undisturbed = true) (hx : s.arch = x) (hs : x.steady)
    (h1 : x.canPop) (h2 : x.popped.canPop) : Does endInterrupt s () x.returned id := by
  refine does_seq (does_pop hu hx hs h1) fun _ ht hy => ?_
  refine does_seq (does_setIp ht hy hs _) fun _ ht hy => ?_
  refine does_seq (does_pop ht hy hs h2) fun _ ht hy => ?_
  exact does_setFlags ht hy hs _

/-! ## INT 7 -/

/-- What one turn of INT 7 leaves (47_software_interrupt.md rule R287). -/
def Arch.sent (x : Arch) : Arch :=
  let o := alu .add x.regs.bx 1 (flagCF x.regs.flags)
  let y : Arch := { x.putFlags (flagsAfter x.regs.flags o) with
    regs := (x.putFlags (flagsAfter x.regs.flags o)).regs.set Reg.bx o.res }
  let p := alu .sub (y.regs.get Reg.al) 1 (flagCF y.regs.flags)
  { y.putFlags (flagsAfter y.regs.flags p) with
    regs := (y.putFlags (flagsAfter y.regs.flags p)).regs.set Reg.al p.res }

theorem does_transmitByte {s : State} {x : Arch} (hu : s.undisturbed = true) (hx : s.arch = x) (hs : x.steady)
    (h : x.regs.bx.toNat ≤ x.params.memMax) : Does transmitByte s () x.sent id := by
  refine does_seq (does_look hu hx (fun x => x.regs.bx) (fun _ => rfl)) fun _ ht hy => ?_
  refine does_seq (does_memReadByte ht hy hs h) fun _ ht hy => ?_
  refine does_seq (does_emit ht hy hs _) fun _ ht hy => ?_
  refine does_seq (does_look ht hy (fun x => x.regs.bx) (fun _ => rfl)) fun _ ht hy => ?_
  refine does_seq (does_aluOp ht hy hs _ _ _) fun _ ht hy => ?_
  refine does_seq (does_setReg ht hy hs Reg.bx _) fun _ ht hy => ?_
  refine does_seq (does_look ht hy (fun x => x.regs.get Reg.al) (fun _ => rfl)) fun _ ht hy => ?_
  refine does_seq (does_aluOp ht hy hs _ _ _) fun _ ht hy => ?_
  exact does_setReg ht hy hs Reg.al _

theorem fails_transmitByte {s : State} {x : Arch} (hu : s.undisturbed = true) (hx : s.arch = x) (hs : x.steady)
    (h : x.params.memMax < x.regs.bx.toNat) :
    Fails transmitByte s (x.faulting (.memOutOfRange x.regs.bx.toNat)) id := by
  refine does_seq_fails (does_look hu hx (fun x => x.regs.bx) (fun _ => rfl)) fun _ ht hy => ?_
  exact fails_bind (fails_memReadByte ht hy hs h)

/-- One turn of INT 7 sends the byte at BX and nothing else, under a host that acts no more. -/
theorem transmitByte_outputs {s t : State} (h : transmitByte s = .ok () t) (hh : s.host = []) :
    t.host = [] ∧ t.mem = s.mem ∧ t.events.filter Event.isOutput =
      .outputChar (s.mem.read s.regs.bx.toNat) :: s.events.filter Event.isOutput := by
  by_cases hb : s.regs.bx.toNat ≤ s.params.memMax
  · simp only [transmitByte, memReadByte, setMar, setMbr, setReg, aluOp, bind_assoc, bind_apply, commit_apply, pure_apply,
      look_apply, emit_quiet, hh, State.log, hb, if_true, EStateM.Result.ok.injEq, true_and] at h
    subst h
    simp [Event.isOutput, List.filter_cons]
  · simp [transmitByte, memReadByte, setMar, bind_assoc, bind_apply, commit_apply, look_apply, emit_quiet, hh, State.log, hb,
      busFault, raise, stop] at h

/-- FLAGS after INT 7 has sent at least one byte: those of `SUB AL, 1` of 1 (47_software_interrupt.md rule R287). -/
def sentFlags (f : Word) : Word := setAluFlags f false true false false

/-- What INT 7 leaves when every byte can be read (47_software_interrupt.md rule R287). -/
def Arch.sentAll (x : Arch) : Arch :=
  if x.regs.get Reg.al = 0 then x
  else
    { x with
      regs := { x.regs with
        bx := x.regs.bx + (x.regs.get Reg.al).setWidth 16
        ax := joinBytes (highByte x.regs.ax) 0
        flags := sentFlags x.regs.flags } }

theorem Arch.sent_eq (x : Arch) :
    x.sent = { x with
      regs := { x.regs with
        bx := x.regs.bx + 1
        ax := joinBytes (highByte x.regs.ax) (lowByte x.regs.ax - 1)
        flags := flagsAfter x.regs.flags (alu .sub (lowByte x.regs.ax) 1 false) } } := by
  simp only [Arch.sent, Arch.putFlags, Regs.set, Regs.get, alu_add_res, alu_sub_res, flagsAfter, setAluFlags_twice,
    alu_sub_cin _ _ (flagCF _) false]

theorem Arch.sent_sentAll (x : Arch) (h : lowByte x.regs.ax ≠ 0) : x.sent.sentAll = x.sentAll := by
  have one : lowByte x.regs.ax - 1 = 0 → lowByte x.regs.ax = 1 := by
    generalize lowByte x.regs.ax = v
    revert v
    decide
  rw [Arch.sent_eq]
  simp only [Arch.sentAll, Regs.get, lowByte_join, highByte_join, h, if_false]
  split
  · rename_i h0
    rw [h0, one h0]
    rfl
  · simp only [flagsAfter, sentFlags, setAluFlags_twice]
    congr 2
    rw [BitVec.add_assoc]
    congr 1
    generalize lowByte x.regs.ax = v at h
    revert h
    revert v
    decide

theorem does_transmit {s : State} {x : Arch} (hu : s.undisturbed = true) (hx : s.arch = x) (hs : x.steady) {n : Nat}
    (hn : n = (lowByte x.regs.ax).toNat)
    (h : ∀ k, k < n → (x.regs.bx + BitVec.ofNat 16 k).toNat ≤ x.params.memMax) :
    Does (transmit n) s () x.sentAll id := by
  induction n generalizing s x with
  | zero =>
    have h0 : lowByte x.regs.ax = 0 := BitVec.eq_of_toNat_eq (by simpa using hn.symm)
    have he : x.sentAll = x := by simp [Arch.sentAll, Regs.get, h0]
    rw [he]
    exact does_pure hu hx ()
  | succ n ih =>
    have h0 : lowByte x.regs.ax ≠ 0 := by
      intro e
      simp [e] at hn
    refine does_seq (does_look hu hx (fun x => x.regs.get Reg.al) (fun _ => rfl)) fun _ ht hy => ?_
    rw [if_neg (show x.regs.get Reg.al ≠ 0 from h0)]
    refine does_seq (does_transmitByte ht hy hs (by simpa using h 0 (by omega))) fun _ ht hy => ?_
    rw [← Arch.sent_sentAll x h0]
    rw [Arch.sent_eq] at hy ⊢
    refine ih ht hy hs ?_ fun k hk => ?_
    · simp only [lowByte_join]
      have one : ∀ v : Byte, v ≠ 0 → 1 ≤ v := by decide
      have h1 := one _ h0
      rw [BitVec.toNat_sub_of_le h1, ← hn]
      simp
    · have e : x.regs.bx + 1 + BitVec.ofNat 16 k = x.regs.bx + BitVec.ofNat 16 (k + 1) := by
        rw [BitVec.add_assoc]
        congr 1
        apply BitVec.eq_of_toNat_eq
        simp [Nat.add_comm]
      simp only [e]
      exact h (k + 1) (by omega)

/-- What INT 7 leaves after `k` bytes, more being counted (47_software_interrupt.md rule R287). -/
def Arch.sentSome (x : Arch) (k : Nat) : Arch :=
  if k = 0 then x
  else
    let left := lowByte x.regs.ax - BitVec.ofNat 8 k
    { x with
      regs := { x.regs with
        bx := x.regs.bx + BitVec.ofNat 16 k
        ax := joinBytes (highByte x.regs.ax) left
        flags := setAluFlags x.regs.flags false false left.msb (decide (left = 0x7F)) } }

theorem alu_countdown (v : Byte) (h : 1 < v.toNat) (f : Word) :
    flagsAfter f (alu .sub v 1 false) = setAluFlags f false false (v - 1).msb (decide (v - 1 = 0x7F)) := by
  have key : ∀ v : Byte, 1 < v.toNat → (alu .sub v 1 false).cf = false ∧ (alu .sub v 1 false).zf = false ∧
      (alu .sub v 1 false).sf = (v - 1).msb ∧ (alu .sub v 1 false).of = decide (v - 1 = 0x7F) := by decide
  obtain ⟨h1, h2, h3, h4⟩ := key v h
  rw [flagsAfter, h1, h2, h3, h4]

theorem byte_sub_succ (v : Byte) (n : Nat) : v - 1 - BitVec.ofNat 8 n = v - BitVec.ofNat 8 (n + 1) := by
  rw [BitVec.sub_sub]
  congr 1
  apply BitVec.eq_of_toNat_eq
  simp [Nat.add_comm]

theorem word_add_succ (v : Word) (n : Nat) : v + 1 + BitVec.ofNat 16 n = v + BitVec.ofNat 16 (n + 1) := by
  rw [BitVec.add_assoc]
  congr 1
  apply BitVec.eq_of_toNat_eq
  simp [Nat.add_comm]

theorem Arch.sent_sentSome (x : Arch) {k : Nat} (h : k + 1 < (lowByte x.regs.ax).toNat) :
    x.sent.sentSome k = x.sentSome (k + 1) := by
  rw [Arch.sent_eq, alu_countdown _ (by omega)]
  cases k with
  | zero => rfl
  | succ k =>
    simp only [Arch.sentSome, Nat.add_eq_zero_iff, Nat.one_ne_zero, and_false, if_false, lowByte_join, highByte_join,
      setAluFlags_twice, byte_sub_succ, word_add_succ]

/-- INT 7 whose byte `k` is the first outside memory (47_software_interrupt.md rule R287). -/
theorem fails_transmit {s : State} {x : Arch} (hu : s.undisturbed = true) (hx : s.arch = x) (hs : x.steady) {n k : Nat}
    (hn : n = (lowByte x.regs.ax).toNat) (hk : k < n)
    (h : ∀ j, j < k → (x.regs.bx + BitVec.ofNat 16 j).toNat ≤ x.params.memMax)
    (hb : x.params.memMax < (x.regs.bx + BitVec.ofNat 16 k).toNat) :
    Fails (transmit n) s ((x.sentSome k).faulting (.memOutOfRange (x.regs.bx + BitVec.ofNat 16 k).toNat)) id := by
  induction k generalizing s x n with
  | zero =>
    obtain ⟨m, rfl⟩ : ∃ m, n = m + 1 := ⟨n - 1, by omega⟩
    have h0 : lowByte x.regs.ax ≠ 0 := fun e => by simp [e] at hn
    refine does_seq_fails (does_look hu hx (fun x => x.regs.get Reg.al) (fun _ => rfl)) fun _ ht hy => ?_
    rw [if_neg (show x.regs.get Reg.al ≠ 0 from h0)]
    have e : x.regs.bx + BitVec.ofNat 16 0 = x.regs.bx := by simp
    rw [e] at hb ⊢
    exact fails_bind (fails_transmitByte ht hy hs hb)
  | succ k ih =>
    obtain ⟨m, rfl⟩ : ∃ m, n = m + 1 := ⟨n - 1, by omega⟩
    have h0 : lowByte x.regs.ax ≠ 0 := fun e => by simp [e] at hn
    refine does_seq_fails (does_look hu hx (fun x => x.regs.get Reg.al) (fun _ => rfl)) fun _ ht hy => ?_
    rw [if_neg (show x.regs.get Reg.al ≠ 0 from h0)]
    refine does_seq_fails (does_transmitByte ht hy hs (by simpa using h 0 (by omega))) fun _ ht hy => ?_
    rw [← Arch.sent_sentSome x (by omega), ← word_add_succ]
    have hbx : x.sent.regs.bx = x.regs.bx + 1 := by rw [Arch.sent_eq]
    have hax : lowByte x.sent.regs.ax = lowByte x.regs.ax - 1 := by rw [Arch.sent_eq, lowByte_join]
    have hp : x.sent.params = x.params := by rw [Arch.sent_eq]
    have one : ∀ v : Byte, v ≠ 0 → 1 ≤ v := by decide
    have := ih (n := m) ht hy (by rw [Arch.sent_eq]; exact hs)
      (by rw [hax, BitVec.toNat_sub_of_le (one _ h0), ← hn]; simp) (by omega)
      (fun j hj => by rw [hbx, hp, word_add_succ]; exact h (j + 1) (by omega))
      (by rw [hbx, hp, word_add_succ]; exact hb)
    rwa [hbx] at this

/-! ## I/O -/

/-- A write to a device register sends equal settings to equal settings. -/
theorem settled_write (c : Configuration) (r : IoReg) (v : Byte) : settled (fun d => (d.write c r v).1) := by
  intro d d' h
  simp only [Devices.settings, Settings.mk.injEq] at h
  cases r <;> simp [Devices.write, Devices.settings, refreshA, refreshB, Pio.updateA, Pio.updateB, h]

/-- A change of the devices alone. -/
theorem does_devices {s : State} {x : Arch} (hu : s.undisturbed = true) (hx : s.arch = x) (g : Devices → Devices) :
    Does (commit (fun s => { s with dev := g s.dev })) s () x g :=
  ⟨_, rfl, hx, ⟨hu, id⟩, rfl, fun _ => rfl⟩

/-- A claimed I/O read (20_memory.md rule R82): the register's byte, as the host's turns up to the read have left it. -/
theorem does_ioReadByte {s : State} {x : Arch} (hu : s.undisturbed = true) (hx : s.arch = x) (hs : x.steady) {a : Nat}
    {r : IoReg} (ha : a ≤ x.params.ioMax) (hr : chipSelect x.params a = some r) :
    ∃ v, Does (ioReadByte a) s v { x with draws := x.draws + drawsOf r } id ∧
      (s.host = [] → v = s.dev.read x.draws r) := by
  obtain ⟨t, h1, h2, h3, h4, h5⟩ := does_setMar hu hx hs a
  have hp : t.params = x.params := congrArg Arch.params h2
  have hd : t.draws = x.draws := congrArg Arch.draws h2
  refine ⟨t.dev.read t.draws r, ?_, fun e => by rw [h5 e, hd]; rfl⟩
  have key : Does (do
      commit (fun s => { s with draws := s.draws + drawsOf r })
      emit (.bus .ioRead (some a) true)
      setMbr (t.dev.read t.draws r)
      pure (t.dev.read t.draws r)) t (t.dev.read t.draws r) { x with draws := x.draws + drawsOf r } id := by
    refine does_seq (does_commit h3.1 h2 (fun x => { x with draws := x.draws + drawsOf r })
      (fun _ => rfl) (fun _ => rfl) (fun _ => rfl)) fun _ ht hy => ?_
    refine does_seq (does_emit ht hy hs _) fun _ ht hy => ?_
    exact does_seq (does_setMbr ht hy hs _) fun _ ht hy => does_pure ht hy _
  obtain ⟨u, k1, k2, k3, k4, k5⟩ := key
  refine ⟨u, ?_, k2, hostOnly_trans h3 k3, k4.trans h4, fun e => (k5 (h3.2 e)).trans (h5 e)⟩
  unfold ioReadByte
  rw [bind_apply, h1]
  simp only [look_bind, hp, ha, if_true, hr]
  exact k1

/-- An I/O address above IO_MAX, or one no present module claims: the fault (20_memory.md rules R75, R77, R82). -/
def ioFault (p : Params) (a : Nat) : Option Fault :=
  if a ≤ p.ioMax then (if chipSelect p a = none then some (.ioUnclaimed a) else none) else some (.ioOutOfRange a)

theorem ioFault_none {p : Params} {a : Nat} (h : ioFault p a = none) :
    a ≤ p.ioMax ∧ ∃ r, chipSelect p a = some r := by
  unfold ioFault at h
  split_ifs at h with h1 h2
  exact ⟨h1, Option.ne_none_iff_exists'.mp h2⟩

theorem fails_ioReadByte {s : State} {x : Arch} (hu : s.undisturbed = true) (hx : s.arch = x) (hs : x.steady) {a : Nat}
    {f : Fault} (hf : ioFault x.params a = some f) : Fails (ioReadByte a) s (x.faulting f) id := by
  refine does_seq_fails (does_setMar hu hx hs a) fun _ ht hy => ?_
  refine does_seq_fails (does_look ht hy (fun x => x.params) (fun _ => rfl)) fun _ ht hy => ?_
  unfold ioFault at hf
  split_ifs at hf with h1 h2
  · rw [if_pos h1, h2]
    exact Option.some.inj hf ▸ fails_busFault ht hy hs _ _ _
  · rw [if_neg h1]
    exact Option.some.inj hf ▸ fails_busFault ht hy hs _ _ _

/-- A claimed I/O write, with the register's side effects (20_memory.md rule R82). -/
theorem does_ioWriteByte {s : State} {x : Arch} (hu : s.undisturbed = true) (hx : s.arch = x) (hs : x.steady) {a : Nat}
    {r : IoReg} (ha : a ≤ x.params.ioMax) (hr : chipSelect x.params a = some r) (v : Byte) :
    Does (ioWriteByte a v) s () x (fun d => (d.write x.params.config r v).1) := by
  have hw := settled_write x.params.config r v
  refine does_bind (f := id) (does_setMar hu hx hs a) hw fun _ ht hy => ?_
  refine does_bind (f := id) (does_setMbr ht hy hs v) hw fun t ht hy => ?_
  have hp : t.params = x.params := congrArg Arch.params hy
  obtain ⟨u, k1, k2⟩ := does_bind (f := fun d => (d.write x.params.config r v).1) (does_devices ht hy _) settled_id
    (k := fun _ => do
      emit (.bus .ioWrite (some a) true)
      emitAll (t.dev.write x.params.config r v).2)
    fun _ ht hy => does_seq (does_emit ht hy hs _) fun _ ht hy => does_emitAll ht hy hs _
  refine ⟨u, ?_, k2⟩
  simp only [look_bind, hp, ha, if_true, hr]
  exact k1

/-- The strobes a claimed I/O write reports are those of the register's write, under a host that acts no more. -/
theorem ioWriteByte_strobes {s t : State} (hh : s.host = []) {a : Nat} {v : Byte} {r : IoReg} (ha : a ≤ s.params.ioMax)
    (hr : chipSelect s.params a = some r) (h : ioWriteByte a v s = .ok () t) :
    t.events.filter Event.isStrobe =
      ((s.dev.write s.params.config r v).2.filter Event.isStrobe).reverse ++ s.events.filter Event.isStrobe := by
  simp only [ioWriteByte, setMar, setMbr, bind_assoc, bind_apply, look_apply, commit_apply, emit_quiet, hh, State.log, ha, hr,
    if_true, emitAll_quiet, EStateM.Result.ok.injEq, true_and] at h
  subst h
  simp [Event.isStrobe, List.filter_append]

theorem fails_ioWriteByte {s : State} {x : Arch} (hu : s.undisturbed = true) (hx : s.arch = x) (hs : x.steady) {a : Nat}
    {f : Fault} (hf : ioFault x.params a = some f) (v : Byte) : Fails (ioWriteByte a v) s (x.faulting f) id := by
  refine does_seq_fails (does_setMar hu hx hs a) fun _ ht hy => ?_
  refine does_seq_fails (does_setMbr ht hy hs v) fun _ ht hy => ?_
  refine does_seq_fails (does_look ht hy (fun x => x.params) (fun _ => rfl)) fun _ ht hy => ?_
  unfold ioFault at hf
  split_ifs at hf with h1 h2
  · rw [if_pos h1, h2]
    exact Option.some.inj hf ▸ fails_busFault ht hy hs _ _ _
  · rw [if_neg h1]
    exact Option.some.inj hf ▸ fails_busFault ht hy hs _ _ _

/-! ## The cycle -/

theorem does_latchByte {s : State} {x : Arch} (hu : s.undisturbed = true) (hx : s.arch = x) (hs : x.steady)
    (l : LatchSel) (v : Byte) : Does (latchByte l v) s () x id := by
  cases l with
  | ir => exact does_setIr hu hx hs v
  | riLow =>
    obtain ⟨t, h⟩ := does_setRi hu hx hs (joinBytes (highByte s.latches.ri) v)
    exact ⟨t, h⟩
  | riHigh =>
    obtain ⟨t, h⟩ := does_setRi hu hx hs (joinBytes v (lowByte s.latches.ri))
    exact ⟨t, h⟩
  | idLow =>
    obtain ⟨t, h⟩ := does_setId hu hx hs (joinBytes (highByte s.latches.id) v)
    exact ⟨t, h⟩
  | idHigh =>
    obtain ⟨t, h⟩ := does_setId hu hx hs (joinBytes v (lowByte s.latches.id))
    exact ⟨t, h⟩

theorem does_consume {s : State} {x : Arch} (hu : s.undisturbed = true) (hx : s.arch = x) (hs : x.steady)
    (ha : x.regs.ip.toNat ≤ x.params.memMax) (l : LatchSel) :
    Does (consume l) s () (x.putIp (x.regs.ip + 1)) id := by
  refine does_seq (does_look hu hx (fun x => x.regs.ip) (fun _ => rfl)) fun _ ht hy => ?_
  refine does_seq (does_memReadByte ht hy hs ha) fun _ ht hy => ?_
  refine does_seq (does_latchByte ht hy hs _ _) fun _ ht hy => ?_
  refine does_seq (does_look ht hy (fun x => x.regs.ip) (fun _ => rfl)) fun _ ht hy => ?_
  exact does_setIp ht hy hs _

theorem does_consumeAll {s : State} {x : Arch} (hu : s.undisturbed = true) (hx : s.arch = x) (hs : x.steady)
    (addr imm k n : Nat) (ha : ∀ j, j < n → (x.regs.ip + BitVec.ofNat 16 j).toNat ≤ x.params.memMax) :
    Does (consumeAll addr imm k n) s () (x.putIp (x.regs.ip + BitVec.ofNat 16 n)) id := by
  induction n generalizing s x k with
  | zero =>
    have h0 : x.putIp (x.regs.ip + BitVec.ofNat 16 0) = x := by simp [Arch.putIp]
    rw [h0]
    exact does_pure hu hx ()
  | succ n ih =>
    refine does_seq (does_consume hu hx hs (by simpa using ha 0 (by omega)) _) fun _ ht hy => ?_
    have h1 := ih (k := k + 1) ht hy hs fun j hj => by
      show (x.regs.ip + 1 + BitVec.ofNat 16 j).toNat ≤ _
      rw [word_add_succ]
      exact ha (j + 1) (by omega)
    simp only [Arch.putIp, word_add_succ] at h1 ⊢
    exact h1

/-- FETCH: after it IP stands after the instruction (40_engine.md rule R140). -/
theorem does_fetch {s : State} {x : Arch} (hu : s.undisturbed = true) (hx : s.arch = x) (hs : x.steady) (d : Descriptor)
    (ha : ∀ j, j < d.len → (x.regs.ip + BitVec.ofNat 16 j).toNat ≤ x.params.memMax) :
    Does (fetch d) s () (x.putIp (x.regs.ip + BitVec.ofNat 16 d.len)) id := does_consumeAll hu hx hs _ _ 0 _ ha

/-- A cycle opened, nothing else changed. -/
def Arch.open (x : Arch) : Arch := { x with cycle := .opened }

/-- A cycle closed, nothing else changed. -/
def Arch.close (x : Arch) : Arch := { x with cycle := .closed }

theorem does_openCycle {s : State} {x : Arch} (hu : s.undisturbed = true) (hx : s.arch = x)
    (hs : x.run ≠ .awaitChar none) : Does openCycle s () x.open id := by
  refine does_seq (does_commit hu hx (fun x => x.open) (fun _ => rfl) (fun _ => rfl) (fun _ => rfl)) fun _ ht hy => ?_
  refine does_seq (does_look ht hy (fun x => x.regs.ip) (fun _ => rfl)) fun _ ht hy => ?_
  exact does_emit ht hy ⟨hs, by simp [Arch.open]⟩ _

/-- The end of a cycle with outcome continue (40_engine.md rules R130, R134). -/
theorem endCycle_opened {s : State} (hu : s.undisturbed = true) (hc : s.cycle = .opened) (hr : s.run ≠ .awaitChar none) :
    (endCycle s).arch = s.arch.close ∧ devicesKept s (endCycle s) ∧ hostOnly s (endCycle s) := by
  have hs : s.arch.close.steady := ⟨hr, by simp [Arch.close]⟩
  have h := hostTurn_keeps (s := ({ s with cycle := .closed } : State).log [.cycleEnd .continue]) hu hs
  have hx := congrArg Arch.cycle h.2.1
  rw [endCycle_of (.inl hc), State.announceEnd_opened hc, State.enterHalt_other (fun why => by simp_all [State.arch])]
  exact ⟨h.2.1, h.2.2.1, h.2.2.2⟩

/-- The end of a cycle with outcome halt (40_engine.md rules R130, R134): the engine is halted, and nothing else changes. -/
theorem endCycle_ending {s : State} {why : HaltReason} (hu : s.undisturbed = true) (hc : s.cycle = .ending why) :
    (endCycle s).arch = s.arch.halted why ∧ devicesKept s (endCycle s) ∧ hostOnly s (endCycle s) := by
  have h := hostTurn_calm (s := s.log [.cycleEnd .halt]) hu
  have hx : (hostTurn (s.log [.cycleEnd .halt])).cycle = .ending why := by
    rcases h.2.2.2.1 with h | h
    · exact h.trans hc
    · simp [hc] at h
  rw [endCycle_of (.inr ⟨why, hc⟩), State.announceEnd_ending hc, State.enterHalt_ending hx]
  refine ⟨?_, h.2.2.2.2.1, h.2.2.2.2.2⟩
  show ({ (hostTurn (s.log [.cycleEnd .halt])).arch with run := .halted why, cycle := .closed } : Arch) = _
  rw [h.2.1]
  rfl

/-- No interrupt is taken: the poll looks and goes on (40_engine.md rule R133). -/
theorem after_poll_quiet {s : State} (h : (flagIF s.regs.flags && s.dev.pic.intr) = false) : after poll s = s := by
  unfold after poll
  rw [look_bind, h]
  rfl

theorem finishCycle_quiet {s : State} (hu : s.undisturbed = true) (hc : s.cycle = .opened) (hr : s.run = .running)
    (h : (flagIF s.regs.flags && s.dev.pic.intr) = false) :
    (finishCycle s).arch = s.arch.close ∧ devicesKept s (finishCycle s) ∧ hostOnly s (finishCycle s) := by
  unfold finishCycle
  simp only [hc, hr, after_poll_quiet h]
  exact endCycle_opened hu hc (by simp [hr])

theorem finishCycle_ending {s : State} {why : HaltReason} (hu : s.undisturbed = true) (hc : s.cycle = .ending why) :
    (finishCycle s).arch = s.arch.halted why ∧ devicesKept s (finishCycle s) ∧ hostOnly s (finishCycle s) := by
  unfold finishCycle
  simp only [hc]
  exact endCycle_ending hu hc

/-- The acknowledge and the entry, with a host that acts no more (60_exceptions.md rule R350). -/
theorem does_hardwareInterrupt {s : State} {x : Arch} (hh : s.host = []) (hx : s.arch = x) (hs : x.steady)
    {n : Byte} {pic : Pic} (ha : s.dev.pic.acknowledge? = some (n, pic)) (h1 : x.canPush)
    (h2 : (x.pushed x.regs.flags).canPush) (hv : 4 * n.toNat + 2 ≤ x.params.memMax + 1) :
    Does hardwareInterrupt s () (x.entered n) (fun d => { d with pic := pic }) := by
  have hu : s.undisturbed = true := by simp [State.undisturbed, hh]
  have hset : settled (fun d : Devices => { d with pic := pic }) := by
    intro d d' h
    simp only [Devices.settings, Settings.mk.injEq] at h ⊢
    simp [h]
  obtain ⟨t, k1, k2, k3, k4, k5⟩ := does_emit hu hx hs .intAck
  have hd : t.dev = s.dev := k5 hh
  obtain ⟨u, j1, j2, j3, j4, j5⟩ := does_bind (does_devices k3.1 k2 (fun d => { d with pic := pic })) settled_id
    (k := fun _ => do
      emit (.periph .irr pic.irr)
      emit (.periph .isr pic.isr)
      emit (.bus .interruptVectorRead none true)
      setMbr n
      startInterrupt n)
    fun _ ht hy => does_seq (does_emit ht hy hs _) fun _ ht hy => does_seq (does_emit ht hy hs _) fun _ ht hy =>
      does_seq (does_emit ht hy hs _) fun _ ht hy => does_seq (does_setMbr ht hy hs _) fun _ ht hy =>
        does_startInterrupt ht hy hs h1 h2 hv
  refine ⟨u, ?_, j2, hostOnly_trans k3 j3, j4.trans (hset _ _ k4), fun e => ?_⟩
  · unfold hardwareInterrupt
    rw [bind_apply, k1]
    simp only [look_bind, hd, ha]
    exact j1
  · rw [j5 (k3.2 e), hd]
    rfl

/-- A hardware interrupt taken at the end of a cycle (40_engine.md rule R133, 60_exceptions.md rule R350). -/
theorem finishCycle_takes {s : State} (hh : s.host = []) (hc : s.cycle = .opened) (hr : s.run = .running)
    (hi : flagIF s.regs.flags = true) {n : Byte} {pic : Pic} (ha : s.dev.pic.acknowledge? = some (n, pic))
    (h1 : s.arch.canPush) (h2 : (s.arch.pushed s.regs.flags).canPush) (hv : 4 * n.toNat + 2 ≤ s.params.memMax + 1) :
    (finishCycle s).arch = (s.arch.entered n).close ∧ (finishCycle s).dev = { s.dev with pic := pic } ∧
      (finishCycle s).host = [] := by
  have hs : s.arch.steady := ⟨by simp [hr], by simp [hc]⟩
  have hint : s.dev.pic.intr = true := by
    unfold Pic.acknowledge? at ha
    split_ifs at ha with h
    exact h
  obtain ⟨t, k1, k2, k3, k4, k5⟩ := does_hardwareInterrupt hh rfl hs ha h1 h2 hv
  have hp : after poll s = t := by
    unfold after poll
    rw [look_bind, hi, hint]
    simp [k1]
  have hu : t.undisturbed = true := k3.1
  have hc' : t.cycle = .opened := (congrArg Arch.cycle k2).trans hc
  have hr' : t.run = .running := (congrArg Arch.run k2).trans hr
  have he := endCycle_opened hu hc' (by simp [hr'])
  unfold finishCycle
  simp only [hc, hr, hp]
  exact ⟨by rw [he.1, k2], (he.2.1.2 (k3.2 hh)).trans (k5 hh), he.2.2.2 (k3.2 hh)⟩

/-- The acknowledge and an entry that faults at a push, with a host that acts no more (60_exceptions.md rule R350): the line is
already in service. -/
theorem fails_hardwareInterrupt {s : State} {y : Arch} (hh : s.host = []) (hs : s.arch.steady) {n : Byte} {pic : Pic}
    {f : Fault} (ha : s.dev.pic.acknowledge? = some (n, pic))
    (h : s.pushFaults s.arch s.regs.flags y f ∨ s.canPush ∧ s.pushFaults s.arch.halfEntered s.regs.ip y f) :
    Fails hardwareInterrupt s (y.faulting f) (fun d => { d with pic := pic }) := by
  have hu : s.undisturbed = true := by simp [State.undisturbed, hh]
  have hset : settled (fun d : Devices => { d with pic := pic }) := by
    intro d d' h
    simp only [Devices.settings, Settings.mk.injEq] at h ⊢
    simp [h]
  obtain ⟨t, k1, k2, k3, k4, k5⟩ := does_emit hu rfl hs .intAck
  have hd : t.dev = s.dev := k5 hh
  obtain ⟨u, j1, j2, j3, j4, j5⟩ := does_then_fails (does_devices k3.1 k2 (fun d => { d with pic := pic })) settled_id
    (k := fun _ => do
      emit (.periph .irr pic.irr)
      emit (.periph .isr pic.isr)
      emit (.bus .interruptVectorRead none true)
      setMbr n
      startInterrupt n)
    fun _ ht hy => does_seq_fails (does_emit ht hy hs _) fun _ ht hy => does_seq_fails (does_emit ht hy hs _) fun _ ht hy =>
      does_seq_fails (does_emit ht hy hs _) fun _ ht hy => does_seq_fails (does_setMbr ht hy hs _) fun _ ht hy =>
        fails_startInterrupt (r := s) ht hy hs rfl rfl (h.imp id fun h => ⟨State.canPush_arch h.1, h.2⟩)
  refine ⟨u, ?_, j2, hostOnly_trans k3 j3, j4.trans (hset _ _ k4), fun e => ?_⟩
  · unfold hardwareInterrupt
    rw [bind_apply, k1]
    simp only [look_bind, hd, ha]
    exact j1
  · rw [j5 (k3.2 e), hd]
    rfl

/-- A hardware interrupt whose entry faults at a push (60_exceptions.md rule R350): the engine is halted, the line in service. -/
theorem finishCycle_takes_fails {s : State} {y : Arch} (hh : s.host = []) (hc : s.cycle = .opened) (hr : s.run = .running)
    (hi : flagIF s.regs.flags = true) {n : Byte} {pic : Pic} {f : Fault} (ha : s.dev.pic.acknowledge? = some (n, pic))
    (h : s.pushFaults s.arch s.regs.flags y f ∨ s.canPush ∧ s.pushFaults s.arch.halfEntered s.regs.ip y f) :
    (finishCycle s).arch = (y.faulting f).halted (.fault f) ∧ (finishCycle s).dev = { s.dev with pic := pic } := by
  have hs : s.arch.steady := ⟨by simp [hr], by simp [hc]⟩
  have hint : s.dev.pic.intr = true := by
    unfold Pic.acknowledge? at ha
    split_ifs at ha with h
    exact h
  obtain ⟨t, k1, k2, k3, k4, k5⟩ := fails_hardwareInterrupt hh hs ha h
  have hp : after poll s = t := by
    unfold after poll
    rw [look_bind, hi, hint]
    simp [k1]
  have he := endCycle_ending k3.1 (congrArg Arch.cycle k2)
  unfold finishCycle
  simp only [hc, hr, hp]
  exact ⟨by rw [he.1, k2], (he.2.1.2 (k3.2 hh)).trans (k5 hh)⟩

/-! ## The step -/

/-- An admitted Program's instruction lies in memory (30_encoding.md rule R103). -/
theorem Program.inside {p : Program} {memMax : Nat} (h : p.reject? memMax = none) {d : Descriptor}
    (hd : d ∈ p.descriptors) : d.addr.toNat + d.len - 1 ≤ memMax := by
  unfold Program.reject? at h
  split at h
  · simp at h
  · rename_i hn
    have h1 := (List.findSome?_eq_none_iff.mp hn) d hd
    unfold Descriptor.reject? at h1
    split at h1
    · simp at h1
    · rename_i h2
      unfold Descriptor.problem? at h2
      split_ifs at h2
      omega

/-- A cycle runs the decoded instruction, IP standing after it (40_engine.md rules R130, R131, R140). -/
theorem step_runs {s : State} (hs : s.ready) (hp : s.program.reject? s.params.memMax = none) {d : Descriptor}
    (hd : s.index s.regs.ip = some d) {i : Instr} (hi : decodeCode d.code = .ok i) :
    ∃ u, step s = finishOutcome (exec i u) ∧ u.arch = s.arch.open.putIp (s.regs.ip + BitVec.ofNat 16 d.len) ∧
      devicesKept s u ∧ hostOnly s u := by
  obtain ⟨hr, hc, hu⟩ := hs
  have ha : d.addr = s.regs.ip := by simpa using List.find?_some hd
  have hin := Program.inside hp (List.mem_of_find?_eq_some hd)
  rw [ha] at hin
  have hb : ∀ j, j < d.len → (s.arch.open.regs.ip + BitVec.ofNat 16 j).toNat ≤ s.arch.open.params.memMax := by
    intro j hj
    have : (s.regs.ip + BitVec.ofNat 16 j).toNat ≤ s.regs.ip.toNat + j := by
      rw [BitVec.toNat_add, BitVec.toNat_ofNat]
      refine (Nat.mod_le _ _).trans ?_
      have := Nat.mod_le j (2 ^ 16)
      omega
    exact this.trans (by show _ ≤ s.params.memMax; omega)
  obtain ⟨u, k1, k2, k3, k4, k5⟩ := does_seq (does_openCycle hu rfl (by simp [hr])) (k := fun _ => fetch d)
    fun _ ht hy => does_fetch ht hy (⟨by simp [Arch.open, hr], by simp [Arch.open]⟩ : s.arch.open.steady) d hb
  refine ⟨u, ?_, k2, ⟨k4, k5⟩, k3⟩
  unfold step stepState
  simp only [hc, hr]
  unfold runCycle
  simp only [hp, hd, hi]
  unfold runInstr
  simp only [k1]

end Sys2Proof.Machine
end

