-- ==== Sys2Proof/Laws/Keeps.lean ====
section
/-! SUPPORT. Invariants. `Invariant P` lists the changes the machine is made of; a predicate that each of them keeps is kept
by every step (`step_keeps`). An invariant of the machine is proved by giving its `Invariant`. -/

namespace Sys2Proof.Machine

/-- Every change a micro-operation or a host turn commits keeps `P`. No micro-operation closes a cycle or halts the engine. -/
structure Invariant (P : State → Prop) : Prop where
  regs : ∀ s g, P s → P { s with regs := g }
  latches : ∀ s l, P s → P { s with latches := l }
  run : ∀ s r, (∀ why, r ≠ .halted why) → P s → P { s with run := r }
  record : ∀ s r, P s → P { s with faultRecord := r }
  cycle : ∀ s c, c ≠ .closed → P s → P { s with cycle := c }
  draws : ∀ s n, P s → P { s with draws := n }
  log : ∀ s es, P s → P (s.log es)
  turn : ∀ s, P s → P (hostTurn s)
  write : ∀ s a v, P s → a ≤ s.params.memMax → s.reserved a = false → P { s with mem := s.mem.write a v }
  device : ∀ s r v, P s → P { s with dev := (s.dev.write s.params.config r v).1 }
  serve : ∀ s n pic, P s → s.dev.pic.acknowledge? = some (n, pic) → P { s with dev := { s.dev with pic := pic } }

/-- The close of a cycle and the halt of the engine keep `P` too. -/
structure CycleInvariant (P : State → Prop) : Prop extends Invariant P where
  close : ∀ s, P s → P { s with cycle := .closed }
  halt : ∀ s why, P s → P { s with run := .halted why, cycle := .closed }

/-- A sequence of micro-operations keeps `P`, finished or ended early. -/
def Keeps {α : Type} (P : State → Prop) (m : Micro α) : Prop := ∀ s, P s → P (after m s)

variable {P : State → Prop} {α β : Type}

theorem after_bind (m : Micro α) (k : α → Micro β) (s : State) :
    after (m >>= k) s = (match m s with
      | .ok a t => after (k a) t
      | .error _ t => t) := by
  unfold after
  rw [bind_apply]
  cases m s <;> rfl

theorem after_ok {m : Micro α} {s t : State} {a : α} (h : m s = .ok a t) : after m s = t := by simp [after, h]

theorem after_error {m : Micro α} {s t : State} (h : m s = .error () t) : after m s = t := by simp [after, h]

theorem keeps_bind {m : Micro α} {k : α → Micro β} (hm : Keeps P m) (hk : ∀ a, Keeps P (k a)) : Keeps P (m >>= k) := by
  intro s hs
  rw [after_bind]
  have h := hm s hs
  unfold after at h
  split at h <;> simp_all [Keeps]

/-- Looking first: what follows may use what was seen. -/
theorem keeps_look {f : State → α} {k : α → Micro β} (hk : ∀ s, P s → P (after (k (f s)) s)) :
    Keeps P (look f >>= k) := by
  intro s hs
  rw [after_bind, look_apply]
  exact hk s hs

theorem keeps_pure (a : α) : Keeps P (pure a : Micro α) := fun _ hs => hs

theorem keeps_stop : Keeps P (stop : Micro α) := fun _ hs => hs

theorem keeps_justLook (f : State → α) : Keeps P (look f) := fun _ hs => hs

theorem keeps_commit {f : State → State} (h : ∀ s, P s → P (f s)) : Keeps P (commit f) := fun s hs => h s hs

theorem keeps_boundary (h : Invariant P) : Keeps P boundary := by
  intro s hs
  unfold after boundary
  by_cases hh : s.turnEnds = true <;> simp [hh] <;> exact h.turn s hs

theorem keeps_emit (h : Invariant P) (e : Event) : Keeps P (emit e) :=
  keeps_bind (keeps_commit fun s hs => h.log s [e] hs) fun _ => keeps_boundary h

theorem keeps_emitAll (h : Invariant P) (es : List Event) : Keeps P (emitAll es) := by
  induction es with
  | nil => exact keeps_pure ()
  | cons e es ih => exact keeps_bind (keeps_emit h e) fun _ => ih

theorem keeps_raise (h : Invariant P) (f : Fault) : Keeps P (raise f : Micro α) :=
  keeps_bind (keeps_commit fun s hs => h.cycle { s with faultRecord := some f } (.ending (.fault f)) (by simp) (h.record s _ hs)) fun _ =>
    keeps_bind (keeps_emit h _) fun _ => keeps_stop

theorem keeps_busFault (h : Invariant P) (k : BusKind) (a : Nat) (f : Fault) : Keeps P (busFault k a f : Micro α) :=
  keeps_bind (keeps_emit h _) fun _ => keeps_raise h f

theorem keeps_halt (h : Invariant P) (why : HaltReason) : Keeps P (halt why) :=
  keeps_commit fun s hs => h.cycle s (.ending why) (by simp) hs

theorem keeps_setReg (h : Invariant P) {w : Width} (r : Reg w) (v : BitVec w.bits) : Keeps P (setReg r v) :=
  keeps_bind (keeps_commit fun s hs => h.regs s _ hs) fun _ => keeps_emit h _

theorem keeps_setIp (h : Invariant P) (v : Word) : Keeps P (setIp v) :=
  keeps_bind (keeps_commit fun s hs => h.regs s _ hs) fun _ => keeps_emit h _

theorem keeps_setFlags (h : Invariant P) (v : Word) : Keeps P (setFlags v) :=
  keeps_bind (keeps_commit fun s hs => h.regs s _ hs) fun _ => keeps_emit h _

theorem keeps_setIr (h : Invariant P) (v : Byte) : Keeps P (setIr v) :=
  keeps_bind (keeps_commit fun s hs => h.latches s _ hs) fun _ => keeps_emit h _

theorem keeps_setRi (h : Invariant P) (v : Word) : Keeps P (setRi v) :=
  keeps_bind (keeps_commit fun s hs => h.latches s _ hs) fun _ => keeps_emit h _

theorem keeps_setId (h : Invariant P) (v : Word) : Keeps P (setId v) :=
  keeps_bind (keeps_commit fun s hs => h.latches s _ hs) fun _ => keeps_emit h _

theorem keeps_setMar (h : Invariant P) (a : Nat) : Keeps P (setMar a) :=
  keeps_bind (keeps_commit fun s hs => h.latches s _ hs) fun _ => keeps_emit h _

theorem keeps_setMbr (h : Invariant P) (v : Byte) : Keeps P (setMbr v) :=
  keeps_bind (keeps_commit fun s hs => h.latches s _ hs) fun _ => keeps_emit h _

theorem keeps_memReadByte (h : Invariant P) (a : Nat) : Keeps P (memReadByte a) := by
  refine keeps_bind (keeps_setMar h a) fun _ => keeps_bind (keeps_justLook _) fun max => ?_
  split
  · exact keeps_bind (keeps_justLook _) fun v => keeps_bind (keeps_emit h _) fun _ =>
      keeps_bind (keeps_setMbr h v) fun _ => keeps_pure v
  · exact keeps_busFault h _ _ _

theorem keeps_memWriteByte (h : Invariant P) (a : Nat) (v : Byte) : Keeps P (memWriteByte a v) := by
  refine keeps_bind (keeps_setMar h a) fun _ => keeps_bind (keeps_setMbr h v) fun _ => keeps_look fun s hs => ?_
  split
  · rename_i ha
    rw [after_bind, look_apply]
    dsimp only
    split
    · exact keeps_busFault h _ _ _ s hs
    · rename_i hr
      rw [after_bind, commit_apply]
      exact keeps_emit h _ _ (h.write s a v hs ha (by simpa using hr))
  · exact keeps_busFault h _ _ _ s hs

theorem keeps_memRead (h : Invariant P) (w : Width) (a : Nat) : Keeps P (memRead w a) := by
  cases w with
  | w8 => exact keeps_memReadByte h a
  | w16 =>
    exact keeps_bind (keeps_memReadByte h a) fun _ => keeps_bind (keeps_memReadByte h _) fun _ => keeps_pure _

theorem keeps_memWrite (h : Invariant P) (w : Width) (a : Nat) (v : BitVec w.bits) : Keeps P (memWrite w a v) := by
  cases w with
  | w8 => exact keeps_memWriteByte h a v
  | w16 => exact keeps_bind (keeps_memWriteByte h a _) fun _ => keeps_memWriteByte h _ _

theorem keeps_ioReadByte (h : Invariant P) (a : Nat) : Keeps P (ioReadByte a) := by
  refine keeps_bind (keeps_setMar h a) fun _ => keeps_bind (keeps_justLook _) fun params => ?_
  split
  · split
    · exact keeps_busFault h _ _ _
    · exact keeps_bind (keeps_justLook _) fun v => keeps_bind (keeps_commit fun s hs => h.draws s _ hs) fun _ =>
        keeps_bind (keeps_emit h _) fun _ => keeps_bind (keeps_setMbr h v) fun _ => keeps_pure v
  · exact keeps_busFault h _ _ _

theorem keeps_ioWriteByte (h : Invariant P) (a : Nat) (v : Byte) : Keeps P (ioWriteByte a v) := by
  refine keeps_bind (keeps_setMar h a) fun _ => keeps_bind (keeps_setMbr h v) fun _ => keeps_look fun s hs => ?_
  split
  · split
    · exact keeps_busFault h _ _ _ s hs
    · rename_i r _
      rw [after_bind, look_apply]
      dsimp only
      rw [after_bind, commit_apply]
      exact keeps_bind (keeps_emit h _) (fun _ => keeps_emitAll h _) _ (h.device s r v hs)
  · exact keeps_busFault h _ _ _ s hs

theorem keeps_ioRead (h : Invariant P) (w : Width) (p : Word) : Keeps P (ioRead w p) := by
  cases w with
  | w8 => exact keeps_ioReadByte h _
  | w16 => exact keeps_bind (keeps_ioReadByte h _) fun _ => keeps_bind (keeps_ioReadByte h _) fun _ => keeps_pure _

theorem keeps_ioWrite (h : Invariant P) (w : Width) (p : Word) (v : BitVec w.bits) : Keeps P (ioWrite w p v) := by
  cases w with
  | w8 => exact keeps_ioWriteByte h _ v
  | w16 => exact keeps_bind (keeps_ioWriteByte h _ _) fun _ => keeps_ioWriteByte h _ _

theorem keeps_push (h : Invariant P) (v : Word) : Keeps P (push v) := by
  refine keeps_bind (keeps_justLook _) fun sp => ?_
  split
  · exact keeps_raise h _
  · exact keeps_bind (keeps_setReg h Reg.sp _) fun _ => keeps_memWrite h _ _ _

theorem keeps_pop (h : Invariant P) : Keeps P pop := by
  refine keeps_bind (keeps_justLook _) fun sp => keeps_bind (keeps_justLook _) fun max => ?_
  split
  · exact keeps_raise h _
  · exact keeps_bind (keeps_memRead h _ _) fun _ => keeps_bind (keeps_setReg h Reg.sp _) fun _ => keeps_pure _

theorem keeps_aluOp (h : Invariant P) {n : Nat} (op : AluOp) (a b : BitVec n) : Keeps P (aluOp op a b) := by
  refine keeps_bind (keeps_justLook _) fun f => keeps_bind (keeps_commit fun s hs => ?_) fun _ =>
    keeps_bind (keeps_emit h _) fun _ => keeps_pure _
  exact h.latches _ _ (h.regs s _ hs)

theorem keeps_startInterrupt (h : Invariant P) (n : Byte) : Keeps P (startInterrupt n) :=
  keeps_bind (keeps_justLook _) fun _ => keeps_bind (keeps_push h _) fun _ => keeps_bind (keeps_setFlags h _) fun _ =>
    keeps_bind (keeps_justLook _) fun _ => keeps_bind (keeps_push h _) fun _ => keeps_bind (keeps_memRead h _ _) fun _ =>
      keeps_setIp h _

theorem keeps_endInterrupt (h : Invariant P) : Keeps P endInterrupt :=
  keeps_bind (keeps_pop h) fun _ => keeps_bind (keeps_setIp h _) fun _ => keeps_bind (keeps_pop h) fun _ =>
    keeps_setFlags h _

theorem keeps_hardwareInterrupt (h : Invariant P) : Keeps P hardwareInterrupt := by
  refine keeps_bind (keeps_emit h _) fun _ => keeps_look fun s hs => ?_
  split
  · rename_i n pic hk
    rw [after_bind, commit_apply]
    refine keeps_bind (keeps_emit h _) (fun _ => ?_) _ (h.serve s n pic hs hk)
    exact keeps_bind (keeps_emit h _) fun _ => keeps_bind (keeps_emit h _) fun _ => keeps_bind (keeps_setMbr h _)
      fun _ => keeps_startInterrupt h _
  · exact hs

theorem keeps_poll (h : Invariant P) : Keeps P poll := by
  refine keeps_bind (keeps_justLook _) fun take => ?_
  split
  · exact keeps_hardwareInterrupt h
  · exact keeps_pure ()

theorem keeps_stageEa (h : Invariant P) (m : Mode) : Keeps P (stageEa m) :=
  keeps_bind (keeps_justLook _) fun _ => keeps_bind (keeps_setRi h _) fun _ => keeps_pure _

theorem keeps_resolve (h : Invariant P) {w : Width} (d : Loc w) : Keeps P (resolve d) := by
  cases d with
  | reg r => exact keeps_pure _
  | mem m => exact keeps_bind (keeps_stageEa h m) fun _ => keeps_pure _

theorem keeps_loadOperand (h : Invariant P) (w : Width) (a : Word) : Keeps P (loadOperand w a) :=
  keeps_bind (keeps_memRead h _ _) fun _ => keeps_bind (keeps_setId h _) fun _ => keeps_pure _

theorem keeps_readPlace (h : Invariant P) {w : Width} (p : Place w) : Keeps P (readPlace p) := by
  cases p with
  | reg r => exact keeps_justLook _
  | mem a => exact keeps_loadOperand h w a

theorem keeps_writePlace (h : Invariant P) {w : Width} (p : Place w) (v : BitVec w.bits) : Keeps P (writePlace p v) := by
  cases p with
  | reg r => exact keeps_setReg h r v
  | mem a => exact keeps_memWrite h w _ v

theorem keeps_readSource (h : Invariant P) {w : Width} (q : Source w) : Keeps P (readSource q) := by
  cases q with
  | reg r => exact keeps_justLook _
  | mem m => exact keeps_bind (keeps_stageEa h m) fun _ => keeps_loadOperand h w _
  | imm v => exact keeps_pure v

theorem keeps_binary (h : Invariant P) {w : Width} (op : AluOp) (o : Operands w) : Keeps P (binary op o) :=
  keeps_bind (keeps_resolve h _) fun _ => keeps_bind (keeps_readPlace h _) fun _ => keeps_bind (keeps_readSource h _)
    fun _ => keeps_bind (keeps_aluOp h _ _ _) fun _ => keeps_writePlace h _ _

theorem keeps_compare (h : Invariant P) {w : Width} (o : Operands w) : Keeps P (compare o) :=
  keeps_bind (keeps_resolve h _) fun _ => keeps_bind (keeps_readPlace h _) fun _ => keeps_bind (keeps_readSource h _)
    fun _ => keeps_bind (keeps_aluOp h _ _ _) fun _ => keeps_pure ()

theorem keeps_unary (h : Invariant P) {w : Width} {f : BitVec w.bits → Micro (BitVec w.bits)} (hf : ∀ a, Keeps P (f a))
    (d : Loc w) : Keeps P (unary f d) :=
  keeps_bind (keeps_resolve h _) fun _ => keeps_bind (keeps_readPlace h _) fun _ => keeps_bind (hf _)
    fun _ => keeps_writePlace h _ _

theorem keeps_move (h : Invariant P) {w : Width} (o : Operands w) : Keeps P (move o) :=
  keeps_bind (keeps_readSource h _) fun _ => keeps_bind (keeps_resolve h _) fun _ => keeps_writePlace h _ _

theorem keeps_jumpIf (h : Invariant P) (c : Word → Bool) (t : Word) : Keeps P (jumpIf c t) := by
  refine keeps_bind (keeps_justLook _) fun taken => ?_
  split
  · exact keeps_setIp h t
  · exact keeps_pure ()

theorem keeps_callTo (h : Invariant P) (t : Word) : Keeps P (callTo t) :=
  keeps_bind (keeps_justLook _) fun _ => keeps_bind (keeps_push h _) fun _ => keeps_setIp h t

theorem keeps_transmitByte (h : Invariant P) : Keeps P transmitByte :=
  keeps_bind (keeps_justLook _) fun _ => keeps_bind (keeps_memReadByte h _) fun _ => keeps_bind (keeps_emit h _) fun _ =>
    keeps_bind (keeps_justLook _) fun _ => keeps_bind (keeps_aluOp h _ _ _) fun _ => keeps_bind (keeps_setReg h Reg.bx _)
      fun _ => keeps_bind (keeps_justLook _) fun _ => keeps_bind (keeps_aluOp h _ _ _) fun _ => keeps_setReg h Reg.al _

theorem keeps_transmit (h : Invariant P) (n : Nat) : Keeps P (transmit n) := by
  induction n with
  | zero => exact keeps_pure ()
  | succ n ih =>
    refine keeps_bind (keeps_justLook _) fun al => ?_
    split
    · exact keeps_pure ()
    · exact keeps_bind (keeps_transmitByte h) fun _ => ih

theorem keeps_breakpoint (h : Invariant P) : Keeps P breakpoint :=
  keeps_bind (keeps_commit fun s hs => h.cycle s _ (by simp) hs) fun _ => keeps_emit h _

theorem keeps_requestChar (h : Invariant P) : Keeps P requestChar :=
  keeps_bind (keeps_commit fun s hs => h.run s _ (by simp) hs) fun _ => keeps_emit h _

theorem keeps_storeChar (h : Invariant P) (c : Byte) : Keeps P (storeChar c) :=
  keeps_bind (keeps_commit fun s hs => h.run s _ (by simp) hs) fun _ => keeps_bind (keeps_justLook _) fun _ => keeps_memWrite h _ _ _

/-- Every instruction keeps an invariant. -/
theorem exec_keeps (h : Invariant P) (i : Instr) {s t : State} (hs : P s) (ht : exec i s = .next t) : P t := by
  have key : ∀ m : Micro Unit, Keeps P m → perform m s = .next t → P t := by
    intro m hm he
    simp only [perform, Host.Outcome.next.injEq] at he
    exact he ▸ hm s hs
  cases i with
  | add w o => exact key _ (keeps_binary h _ _) ht
  | adc w o => exact key _ (keeps_binary h _ _) ht
  | sub w o => exact key _ (keeps_binary h _ _) ht
  | sbb w o => exact key _ (keeps_binary h _ _) ht
  | cmp w o => exact key _ (keeps_compare h _) ht
  | and w o => exact key _ (keeps_binary h _ _) ht
  | or w o => exact key _ (keeps_binary h _ _) ht
  | xor w o => exact key _ (keeps_binary h _ _) ht
  | inc w d => exact key _ (keeps_unary h (fun _ => keeps_aluOp h _ _ _) _) ht
  | dec w d => exact key _ (keeps_unary h (fun _ => keeps_aluOp h _ _ _) _) ht
  | neg w d => exact key _ (keeps_unary h (fun _ => keeps_aluOp h _ _ _) _) ht
  | not w d => exact key _ (keeps_unary h (fun _ => keeps_aluOp h _ _ _) _) ht
  | mov w o => exact key _ (keeps_move h _) ht
  | jmp a => exact key _ (keeps_jumpIf h _ _) ht
  | jz a => exact key _ (keeps_jumpIf h _ _) ht
  | jnz a => exact key _ (keeps_jumpIf h _ _) ht
  | js a => exact key _ (keeps_jumpIf h _ _) ht
  | jns a => exact key _ (keeps_jumpIf h _ _) ht
  | jc a => exact key _ (keeps_jumpIf h _ _) ht
  | jnc a => exact key _ (keeps_jumpIf h _ _) ht
  | jo a => exact key _ (keeps_jumpIf h _ _) ht
  | jno a => exact key _ (keeps_jumpIf h _ _) ht
  | call a => exact key _ (keeps_callTo h _) ht
  | push r => exact key _ (keeps_bind (keeps_justLook _) fun _ => keeps_push h _) ht
  | pop r => exact key _ (keeps_bind (keeps_pop h) fun _ => keeps_setReg h r _) ht
  | pushf => exact key _ (keeps_bind (keeps_justLook _) fun _ => keeps_push h _) ht
  | popf => exact key _ (keeps_bind (keeps_pop h) fun _ => keeps_setFlags h _) ht
  | inp w p =>
    exact key _ (keeps_bind (keeps_justLook _) fun _ => keeps_bind (keeps_ioRead h _ _) fun _ => keeps_setReg h _ _) ht
  | outp w p =>
    exact key _ (keeps_bind (keeps_justLook _) fun _ => keeps_bind (keeps_justLook _) fun _ => keeps_ioWrite h _ _ _) ht
  | int n =>
    refine key _ ?_ ht
    split
    · exact keeps_halt h _
    · split
      · exact keeps_breakpoint h
      · split
        · exact keeps_requestChar h
        · split
          · exact keeps_transmit h _
          · exact keeps_startInterrupt h n
  | hlt => exact key _ (keeps_halt h _) ht
  | cli => exact key _ (keeps_bind (keeps_justLook _) fun _ => keeps_setFlags h _) ht
  | sti => exact key _ (keeps_bind (keeps_justLook _) fun _ => keeps_setFlags h _) ht
  | nop => exact key _ (keeps_pure ()) ht
  | ret => exact key _ (keeps_bind (keeps_pop h) fun _ => keeps_setIp h _) ht
  | iret => exact key _ (keeps_endInterrupt h) ht

/-! ## The cycle -/

theorem keeps_latchByte (h : Invariant P) (l : LatchSel) (v : Byte) : Keeps P (latchByte l v) := by
  cases l with
  | ir => exact keeps_setIr h v
  | riLow => exact keeps_bind (keeps_justLook _) fun _ => keeps_setRi h _
  | riHigh => exact keeps_bind (keeps_justLook _) fun _ => keeps_setRi h _
  | idLow => exact keeps_bind (keeps_justLook _) fun _ => keeps_setId h _
  | idHigh => exact keeps_bind (keeps_justLook _) fun _ => keeps_setId h _

theorem keeps_consumeAll (h : Invariant P) (addr imm : Nat) (k j : Nat) : Keeps P (consumeAll addr imm k j) := by
  induction j generalizing k with
  | zero => exact keeps_pure ()
  | succ j ih =>
    refine keeps_bind ?_ fun _ => ih (k + 1)
    exact keeps_bind (keeps_justLook _) fun _ => keeps_bind (keeps_memReadByte h _) fun _ =>
      keeps_bind (keeps_latchByte h _ _) fun _ => keeps_bind (keeps_justLook _) fun _ => keeps_setIp h _

theorem keeps_openCycle (h : Invariant P) : Keeps P openCycle :=
  keeps_bind (keeps_commit fun s hs => h.cycle s _ (by simp) hs) fun _ => keeps_bind (keeps_justLook _) fun _ => keeps_emit h _

theorem announceEnd_keeps (h : CycleInvariant P) {s : State} (hs : P s) : P s.announceEnd := by
  unfold State.announceEnd
  split
  · exact h.log _ _ (h.close s hs)
  · exact h.log _ _ hs
  all_goals exact hs

theorem enterHalt_keeps (h : CycleInvariant P) {s : State} (hs : P s) : P s.enterHalt := by
  unfold State.enterHalt
  split
  · exact h.halt s _ hs
  all_goals exact hs

theorem endCycle_keeps (h : CycleInvariant P) {s : State} (hs : P s) : P (endCycle s) := by
  have he := enterHalt_keeps h (h.turn _ (announceEnd_keeps h hs))
  unfold endCycle
  split <;> first | exact he | exact hs

theorem finishCycle_keeps (h : CycleInvariant P) {s : State} (hs : P s) : P (finishCycle s) := by
  unfold finishCycle
  split
  · split
    · exact endCycle_keeps h (keeps_poll h.toInvariant s hs)
    · exact hs
    · exact hs
  · exact endCycle_keeps h hs
  all_goals exact hs

theorem runInstr_keeps (h : CycleInvariant P) (d : Descriptor) (i : Instr) {s t : State} (hs : P s)
    (ht : runInstr d i s = .next t) : P t := by
  have hf : Keeps P (do openCycle; fetch d : Micro Unit) :=
    keeps_bind (keeps_openCycle h.toInvariant) fun _ => keeps_consumeAll h.toInvariant _ _ _ _
  have hp := hf s hs
  unfold runInstr at ht
  split at ht
  · rename_i u hu
    rw [after_ok hu] at hp
    unfold finishOutcome at ht
    split at ht
    · rename_i v hv
      simp only [Host.Outcome.next.injEq] at ht
      exact ht ▸ finishCycle_keeps h (exec_keeps h.toInvariant i hp hv)
    · simp at ht
    · simp at ht
  · rename_i u hu
    rw [after_error hu] at hp
    simp only [Host.Outcome.next.injEq] at ht
    exact ht ▸ finishCycle_keeps h hp

/-- EVERY STEP KEEPS AN INVARIANT. -/
theorem step_keeps (h : CycleInvariant P) {s t : State} (hs : P s) (ht : step s = .next t) : P t := by
  have next : ∀ u : State, P u → (Host.Outcome.next u : Host.Outcome State Fault Refusal) = .next t → P t := by
    intro u hu he
    simp only [Host.Outcome.next.injEq] at he
    exact he ▸ hu
  unfold step stepState at ht
  split at ht
  · exact next _ (h.toInvariant.turn s hs) ht
  · exact next _ (h.toInvariant.turn s hs) ht
  · exact next _ (finishCycle_keeps h (h.toInvariant.turn s hs)) ht
  · unfold runCycle at ht
    split at ht
    · simp at ht
    · split at ht
      · refine next _ (finishCycle_keeps h ?_) ht
        exact keeps_bind (keeps_openCycle h.toInvariant) (fun _ => keeps_raise h.toInvariant _) s hs
      · split at ht
        · simp at ht
        · exact runInstr_keeps h _ _ hs ht
  · exact next _ (finishCycle_keeps h hs) ht
  · exact next _ (finishCycle_keeps h hs) ht
  · exact next _ (finishCycle_keeps h (keeps_storeChar h.toInvariant _ s hs)) ht
  · exact next _ (h.toInvariant.turn s hs) ht

end Sys2Proof.Machine
end

