-- ==== Sys2Proof/Laws/PerInstr.lean ====
section
/-! SUPPORT. What is said per instruction: the shape of its descriptor code (30_encoding.md rules R101, R103, R110). -/

namespace Sys2Proof.Laws.CodeShape

/-- The code an instruction encodes to passes the admission checks of its family, width and numbers, names the
instruction's own row, and has at most two operands. -/
def Statement (i : Instr) : Prop :=
  (encodeCode i).problem? = none ∧ (encodeCode i).op = i.mnemonic ∧ (encodeCode i).family = i.mnemonic.family ∧
    (encodeCode i).operands.length ≤ 2

theorem of_operands (i : Instr) (hw : i.mnemonic.family.widthOk i.width = true)
    (ho : i.operands.findSome? (Operand.problem? i.width) = none) (hl : i.operands.length ≤ 2) : Statement i := by
  refine ⟨?_, rfl, rfl, hl⟩
  simp only [Code.problem?, encodeCode, hw, ho, if_true, ne_eq, not_true, if_false]

theorem add (w : Width) (o : Operands w) : Statement (.add w o) :=
  of_operands _ rfl (operandList_problem o) (operandList_length o).le

theorem adc (w : Width) (o : Operands w) : Statement (.adc w o) :=
  of_operands _ rfl (operandList_problem o) (operandList_length o).le

theorem sub (w : Width) (o : Operands w) : Statement (.sub w o) :=
  of_operands _ rfl (operandList_problem o) (operandList_length o).le

theorem sbb (w : Width) (o : Operands w) : Statement (.sbb w o) :=
  of_operands _ rfl (operandList_problem o) (operandList_length o).le

theorem cmp (w : Width) (o : Operands w) : Statement (.cmp w o) :=
  of_operands _ rfl (operandList_problem o) (operandList_length o).le

theorem and (w : Width) (o : Operands w) : Statement (.and w o) :=
  of_operands _ rfl (operandList_problem o) (operandList_length o).le

theorem or (w : Width) (o : Operands w) : Statement (.or w o) :=
  of_operands _ rfl (operandList_problem o) (operandList_length o).le

theorem xor (w : Width) (o : Operands w) : Statement (.xor w o) :=
  of_operands _ rfl (operandList_problem o) (operandList_length o).le

theorem mov (w : Width) (o : Operands w) : Statement (.mov w o) :=
  of_operands _ rfl (operandList_problem o) (operandList_length o).le

theorem inc (w : Width) (d : Loc w) : Statement (.inc w d) :=
  of_operands _ rfl (locList_problem d) ((locList_length d).le.trans (by decide))

theorem dec (w : Width) (d : Loc w) : Statement (.dec w d) :=
  of_operands _ rfl (locList_problem d) ((locList_length d).le.trans (by decide))

theorem neg (w : Width) (d : Loc w) : Statement (.neg w d) :=
  of_operands _ rfl (locList_problem d) ((locList_length d).le.trans (by decide))

theorem not (w : Width) (d : Loc w) : Statement (.not w d) :=
  of_operands _ rfl (locList_problem d) ((locList_length d).le.trans (by decide))

theorem jmp (t : Word) : Statement (.jmp t) := of_operands _ rfl rfl (Nat.le_succ 1)

theorem jz (t : Word) : Statement (.jz t) := of_operands _ rfl rfl (Nat.le_succ 1)

theorem jnz (t : Word) : Statement (.jnz t) := of_operands _ rfl rfl (Nat.le_succ 1)

theorem js (t : Word) : Statement (.js t) := of_operands _ rfl rfl (Nat.le_succ 1)

theorem jns (t : Word) : Statement (.jns t) := of_operands _ rfl rfl (Nat.le_succ 1)

theorem jc (t : Word) : Statement (.jc t) := of_operands _ rfl rfl (Nat.le_succ 1)

theorem jnc (t : Word) : Statement (.jnc t) := of_operands _ rfl rfl (Nat.le_succ 1)

theorem jo (t : Word) : Statement (.jo t) := of_operands _ rfl rfl (Nat.le_succ 1)

theorem jno (t : Word) : Statement (.jno t) := of_operands _ rfl rfl (Nat.le_succ 1)

theorem call (t : Word) : Statement (.call t) := of_operands _ rfl rfl (Nat.le_succ 1)

theorem push (r : Reg .w16) : Statement (.push r) := of_operands _ rfl rfl (Nat.le_succ 1)

theorem pop (r : Reg .w16) : Statement (.pop r) := of_operands _ rfl rfl (Nat.le_succ 1)

theorem pushf : Statement .pushf := of_operands _ rfl rfl (Nat.zero_le 2)

theorem popf : Statement .popf := of_operands _ rfl rfl (Nat.zero_le 2)

theorem inp (w : Width) (p : Port) : Statement (.inp w p) :=
  of_operands _ rfl (by cases w <;> simp [Instr.operands, Instr.width, regOperand, dataReg, port_problem] <;> rfl) le_rfl

theorem outp (w : Width) (p : Port) : Statement (.outp w p) :=
  of_operands _ rfl (by cases w <;> simp [Instr.operands, Instr.width, regOperand, dataReg, port_problem] <;> rfl) le_rfl

theorem int (n : Byte) : Statement (.int n) :=
  of_operands _ rfl (by have := n.isLt; simp [Instr.operands, Operand.problem?]; omega) (Nat.le_succ 1)

theorem hlt : Statement .hlt := of_operands _ rfl rfl (Nat.zero_le 2)

theorem cli : Statement .cli := of_operands _ rfl rfl (Nat.zero_le 2)

theorem sti : Statement .sti := of_operands _ rfl rfl (Nat.zero_le 2)

theorem nop : Statement .nop := of_operands _ rfl rfl (Nat.zero_le 2)

theorem ret : Statement .ret := of_operands _ rfl rfl (Nat.zero_le 2)

theorem iret : Statement .iret := of_operands _ rfl rfl (Nat.zero_le 2)

end Sys2Proof.Laws.CodeShape
end

