-- ==== Sys2Proof/Laws/Runs.lean ====
section
/-! SUPPORT. Everything a sequence of micro-operations can do to the architectural part, on every path: `Runs m s Q E` says
that it goes on with a value and a part that meet `Q`, or ends early with a part that meets `E`. Each shared operation has
its lemma, which the frame statements cite. -/

namespace Sys2Proof.Machine

/-- Goes on within `Q` or ends early within `E`, the devices left to the host. -/
def Runs {α : Type} (m : Micro α) (s : State) (Q : α → Arch → Prop) (E : Arch → Prop) : Prop :=
  (∃ a x, Q a x ∧ Does m s a x id) ∨ (∃ x, E x ∧ Fails m s x id)

variable {α β : Type}

theorem runs_does {m : Micro α} {s : State} {a : α} {x : Arch} {Q : α → Arch → Prop} {E : Arch → Prop}
    (h : Does m s a x id) (hq : Q a x) : Runs m s Q E := .inl ⟨a, x, hq, h⟩

theorem runs_fails {m : Micro α} {s : State} {x : Arch} {Q : α → Arch → Prop} {E : Arch → Prop} (h : Fails m s x id)
    (he : E x) : Runs m s Q E := .inr ⟨x, he, h⟩

theorem runs_seq {m : Micro α} {k : α → Micro β} {s : State} {Q : α → Arch → Prop} {R : β → Arch → Prop}
    {E : Arch → Prop} (hm : Runs m s Q E)
    (hk : ∀ t a x, t.undisturbed = true → t.arch = x → Q a x → Runs (k a) t R E) : Runs (m >>= k) s R E := by
  rcases hm with ⟨a, x, hq, t, h1, h2, h3, h4, h5⟩ | ⟨x, he, h⟩
  · rcases hk t a x h3.1 h2 hq with ⟨b, y, hr, u, k1, k2, k3, k4, k5⟩ | ⟨y, he, u, k1, k2, k3, k4, k5⟩
    · refine .inl ⟨b, y, hr, u, ?_, k2, hostOnly_trans h3 k3, k4.trans h4, fun e => (k5 (h3.2 e)).trans (h5 e)⟩
      rw [bind_apply, h1]
      exact k1
    · refine .inr ⟨y, he, u, ?_, k2, hostOnly_trans h3 k3, k4.trans h4, fun e => (k5 (h3.2 e)).trans (h5 e)⟩
      rw [bind_apply, h1]
      exact k1
  · exact .inr ⟨x, he, fails_bind h⟩

theorem runs_mono {m : Micro α} {s : State} {Q Q' : α → Arch → Prop} {E E' : Arch → Prop} (h : Runs m s Q E)
    (hq : ∀ a x, Q a x → Q' a x) (he : ∀ x, E x → E' x) : Runs m s Q' E' := by
  rcases h with ⟨a, x, h1, h2⟩ | ⟨x, h1, h2⟩
  · exact .inl ⟨a, x, hq a x h1, h2⟩
  · exact .inr ⟨x, he x h1, h2⟩

/-- What an instruction's next state can be. -/
theorem runs_perform {m : Micro Unit} {s : State} {R : Arch → Prop} (h : Runs m s (fun _ x => R x) R) :
    ∃ t, perform m s = .next t ∧ R t.arch ∧ devicesKept s t ∧ hostOnly s t := by
  rcases h with ⟨a, x, h1, h2⟩ | ⟨x, h1, h2⟩
  · obtain ⟨t, k1, k2, k3, k4⟩ := does_perform h2
    exact ⟨t, k1, k2 ▸ h1, k4, k3⟩
  · obtain ⟨t, k1, k2, k3, k4⟩ := fails_perform h2
    exact ⟨t, k1, k2 ▸ h1, k4, k3⟩

/-! ## What an early end leaves -/

/-- A fault raised, nothing else changed. -/
def Arch.faulted (x y : Arch) : Prop := ∃ f, y = x.faulting f

/-- A fault raised, memory changed at most where `off` fails. -/
def Arch.faultedOff (off : Nat → Prop) (x y : Arch) : Prop :=
  ∃ m f, y = ({ x with mem := m }).faulting f ∧ ∀ b, off b → m.read b = x.mem.read b

theorem Arch.goesOn {x y : Arch} (h : y.run = x.run) (hc : y.cycle = x.cycle) (hf : y.faultRecord = x.faultRecord) :
    x.goesOnOrFaults y := ⟨h, .inl ⟨hc, hf⟩⟩

theorem Arch.faults {x y : Arch} (f : Fault) (h : y.run = x.run) (hc : y.cycle = .ending (.fault f))
    (hf : y.faultRecord = some f) : x.goesOnOrFaults y := ⟨h, .inr ⟨f, hc, hf⟩⟩

theorem Arch.goesOnOrFaults_of_faulted {x y : Arch} (h : x.faulted y) : x.goesOnOrFaults y := by
  obtain ⟨f, rfl⟩ := h
  exact Arch.faults f rfl rfl rfl

theorem Arch.goesOnOrFaults_of_faultedOff {off : Nat → Prop} {x y : Arch} (h : x.faultedOff off y) :
    x.goesOnOrFaults y := by
  obtain ⟨m, f, rfl, -⟩ := h
  exact Arch.faults f rfl rfl rfl

theorem Arch.faulted_off {x y : Arch} (h : x.faulted y) (off : Nat → Prop) : x.faultedOff off y := by
  obtain ⟨f, rfl⟩ := h
  exact ⟨x.mem, f, rfl, fun _ _ => rfl⟩

/-- A stored value is seen at its own bytes alone. -/
theorem Memory.read_store_other (m : Memory) {w : Width} {a b : Nat} (h : ¬ within w a b) (v : BitVec w.bits) :
    (m.store w a v).read b = m.read b := by
  cases w with
  | w8 =>
    have hb : b ≠ a := by
      rintro rfl
      exact h ⟨Nat.le_refl _, by simp [Width.bytes]⟩
    exact m.read_write_other hb v
  | w16 =>
    have h0 : b ≠ a := by
      rintro rfl
      exact h ⟨Nat.le_refl _, by simp [Width.bytes]⟩
    have h1 : b ≠ a + 1 := by
      rintro rfl
      exact h ⟨by omega, by simp [Width.bytes]⟩
    exact ((m.write a _).read_write_other h1 _).trans (m.read_write_other h0 _)

theorem Memory.wf_store {m : Memory} (h : m.wf = true) (w : Width) (a : Nat) (v : BitVec w.bits) :
    (m.store w a v).wf = true := by
  cases w with
  | w8 => exact Memory.wf_write h a v
  | w16 => exact Memory.wf_write (Memory.wf_write h a _) _ _

/-- A value loads as stored (20_memory.md rules R65, R90). -/
theorem Memory.load_store {m : Memory} (h : m.wf = true) (w : Width) (a : Nat) (v : BitVec w.bits) :
    (m.store w a v).load w a = v := by
  cases w with
  | w8 => simp [Memory.load, Memory.store, Memory.read_write h]
  | w16 =>
    simp only [Memory.load, Memory.store, Memory.read_write (Memory.wf_write h a _), Memory.read_write h]
    simp [join_high_low]

/-! ## Memory and the stack -/

theorem runs_memReadByte {s : State} {x : Arch} (hu : s.undisturbed = true) (hx : s.arch = x) (hs : x.steady) (a : Nat) :
    Runs (memReadByte a) s (fun v y => v = x.mem.read a ∧ y = x) x.faulted := by
  by_cases h : a ≤ x.params.memMax
  · exact runs_does (does_memReadByte hu hx hs h) ⟨rfl, rfl⟩
  · exact runs_fails (fails_memReadByte hu hx hs (by omega)) ⟨_, rfl⟩

theorem runs_memRead {s : State} {x : Arch} (hu : s.undisturbed = true) (hx : s.arch = x) (hs : x.steady) (w : Width)
    (a : Nat) : Runs (memRead w a) s (fun v y => v = x.mem.load w a ∧ y = x) x.faulted := by
  cases w with
  | w8 => exact runs_memReadByte hu hx hs a
  | w16 =>
    refine runs_seq (runs_memReadByte hu hx hs a) ?_
    rintro t lo y ht hy ⟨rfl, rfl⟩
    refine runs_seq (runs_memReadByte ht hy hs (a + 1)) ?_
    rintro u hi z hu hz ⟨rfl, rfl⟩
    exact runs_does (does_pure hu hz _) ⟨rfl, rfl⟩

theorem runs_memWriteByte {s : State} {x : Arch} (hu : s.undisturbed = true) (hx : s.arch = x) (hs : x.steady) (a : Nat)
    (v : Byte) : Runs (memWriteByte a v) s (fun _ y => y = { x with mem := x.mem.write a v }) x.faulted := by
  by_cases h : a ≤ x.params.memMax
  · by_cases hr : x.reserved a = false
    · exact runs_does (does_memWriteByte hu hx hs h hr v) rfl
    · exact runs_fails (fails_memWriteByte_code hu hx hs h (by simpa using hr) v) ⟨_, rfl⟩
  · exact runs_fails (fails_memWriteByte_range hu hx hs (by omega) v) ⟨_, rfl⟩

/-- A store, or a fault with at most the low byte stored (20_memory.md rule R67). -/
theorem runs_memWrite {s : State} {x : Arch} (hu : s.undisturbed = true) (hx : s.arch = x) (hs : x.steady) (w : Width)
    (a : Nat) (v : BitVec w.bits) :
    Runs (memWrite w a v) s (fun _ y => y = { x with mem := x.mem.store w a v })
      (x.faultedOff fun b => ¬ within w a b) := by
  cases w with
  | w8 => exact runs_mono (runs_memWriteByte hu hx hs a v) (fun _ _ h => h) fun _ h => Arch.faulted_off h _
  | w16 =>
    refine runs_seq (runs_mono (runs_memWriteByte hu hx hs a _) (fun _ _ h => h) fun _ h => Arch.faulted_off h _) ?_
    rintro t _ y ht hy rfl
    refine runs_mono (runs_memWriteByte ht hy hs (a + 1) _) (fun _ _ h => h) ?_
    rintro z ⟨f, rfl⟩
    refine ⟨_, f, rfl, fun b hb => x.mem.read_write_other ?_ _⟩
    rintro rfl
    exact hb ⟨Nat.le_refl _, by simp [Width.bytes]⟩

/-- A push, or a fault: SP as it was, or SP lowered and the slot partly stored (40_engine.md rule R150). -/
theorem runs_push {s : State} {x : Arch} (hu : s.undisturbed = true) (hx : s.arch = x) (hs : x.steady) (v : Word) :
    Runs (push v) s (fun _ y => y = x.pushed v) fun y => x.faulted y ∨
      ({ x with regs := x.regs.set Reg.sp (x.regs.sp - 2) } : Arch).faultedOff
        (fun b => ¬ within .w16 (x.regs.sp - 2).toNat b) y := by
  by_cases h : x.regs.sp.toNat < 2
  · exact runs_fails (fails_push hu hx hs h v) (.inl ⟨_, rfl⟩)
  · refine runs_seq (runs_does (does_look hu hx (fun x => x.regs.sp) (fun _ => rfl)) (Q := fun a y => a = x.regs.sp ∧ y = x)
      ⟨rfl, rfl⟩) ?_
    rintro t a y ht hy ⟨rfl, rfl⟩
    rw [if_neg h]
    refine runs_seq (runs_does (does_setReg ht hy hs Reg.sp _)
      (Q := fun _ z => z = { y with regs := y.regs.set Reg.sp (y.regs.sp - 2) }) rfl) ?_
    rintro t a z ht hy rfl
    exact runs_mono (runs_memWrite ht hy hs _ _ _) (fun _ _ h => h) fun _ h => .inr h

/-- A pop, or a fault with nothing changed (40_engine.md rule R151). -/
theorem runs_pop {s : State} {x : Arch} (hu : s.undisturbed = true) (hx : s.arch = x) (hs : x.steady) :
    Runs pop s (fun v y => v = x.mem.load .w16 x.regs.sp.toNat ∧ y = x.popped) x.faulted := by
  by_cases h : x.regs.sp.toNat + 2 ≤ x.params.memMax + 1
  · exact runs_does (does_pop hu hx hs h) ⟨rfl, rfl⟩
  · exact runs_fails (fails_pop hu hx hs (by omega)) ⟨_, rfl⟩

/-! ## Operands -/

theorem Arch.put_off (x : Arch) {w : Width} (p : Place w) (v : BitVec w.bits) {b : Nat} (h : p.off b) :
    (x.put p v).mem.read b = x.mem.read b := by
  cases p with
  | reg r => rfl
  | mem a => exact x.mem.read_store_other h v

/-- The value of a place of an architectural part. -/
def Arch.placeValue (x : Arch) {w : Width} : Place w → BitVec w.bits
  | .reg r => x.regs.get r
  | .mem a => x.mem.load w a.toNat

/-- The value of a source on an architectural part. -/
def Arch.sourceValue (x : Arch) {w : Width} : Source w → BitVec w.bits
  | .reg r => x.regs.get r
  | .mem m => x.mem.load w (ea m x.regs).toNat
  | .imm v => v

theorem runs_resolve {s : State} {x : Arch} (hu : s.undisturbed = true) (hx : s.arch = x) (hs : x.steady) {w : Width}
    (d : Loc w) (E : Arch → Prop) : Runs (resolve d) s (fun p y => p = placeOf d x.regs ∧ y = x) E :=
  runs_does (does_resolve hu hx hs d) ⟨rfl, rfl⟩

theorem runs_loadOperand {s : State} {x : Arch} (hu : s.undisturbed = true) (hx : s.arch = x) (hs : x.steady) (w : Width)
    (a : Word) : Runs (loadOperand w a) s (fun v y => v = x.mem.load w a.toNat ∧ y = x) x.faulted := by
  refine runs_seq (runs_memRead hu hx hs w a.toNat) ?_
  rintro t v y ht hy ⟨rfl, rfl⟩
  exact runs_does (does_seq (does_setId ht hy hs _) fun _ ht hy => does_pure ht hy _) ⟨rfl, rfl⟩

theorem runs_readPlace {s : State} {x : Arch} (hu : s.undisturbed = true) (hx : s.arch = x) (hs : x.steady) {w : Width}
    (p : Place w) : Runs (readPlace p) s (fun v y => v = x.placeValue p ∧ y = x) x.faulted := by
  cases p with
  | reg r => exact runs_does (does_look hu hx (fun x => x.regs.get r) (fun _ => rfl)) ⟨rfl, rfl⟩
  | mem a => exact runs_loadOperand hu hx hs w a

theorem runs_readSource {s : State} {x : Arch} (hu : s.undisturbed = true) (hx : s.arch = x) (hs : x.steady) {w : Width}
    (q : Source w) : Runs (readSource q) s (fun v y => v = x.sourceValue q ∧ y = x) x.faulted := by
  cases q with
  | reg r => exact runs_does (does_look hu hx (fun x => x.regs.get r) (fun _ => rfl)) ⟨rfl, rfl⟩
  | imm v => exact runs_does (does_pure hu hx _) ⟨rfl, rfl⟩
  | mem m =>
    have h := does_seq (k := fun a => (do setRi a; pure a : Micro Word)) (does_look hu hx (fun x => ea m x.regs) (fun _ => rfl)) fun _ ht hy =>
      does_seq (does_setRi ht hy hs (ea m x.regs)) fun _ ht hy => does_pure ht hy (ea m x.regs)
    refine runs_seq (runs_does h (Q := fun a y => a = ea m x.regs ∧ y = x) ⟨rfl, rfl⟩) ?_
    rintro t a y ht hy ⟨rfl, rfl⟩
    exact runs_loadOperand ht hy hs w _

/-- A place written, or a fault of a memory place (40_engine.md rule R143). -/
theorem runs_writePlace {s : State} {x : Arch} (hu : s.undisturbed = true) (hx : s.arch = x) (hs : x.steady) {w : Width}
    (p : Place w) (v : BitVec w.bits) :
    Runs (writePlace p v) s (fun _ y => y = x.put p v) fun y => (∃ a, p = .mem a) ∧ x.faultedOff p.off y := by
  cases p with
  | reg r => exact runs_does (does_setReg hu hx hs r v) rfl
  | mem a => exact runs_mono (runs_memWrite hu hx hs w a.toNat v) (fun _ _ h => h) fun _ h => ⟨⟨a, rfl⟩, h⟩

theorem runs_aluOp {s : State} {x : Arch} (hu : s.undisturbed = true) (hx : s.arch = x) (hs : x.steady) {n : Nat}
    (op : AluOp) (a b : BitVec n) (E : Arch → Prop) :
    Runs (aluOp op a b) s (fun v y => v = (alu op a b (flagCF x.regs.flags)).res ∧
      y = x.putFlags (flagsAfter x.regs.flags (alu op a b (flagCF x.regs.flags)))) E :=
  runs_does (does_aluOp hu hx hs op a b) ⟨rfl, rfl⟩

/-- Interrupt entry on every path: SP, IP and IF alone of the registers, and the two slots below SP alone of memory
(40_engine.md rule R155). -/
theorem runs_startInterrupt {s : State} {x : Arch} (hu : s.undisturbed = true) (hx : s.arch = x) (hs : x.steady) (n : Byte) :
    let R := fun y : Arch => ∃ sp ip f m, y = { x with
        cycle := y.cycle, faultRecord := y.faultRecord, regs := { x.regs with sp := sp, ip := ip, flags := f }, mem := m } ∧
      x.goesOnOrFaults y ∧
      (∀ j, j ≠ 9 → f.getLsbD j = x.regs.flags.getLsbD j) ∧
      ∀ b, ¬ within .w16 (x.regs.sp - 2).toNat b → ¬ within .w16 (x.regs.sp - 4).toNat b → m.read b = x.mem.read b
    Runs (startInterrupt n) s (fun _ y => R y) R := by
  intro R
  have h4 : x.regs.sp - 2 - 2 = x.regs.sp - 4 := by
    rw [BitVec.sub_sub]
    rfl
  have hif : ∀ j, j ≠ 9 → (setIF x.regs.flags false).getLsbD j = x.regs.flags.getLsbD j := fun j hj => by
    rw [setIF_getLsbD, if_neg hj]
  refine runs_seq (Q := fun f y => f = x.regs.flags ∧ y = x)
    (runs_does (does_look hu hx (fun x => x.regs.flags) (fun _ => rfl)) ⟨rfl, rfl⟩) ?_
  rintro t1 f y h1 e1 ⟨hf, hy⟩
  rw [hf]
  rw [hy] at e1
  refine runs_seq (runs_mono (runs_push h1 e1 hs _) (fun _ _ h => h) ?_) ?_
  · rintro y (⟨f, rfl⟩ | ⟨m, f, rfl, hm⟩)
    · exact ⟨_, _, _, _, rfl, Arch.faults f rfl rfl rfl, fun _ _ => rfl, fun _ _ _ => rfl⟩
    · exact ⟨_, _, _, m, rfl, Arch.faults f rfl rfl rfl, fun _ _ => rfl, fun b hb _ => hm b hb⟩
  rintro t2 _ y h2 e2 rfl
  refine runs_seq (runs_does (does_setFlags h2 e2 hs _) (Q := fun _ y => y = _) rfl) ?_
  rintro t3 _ z h3 e3 rfl
  refine runs_seq (runs_does (does_look h3 e3 (fun x => x.regs.ip) (fun _ => rfl))
    (Q := fun a z => a = x.regs.ip ∧ z = (x.pushed x.regs.flags).putFlags (setIF x.regs.flags false)) ⟨rfl, rfl⟩) ?_
  rintro t4 a z h4' e4 ⟨rfl, rfl⟩
  have hm1 : ∀ b, ¬ within .w16 (x.regs.sp - 2).toNat b → (x.pushed x.regs.flags).mem.read b = x.mem.read b :=
    fun b hb => x.mem.read_store_other hb _
  refine runs_seq (runs_mono (runs_push h4' e4 hs _) (fun _ _ h => h) ?_) ?_
  · rintro y (⟨f, rfl⟩ | ⟨m, f, rfl, hm⟩)
    · exact ⟨_, _, _, _, rfl, Arch.faults f rfl rfl rfl, hif, fun b hb _ => hm1 b hb⟩
    · refine ⟨_, _, _, m, rfl, Arch.faults f rfl rfl rfl, hif, fun b hb hb' => (hm b ?_).trans (hm1 b hb)⟩
      show ¬ within .w16 (x.regs.sp - 2 - 2).toNat b
      rwa [h4]
  rintro t5 _ y h5 e5 rfl
  have hm2 : ∀ b, ¬ within .w16 (x.regs.sp - 2).toNat b → ¬ within .w16 (x.regs.sp - 4).toNat b →
      (((x.pushed x.regs.flags).putFlags (setIF x.regs.flags false)).pushed x.regs.ip).mem.read b = x.mem.read b := by
    intro b hb hb'
    refine (Memory.read_store_other _ ?_ _).trans (hm1 b hb)
    show ¬ within .w16 (x.regs.sp - 2 - 2).toNat b
    rwa [h4]
  refine runs_seq (runs_mono (runs_memRead h5 e5 hs .w16 _) (fun _ _ h => h) ?_) ?_
  · rintro y ⟨f, rfl⟩
    exact ⟨_, _, _, _, rfl, Arch.faults f rfl rfl rfl, hif, hm2⟩
  rintro t6 v y h6 e6 ⟨rfl, rfl⟩
  exact runs_does (does_setIp h6 e6 hs _) ⟨_, _, _, _, rfl, Arch.goesOn rfl rfl rfl, hif, hm2⟩

/-- From `x` to `y` INT 7 has sent bytes, and may have faulted: BX, AL and the four ALU flags alone. -/
def Arch.sending (x y : Arch) : Prop :=
  ∃ bx al f, y = { x with
      cycle := y.cycle, faultRecord := y.faultRecord, regs := ({ x.regs with bx := bx, flags := f } : Regs).set Reg.al al } ∧
    x.goesOnOrFaults y ∧ ∀ j, j ≠ 0 → j ≠ 6 → j ≠ 7 → j ≠ 11 → f.getLsbD j = x.regs.flags.getLsbD j

theorem Arch.sending_same {x y : Arch} (h : y = { x with cycle := y.cycle, faultRecord := y.faultRecord })
    (hg : x.goesOnOrFaults y) : x.sending y := by
  refine ⟨x.regs.bx, lowByte x.regs.ax, x.regs.flags, ?_, hg, fun _ _ _ _ _ => rfl⟩
  rw [h]
  simp [Regs.set, join_high_low]

theorem Arch.sending_sent {x y : Arch} (h : x.sent.sending y) : x.sending y := by
  obtain ⟨bx, al, f, hy, hg, hf⟩ := h
  refine ⟨bx, al, f, ?_, by rwa [Arch.sent_eq] at hg, fun j h0 h6 h7 h11 => ?_⟩
  · rw [hy, Arch.sent_eq]
    simp [Regs.set, highByte_join]
  · rw [hf j h0 h6 h7 h11, Arch.sent_eq]
    simp [flagsAfter, setAluFlags_getLsbD, h0, h6, h7, h11]

/-- INT 7 on every path (47_software_interrupt.md rule R287). -/
theorem runs_transmit {s : State} {x : Arch} (hu : s.undisturbed = true) (hx : s.arch = x) (hs : x.steady) (n : Nat) :
    Runs (transmit n) s (fun _ y => x.sending y) x.sending := by
  induction n generalizing s x with
  | zero => exact runs_does (does_pure hu hx ()) (Arch.sending_same (y := x) rfl (Arch.goesOn rfl rfl rfl))
  | succ n ih =>
    refine runs_seq (Q := fun a y => a = x.regs.get Reg.al ∧ y = x)
      (runs_does (does_look hu hx (fun x => x.regs.get Reg.al) (fun _ => rfl)) ⟨rfl, rfl⟩) ?_
    rintro t a y ht hy ⟨ha, he⟩
    rw [he] at hy
    split
    · exact runs_does (does_pure ht hy ()) (Arch.sending_same (y := x) rfl (Arch.goesOn rfl rfl rfl))
    · by_cases hb : x.regs.bx.toNat ≤ x.params.memMax
      · refine runs_seq (runs_does (does_transmitByte ht hy hs hb) (Q := fun _ z => z = x.sent) rfl) ?_
        rintro u _ z hu' hz he
        rw [he] at hz
        have hs' : x.sent.steady := by
          rw [Arch.sent_eq]
          exact hs
        exact runs_mono (ih hu' hz hs') (fun _ _ h => Arch.sending_sent h) fun _ h => Arch.sending_sent h
      · exact runs_fails (fails_bind (fails_transmitByte ht hy hs (by omega))) (Arch.sending_same (y := x.faulting _) rfl (Arch.faults _ rfl rfl rfl))

end Sys2Proof.Machine
end

