-- ==== Sys2Proof/Tests/Slice0.lean ====
section
/-! SUPPORT. Tests. Expected values come from spec/95_test_vectors.md (its vector is named in the docstring) or from the rule
named; the words of the decode tests are descriptors written out from 30_encoding.md rules R101 and R110. The last section
gives, for every statement with hypotheses, states and operands that meet them. -/

namespace Sys2Proof.Tests

open Sys2Proof.Machine

-- One test after another: a hundred kernel evaluations that wait for each other at once need more threads than the check allows.
set_option Elab.async false

/-! ## Ill-formed terms, each refused by its check (30_encoding.md rules R103, R104, R111) -/

/-- A NOP of `len` bytes at `a`. -/
def nopAt (a : Word) (len : Nat) : Descriptor :=
  { addr := a, len := len, code := encodeCode .nop, bytes := List.replicate len 0x00 }

theorem test_refused_zeroLength : Program.reject? 0x7FFF ⟨[nopAt 0x2000 0], []⟩ = some .zeroLength := by decide

theorem test_refused_outsideMemory : Program.reject? 0x7FFF ⟨[nopAt 0x7FFF 2], []⟩ = some .outsideMemory := by decide

theorem test_refused_byteCount :
    Program.reject? 0x7FFF ⟨[{ nopAt 0x2000 2 with bytes := [0x00] }], []⟩ = some .byteCount := by decide

theorem test_refused_jumpLength :
    Program.reject? 0x7FFF ⟨[{ nopAt 0x2000 2 with code := encodeCode (.jmp 0x2000) }], []⟩ = some .jumpLength := by
  decide

theorem test_refused_overlap :
    Program.reject? 0x7FFF ⟨[nopAt 0x2000 2, nopAt 0x2001 1], []⟩ = some .overlap := by decide

theorem test_refused_dataOutsideMemory :
    Program.reject? 0x7FFF ⟨[], [⟨0x7FFF, [some 0x01, some 0x02]⟩]⟩ = some .dataOutsideMemory ∧
      Program.reject? 0x7FFF ⟨[], [⟨0x7FFF, [some 0x01, none]⟩]⟩ = none := by decide

theorem test_refused_wrongFamily :
    decodeCode ⟨.unaryAlu, .add, some .w8, [.reg8 .al, .reg8 .bl]⟩ = .error .wrongFamily := by decide

theorem test_refused_wrongWidth :
    decodeCode ⟨.binaryAlu, .add, none, [.reg8 .al, .reg8 .bl]⟩ = .error .wrongWidth ∧
      decodeCode ⟨.stack, .push, some .w8, [.reg8 .al]⟩ = .error .wrongWidth := by decide

theorem test_refused_wrongOperands :
    decodeCode ⟨.binaryAlu, .add, some .w8, [.mem (.direct 0x1000), .mem (.indirect none)]⟩ = .error .wrongOperands ∧
      decodeCode ⟨.binaryAlu, .add, some .w8, [.imm 1, .reg8 .al]⟩ = .error .wrongOperands ∧
      decodeCode ⟨.binaryAlu, .add, some .w8, [.reg8 .al, .reg16 .bx]⟩ = .error .wrongOperands ∧
      decodeCode ⟨.io, .inp, some .w8, [.reg8 .bl, .port .dx]⟩ = .error .wrongOperands := by decide

theorem test_refused_immediateRange :
    decodeCode ⟨.dataMove, .mov, some .w8, [.reg8 .al, .imm 0x100]⟩ = .error .immediateRange ∧
      decodeCode ⟨.dataMove, .mov, some .w16, [.reg16 .ax, .imm 0x10000]⟩ = .error .immediateRange := by decide

theorem test_refused_portRange :
    decodeCode ⟨.io, .inp, some .w8, [.reg8 .al, .port (.imm 0x100)]⟩ = .error .portRange := by decide

theorem test_refused_interruptRange :
    decodeCode ⟨.softwareInterrupt, .int, none, [.intNum 0x100]⟩ = .error .interruptRange := by decide

theorem test_refused_badTableWord :
    decodeBytes [36] = .error .badTableWord ∧ decodeBytes [0, 2, 0, 0] = .error .badTableWord ∧
      decodeBytes [] = .error .badTableWord := by decide

/-! ## Decoding: a descriptor written out from the table's row for every constructor -/

theorem test_decode_add :
    decodeCode ⟨.binaryAlu, .add, some .w16, [.reg16 .ax, .imm 0xFFFF]⟩ = .ok (.add .w16 (.ri .ax 0xFFFF)) := by decide

theorem test_decode_adc :
    decodeCode ⟨.binaryAlu, .adc, some .w8, [.mem (.indirect none), .reg8 .dh]⟩ =
      .ok (.adc .w8 (.mr (.indirect none) .dh)) := by decide

theorem test_decode_sub :
    decodeCode ⟨.binaryAlu, .sub, some .w8, [.reg8 .al, .reg8 .al]⟩ = .ok (.sub .w8 (.rr .al .al)) := by decide

theorem test_decode_sbb :
    decodeCode ⟨.binaryAlu, .sbb, some .w16, [.mem (.direct 0x1000), .imm 0x8000]⟩ =
      .ok (.sbb .w16 (.mi (.direct 0x1000) 0x8000)) := by decide

theorem test_decode_cmp :
    decodeCode ⟨.binaryAlu, .cmp, some .w8, [.reg8 .cl, .imm 0]⟩ = .ok (.cmp .w8 (.ri .cl 0)) := by decide

theorem test_decode_and :
    decodeCode ⟨.binaryAlu, .and, some .w16, [.reg16 .sp, .reg16 .dx]⟩ = .ok (.and .w16 (.rr .sp .dx)) := by decide

theorem test_decode_or :
    decodeCode ⟨.binaryAlu, .or, some .w8, [.reg8 .bh, .mem (.indirect (some 2))]⟩ =
      .ok (.or .w8 (.rm .bh (.indirect (some 2)))) := by decide

theorem test_decode_xor :
    decodeCode ⟨.binaryAlu, .xor, some .w16, [.reg16 .ax, .reg16 .ax]⟩ = .ok (.xor .w16 (.rr .ax .ax)) := by decide

theorem test_decode_inc : decodeCode ⟨.unaryAlu, .inc, some .w8, [.reg8 .al]⟩ = .ok (.inc .w8 (.reg .al)) := by decide

theorem test_decode_dec : decodeCode ⟨.unaryAlu, .dec, some .w16, [.reg16 .cx]⟩ = .ok (.dec .w16 (.reg .cx)) := by decide

theorem test_decode_neg :
    decodeCode ⟨.unaryAlu, .neg, some .w8, [.mem (.direct 0x1000)]⟩ = .ok (.neg .w8 (.mem (.direct 0x1000))) := by decide

theorem test_decode_not :
    decodeCode ⟨.unaryAlu, .not, some .w16, [.mem (.indirect none)]⟩ = .ok (.not .w16 (.mem (.indirect none))) := by decide

/-- M2. -/
theorem test_decode_mov :
    decodeCode ⟨.dataMove, .mov, some .w16, [.mem (.indirect none), .reg16 .ax]⟩ =
      .ok (.mov .w16 (.mr (.indirect none) .ax)) := by decide

theorem test_decode_jmp : decodeCode ⟨.jumpCall, .jmp, none, [.target 0x2010]⟩ = .ok (.jmp 0x2010) := by decide
theorem test_decode_jz : decodeCode ⟨.jumpCall, .jz, none, [.target 0x2010]⟩ = .ok (.jz 0x2010) := by decide
theorem test_decode_jnz : decodeCode ⟨.jumpCall, .jnz, none, [.target 0x2010]⟩ = .ok (.jnz 0x2010) := by decide
theorem test_decode_js : decodeCode ⟨.jumpCall, .js, none, [.target 0x2010]⟩ = .ok (.js 0x2010) := by decide
theorem test_decode_jns : decodeCode ⟨.jumpCall, .jns, none, [.target 0x2010]⟩ = .ok (.jns 0x2010) := by decide
theorem test_decode_jc : decodeCode ⟨.jumpCall, .jc, none, [.target 0x2010]⟩ = .ok (.jc 0x2010) := by decide
theorem test_decode_jnc : decodeCode ⟨.jumpCall, .jnc, none, [.target 0x2010]⟩ = .ok (.jnc 0x2010) := by decide
theorem test_decode_jo : decodeCode ⟨.jumpCall, .jo, none, [.target 0x2010]⟩ = .ok (.jo 0x2010) := by decide
theorem test_decode_jno : decodeCode ⟨.jumpCall, .jno, none, [.target 0x2010]⟩ = .ok (.jno 0x2010) := by decide
theorem test_decode_call : decodeCode ⟨.jumpCall, .call, none, [.target 0x3000]⟩ = .ok (.call 0x3000) := by decide

/-- The width of a stack descriptor given, and left out as in L3 program 2 (log 1). -/
theorem test_decode_push :
    decodeCode ⟨.stack, .push, some .w16, [.reg16 .sp]⟩ = .ok (.push .sp) ∧
      decodeCode ⟨.stack, .push, none, [.reg16 .ax]⟩ = .ok (.push .ax) := by decide

theorem test_decode_pop : decodeCode ⟨.stack, .pop, none, [.reg16 .dx]⟩ = .ok (.pop .dx) := by decide
theorem test_decode_pushf : decodeCode ⟨.stack, .pushf, some .w16, []⟩ = .ok .pushf := by decide
theorem test_decode_popf : decodeCode ⟨.stack, .popf, some .w16, []⟩ = .ok .popf := by decide

theorem test_decode_in :
    decodeCode ⟨.io, .inp, some .w16, [.reg16 .ax, .port (.imm 0x10)]⟩ = .ok (.inp .w16 (.imm 0x10)) ∧
      decodeCode ⟨.io, .inp, some .w8, [.reg8 .al, .port .dx]⟩ = .ok (.inp .w8 .dx) := by decide

theorem test_decode_out :
    decodeCode ⟨.io, .outp, some .w8, [.port (.imm 0x25), .reg8 .al]⟩ = .ok (.outp .w8 (.imm 0x25)) ∧
      decodeCode ⟨.io, .outp, some .w16, [.port .dx, .reg16 .ax]⟩ = .ok (.outp .w16 .dx) := by decide

theorem test_decode_int : decodeCode ⟨.softwareInterrupt, .int, none, [.intNum 0xFF]⟩ = .ok (.int 0xFF) := by decide
theorem test_decode_hlt : decodeCode ⟨.processorControl, .hlt, none, []⟩ = .ok .hlt := by decide
theorem test_decode_cli : decodeCode ⟨.processorControl, .cli, none, []⟩ = .ok .cli := by decide
theorem test_decode_sti : decodeCode ⟨.processorControl, .sti, none, []⟩ = .ok .sti := by decide
theorem test_decode_nop : decodeCode ⟨.processorControl, .nop, none, []⟩ = .ok .nop := by decide
theorem test_decode_ret : decodeCode ⟨.return, .ret, none, []⟩ = .ok .ret := by decide
theorem test_decode_iret : decodeCode ⟨.return, .iret, none, []⟩ = .ok .iret := by decide

/-- The model's own byte form (log 2): row 12 (MOV), width 16, AX, a 16-bit immediate. -/
theorem test_tableWord_mov : decodeTableWord 48 0x12341408010C = some (.mov .w16 (.ri .ax 0x1234)) := by decide

/-- The bits above `nbits` are 0: a jump of whose three bytes the table gives only the first. -/
theorem test_tableWord_short : decodeTableWord 8 13 = some (.jmp 0x0000) := by decide

/-! ## One step or one execute phase, against spec/95 -/

/-- The next state of an outcome. -/
def got (o : Host.Outcome State Fault Refusal) : State :=
  match o with
  | .next t => t
  | .fault _ => State.reset
  | .refused _ => State.reset

/-- The execute phase after reset, with other registers, the bytes of `m` stored from `a`, a word access each. -/
def execState (g : Regs) (ws : List (Nat × Word)) : State :=
  { State.reset with
    cycle := .opened
    regs := g
    mem := ws.foldl (fun m c => m.store .w16 c.1 c.2) State.reset.mem }

/-- The registers after reset. -/
def regs0 : Regs := State.reset.regs

/-- The same with four bytes of code at 0x2000. -/
def codeState (g : Regs) : State :=
  { State.reset with cycle := .opened, regs := g, program := ⟨[nopAt 0x2000 4], []⟩ }

/-- A machine about to run `i`, of `len` bytes at 0x2000. -/
def loaded (i : Instr) (len : Nat) (g : Regs) (ws : List (Nat × Word)) : State :=
  { execState g ws with
    cycle := .closed
    program := ⟨[{ addr := 0x2000, len := len, code := encodeCode i, bytes := List.replicate len 0x00 }], []⟩ }

/-- FLAGS with CF, ZF, SF, OF as spec/95 writes them and nothing else. -/
def czso (c z s o : Bool) : Word := setAluFlags 0 c z s o

/-- A1. -/
theorem test_add_to_memory :
    let t := got (exec (.add .w8 (.mr (.indirect none) .al))
      (execState { regs0 with ax := 0x0005, bx := 0x1000 } [(0x1000, 0x0010)]))
    t.mem.read 0x1000 = 0x15 ∧ t.regs.flags = czso false false false false ∧ t.regs.ax = 0x0005 := by decide +kernel

/-- A7: the second byte of the read is outside memory; AX and FLAGS stay. -/
theorem test_add_source_outside :
    let t := got (exec (.add .w16 (.rm .ax (.indirect none))) (execState { regs0 with ax := 0x1234, bx := 0x7FFF } []))
    t.faultRecord = some (.memOutOfRange 0x8000) ∧ t.regs = { regs0 with ax := 0x1234, bx := 0x7FFF } := by
  decide +kernel

/-- Row ADC 8 0x7F 0x00 1. -/
theorem test_adc_carry_in :
    let t := got (exec (.adc .w8 (.ri .ah 0x00)) (execState { regs0 with ax := 0x7F11, flags := 0x0001 } []))
    t.regs.ax = 0x8011 ∧ t.regs.flags = czso false false true true := by decide +kernel

/-- A5: IF and the don't-care bits stay (rule R161). -/
theorem test_sub_self :
    let t := got (exec (.sub .w8 (.rr .al .al)) (execState { regs0 with ax := 0xAA37, flags := 0x0203 } []))
    t.regs.ax = 0xAA00 ∧ t.regs.flags = 0x0242 := by decide +kernel

/-- Row SBB 8 0x80 0x7F 1. -/
theorem test_sbb_borrow_in :
    let t := got (exec (.sbb .w8 (.rr .bl .ch)) (execState { regs0 with bx := 0x0080, cx := 0x7F00, flags := 0x0001 } []))
    t.regs.bx = 0x0000 ∧ t.regs.flags = czso false true false true := by decide +kernel

/-- A4: CMP with code as its destination writes FLAGS and does not fault. -/
theorem test_cmp_code :
    let t := got (exec (.cmp .w8 (.mr (.indirect none) .al)) (codeState { regs0 with ax := 0x0001, bx := 0x2000 }))
    t.run = .running ∧ t.regs.flags = czso true false true false := by decide +kernel

/-- Row AND 16 0x8000 0xFFFF, clearing CF and OF. -/
theorem test_and_clears :
    let t := got (exec (.and .w16 (.ri .sp 0xFFFF)) (execState { regs0 with flags := 0x0801 } []))
    t.regs.sp = 0x8000 ∧ t.regs.flags = czso false false true false := by decide +kernel

/-- Row OR 8 0x80 0x01. -/
theorem test_or :
    let t := got (exec (.or .w8 (.rr .dh .dl)) (execState { regs0 with dx := 0x8001 } []))
    t.regs.dx = 0x8101 ∧ t.regs.flags = czso false false true false := by decide +kernel

/-- A6. -/
theorem test_xor_self :
    let t := got (exec (.xor .w16 (.rr .ax .ax)) (execState { regs0 with ax := 0x1234 } []))
    t.regs.ax = 0x0000 ∧ t.regs.flags = czso false true false false := by decide +kernel

/-- U1: INC clears CF. -/
theorem test_inc_writes_carry :
    let t := got (exec (.inc .w8 (.reg .al)) (execState { regs0 with ax := 0x0005, flags := 0x0001 } []))
    t.regs.ax = 0x0006 ∧ t.regs.flags = 0x0000 := by decide +kernel

/-- Row INC 16 0xFFFF. -/
theorem test_inc_wraps :
    let t := got (exec (.inc .w16 (.reg .cx)) (execState { regs0 with cx := 0xFFFF } []))
    t.regs.cx = 0x0000 ∧ t.regs.flags = czso true true false false := by decide +kernel

/-- U2: FLAGS are written, then the write to code faults. -/
theorem test_dec_code :
    let t := got (exec (.dec .w8 (.mem (.indirect none))) (codeState { regs0 with bx := 0x2000 }))
    t.faultRecord = some (.memWriteReserved 0x2000) ∧ t.regs.flags = czso true false true false ∧
      t.mem.read 0x2000 = 0x00 := by decide +kernel

/-- Row NEG 8 0x80. -/
theorem test_neg_min :
    let t := got (exec (.neg .w8 (.reg .ah)) (execState { regs0 with ax := 0x8001 } []))
    t.regs.ax = 0x8001 ∧ t.regs.flags = czso true false true true := by decide +kernel

/-- Row NOT 16 0x5555. -/
theorem test_not :
    let t := got (exec (.not .w16 (.mem (.direct 0x1000))) (execState { regs0 with flags := 0x0841 } [(0x1000, 0x5555)]))
    t.mem.load .w16 0x1000 = 0xAAAA ∧ t.regs.flags = czso false false true false := by decide +kernel

/-- M4: the effective address wraps. -/
theorem test_mov_wraps :
    let t := got (exec (.mov .w8 (.rm .al (.indirect (some 0xFFFF))))
      (execState { regs0 with bx := 0x0001, flags := 0x0841 } [(0x0000, 0x0077)]))
    t.regs.ax = 0x0077 ∧ t.regs.flags = 0x0841 := by decide +kernel

/-- M6: the first byte of a word store stays when the second is code. -/
theorem test_mov_half_stored :
    let t := got (exec (.mov .w16 (.mr (.direct 0x1FFF) .ax)) (codeState { regs0 with ax := 0xABCD }))
    t.mem.read 0x1FFF = 0xCD ∧ t.faultRecord = some (.memWriteReserved 0x2000) := by decide +kernel

/-- Where a jump to 0x2010, three bytes at 0x2000, leaves IP. -/
def jumpsTo (i : Instr) (f : Word) : Word := (got (step (loaded i 3 { regs0 with flags := f } []))).regs.ip

theorem test_jmp : jumpsTo (.jmp 0x2010) 0 = 0x2010 := by decide +kernel
theorem test_jz : jumpsTo (.jz 0x2010) 0x0040 = 0x2010 ∧ jumpsTo (.jz 0x2010) 0 = 0x2003 := by decide +kernel
theorem test_jnz : jumpsTo (.jnz 0x2010) 0 = 0x2010 ∧ jumpsTo (.jnz 0x2010) 0x0040 = 0x2003 := by decide +kernel
theorem test_js : jumpsTo (.js 0x2010) 0x0080 = 0x2010 ∧ jumpsTo (.js 0x2010) 0 = 0x2003 := by decide +kernel
theorem test_jns : jumpsTo (.jns 0x2010) 0 = 0x2010 ∧ jumpsTo (.jns 0x2010) 0x0080 = 0x2003 := by decide +kernel
theorem test_jc : jumpsTo (.jc 0x2010) 0x0001 = 0x2010 ∧ jumpsTo (.jc 0x2010) 0 = 0x2003 := by decide +kernel
theorem test_jnc : jumpsTo (.jnc 0x2010) 0 = 0x2010 ∧ jumpsTo (.jnc 0x2010) 0x0001 = 0x2003 := by decide +kernel
theorem test_jo : jumpsTo (.jo 0x2010) 0x0800 = 0x2010 ∧ jumpsTo (.jo 0x2010) 0 = 0x2003 := by decide +kernel
theorem test_jno : jumpsTo (.jno 0x2010) 0 = 0x2010 ∧ jumpsTo (.jno 0x2010) 0x0800 = 0x2003 := by decide +kernel

/-- J1. -/
theorem test_call :
    let t := got (step (loaded (.call 0x3000) 3 regs0 []))
    t.mem.read 0x7FFE = 0x03 ∧ t.mem.read 0x7FFF = 0x20 ∧ t.regs = { regs0 with sp := 0x7FFE, ip := 0x3000 } := by
  decide +kernel

/-- J2. -/
theorem test_call_overflow :
    let t := got (step (loaded (.call 0x3000) 3 { regs0 with sp := 0x0001 } []))
    t.run = .halted (.fault (.stackOverflow 0x0001)) ∧ t.regs.sp = 0x0001 ∧ t.regs.ip = 0x2003 := by decide +kernel

/-- S7: the value pushed is SP as it was. -/
theorem test_push_sp :
    let t := got (exec (.push .sp) (execState regs0 []))
    t.mem.read 0x7FFE = 0x00 ∧ t.mem.read 0x7FFF = 0x80 ∧ t.regs.sp = 0x7FFE := by decide +kernel

/-- S9: SP stays adjusted when the slot is code. -/
theorem test_push_code :
    let t := got (exec (.push .ax) (codeState { regs0 with sp := 0x2004 }))
    t.regs.sp = 0x2002 ∧ t.faultRecord = some (.memWriteReserved 0x2002) := by decide +kernel

/-- S8: SP holds the popped word. -/
theorem test_pop_sp :
    let t := got (exec (.pop .sp) (execState { regs0 with sp := 0x7FFE } [(0x7FFE, 0x1000)]))
    t.regs.sp = 0x1000 := by decide +kernel

/-- S3. -/
theorem test_pop_underflow :
    (got (exec (.pop .ax) (execState regs0 []))).faultRecord = some (.stackUnderflow 0x8000) ∧
      (got (exec (.pop .ax) (execState { regs0 with sp := 0x7FFF } []))).faultRecord =
        some (.stackUnderflow 0x7FFF) := by decide +kernel

/-- S5. -/
theorem test_pushf :
    let t := got (exec .pushf (execState { regs0 with flags := 0x0241 } []))
    t.mem.read 0x7FFE = 0x41 ∧ t.mem.read 0x7FFF = 0x02 := by decide +kernel

/-- S6. -/
theorem test_popf :
    let t := got (exec .popf (execState { regs0 with sp := 0x7FFE } [(0x7FFE, 0x0200)]))
    t.regs.flags = 0x0200 ∧ t.regs.sp = 0x8000 := by decide +kernel

/-- The same with other devices. -/
def withDevices (s : State) (c : Configuration) (d : Devices) : State :=
  { s with params := Config.params c, dev := d }

/-- An I/O space of 2^16 addresses, CONT at the last and COMP at the first. -/
def wideIo (s : State) : State := { s with params := { s.params with ioMax := 0xFFFF, ioMap := [(0xFFFF, .cont), (0x0000, .comp)] } }

/-- IO2; and with p = 0xFFFF the high byte comes from port 0 (00_scope.md rule R8). -/
theorem test_in_word :
    let d := { State.reset.dev with timer := { cont := 0x05, comp := 0x0A } }
    (got (exec (.inp .w16 (.imm 0x10)) (withDevices (execState regs0 []) .picTimer d))).regs.ax = 0x0A05 ∧
      (got (exec (.inp .w16 .dx)
        (wideIo (withDevices (execState { regs0 with dx := 0xFFFF } []) .picTimer d)))).regs.ax = 0x0A05 := by
  decide +kernel

/-- IO6: a module absent from the configuration claims nothing. -/
theorem test_in_absent :
    (got (exec (.inp .w8 (.imm 0x30)) (execState regs0 []))).faultRecord = some (.ioUnclaimed 0x30) := by
  decide +kernel

/-- IO9: both registers are written and no line is requested; and with p = 0xFFFF AH goes to port 0 (00_scope.md rule R8). -/
theorem test_out_word :
    let t := got (exec (.outp .w16 (.imm 0x10)) (execState { regs0 with ax := 0x0A03 } []))
    let u := got (exec (.outp .w16 .dx) (wideIo (execState { regs0 with ax := 0x0A03, dx := 0xFFFF } [])))
    t.dev.timer = { cont := 0x03, comp := 0x0A } ∧ t.dev.pic.irr = 0x00 ∧ u.dev.timer = { cont := 0x03, comp := 0x0A } := by
  decide +kernel

/-- IO7: any value written to EOI clears ISR. -/
theorem test_out_eoi :
    let d := { State.reset.dev with pic := { State.reset.dev.pic with isr := 0x02 } }
    (got (exec (.outp .w8 (.imm 0x20)) (withDevices (execState { regs0 with ax := 0x0077 } []) .picTimer d))).dev.pic.isr =
      0x00 := by decide +kernel

/-- INT-1. -/
theorem test_int_vector :
    let t := got (step (loaded (.int 0x10) 2 { regs0 with flags := 0x0200 } [(0x0040, 0x3000)]))
    t.mem.load .w16 0x7FFE = 0x0200 ∧ t.mem.load .w16 0x7FFC = 0x2002 ∧
      t.regs = { regs0 with sp := 0x7FFC, flags := 0x0000, ip := 0x3000 } := by decide +kernel

/-- INT-5. -/
theorem test_int_seven :
    let t := got (exec (.int 7) (execState { regs0 with ax := 0x0002, bx := 0x1000 } [(0x1000, 0x6948)]))
    t.events.filter Event.isOutput = [.outputChar 0x69, .outputChar 0x48] ∧ t.regs.bx = 0x1002 ∧ t.regs.ax = 0x0000 ∧
      t.regs.flags = czso false true false false := by decide +kernel

/-- INT-7: the first byte is outside memory; nothing is sent, BX and AL stay. -/
theorem test_int_seven_outside :
    let t := got (exec (.int 7) (execState { regs0 with ax := 0x0001, bx := 0xFFFF } []))
    t.faultRecord = some (.memOutOfRange 0xFFFF) ∧ t.events.filter Event.isOutput = [] ∧
      t.regs = { regs0 with ax := 0x0001, bx := 0xFFFF } := by decide +kernel

/-- P1, and no interrupt is taken after it (H4). -/
theorem test_hlt :
    let t := got (step (loaded .hlt 1 regs0 []))
    t.run = .halted .hlt ∧ t.regs.ip = 0x2001 ∧ t.faultRecord = none := by decide +kernel

/-- P2. -/
theorem test_cli : (got (exec .cli (execState { regs0 with flags := 0x0241 } []))).regs.flags = 0x0041 := by decide +kernel

/-- P2. -/
theorem test_sti : (got (exec .sti (execState { regs0 with flags := 0x0041 } []))).regs.flags = 0x0241 := by decide +kernel

/-- A pending unmasked line 1 with vector number `n`. -/
def lineOne (n : Byte) : Devices :=
  { State.reset.dev with pic := { imr := 0xFD, irr := 0x02, isr := 0x00, vec := (Vector.replicate 8 0x00).set 1 n } }

/-- P3: the poll of STI's own cycle takes line 1, the pushed IP is the next instruction's. -/
theorem test_sti_polls :
    let t := got (step (withDevices (loaded .sti 1 regs0 [(0x0028, 0x3000)]) .picTimer (lineOne 0x0A)))
    t.mem.load .w16 0x7FFC = 0x2001 ∧ t.regs.ip = 0x3000 ∧ t.dev.pic.isr = 0x02 := by decide +kernel

/-- R140: `MOV AX, imm16` of two bytes only: the byte after IR's goes to the low half of `id`, whose high half stays. -/
theorem test_fetch_short :
    let d : Descriptor := ⟨0x2000, 2, encodeCode (.mov .w16 (.ri .ax 0x1234)), [0xB8, 0x34]⟩
    let s := { State.reset with mem := State.reset.mem.lay 0x2000 (d.bytes.map some) }
    (after (fetch d) s).latches.id = 0x0034 ∧ (after (fetch d) s).latches.ir = 0xB8 := by decide +kernel

/-- P4. -/
theorem test_nop :
    let t := got (step (loaded .nop 1 regs0 []))
    t.regs = { regs0 with ip := 0x2001 } ∧ t.run = .running := by decide +kernel

/-- P5. -/
theorem test_ret :
    let t := got (exec .ret (execState { regs0 with sp := 0x7FFE } [(0x7FFE, 0x2003)]))
    t.regs.ip = 0x2003 ∧ t.regs.sp = 0x8000 := by decide +kernel

/-- P6. -/
theorem test_iret :
    let t := got (exec .iret (execState { regs0 with sp := 0x7FFC } [(0x7FFC, 0x2002), (0x7FFE, 0x0200)]))
    t.regs = { regs0 with ip := 0x2002, flags := 0x0200, sp := 0x8000 } := by decide +kernel

/-- P6: the second pop underflows with IP already replaced. -/
theorem test_iret_underflow :
    let t := got (exec .iret (execState { regs0 with sp := 0x7FFE } [(0x7FFE, 0x2002)]))
    t.regs.ip = 0x2002 ∧ t.faultRecord = some (.stackUnderflow 0x8000) := by decide +kernel

/-! ## The devices, the cycle and reset -/

/-- W3. -/
theorem test_pic_priority :
    let p : Pic := { imr := 0x00, irr := 0x24, isr := 0x00, vec := ((Vector.replicate 8 0x00).set 2 0x0A).set 5 0x0D }
    p.acknowledge? = some (0x0A, { p with irr := 0x20, isr := 0x04 }) ∧
      ({ p with imr := 0x04 } : Pic).acknowledge? = some (0x0D, { p with imr := 0x04, irr := 0x04, isr := 0x20 }) := by
  decide +kernel

/-- W4. -/
theorem test_pic_no_nesting :
    let d := { State.reset.dev with pic := { State.reset.dev.pic with imr := 0x00, isr := 0x20 } }
    let e := (requestLine 0 d).1
    e.pic.irr = 0x01 ∧ e.pic.intr = false ∧ (e.write .picTimer .eoi 0x00).1.pic.intr = true := by decide +kernel

/-- H1. -/
theorem test_hardware_interrupt :
    let s := withDevices (loaded .nop 2 { regs0 with flags := 0x0240 } [(0x0028, 0x3000)]) .picTimer (lineOne 0x0A)
    let t := got (step s)
    t.dev.pic.irr = 0x00 ∧ t.dev.pic.isr = 0x02 ∧ t.mem.load .w16 0x7FFE = 0x0240 ∧ t.mem.load .w16 0x7FFC = 0x2002 ∧
      t.regs = { regs0 with sp := 0x7FFC, flags := 0x0040, ip := 0x3000 } := by decide +kernel

/-- T1: a masked request is latched. -/
theorem test_timer :
    let d := { State.reset.dev with timer := { cont := 0x01, comp := 0x02 } }
    let e := (tickTimer d).1
    e.timer.cont = 0x02 ∧ e.pic.irr = 0x02 ∧ (tickTimer e).1.timer.cont = 0x03 := by decide +kernel

/-- W7. -/
theorem test_port_bits :
    let d := { State.reset.dev with pio := { State.reset.dev.pio with ca := 0x0F, extA := 0xAA } }
    let e := (d.write .pioSwitchesLeds .pa 0x55).1
    e.pio.pa = 0x5A ∧ (moveSwitches .pioSwitchesLeds 0xFF e).1.pio.pa = 0x5F ∧
      (moveSwitches .pioSwitchesLeds 0x00 e).1.pio.pa = 0x50 := by decide +kernel

/-- PIO4: one strobe on the rising transition, none without. -/
theorem test_printer_strobe :
    let d := { State.reset.dev with pio := { State.reset.dev.pio with ca := 0xFD, cb := 0x00, pb := 0x41 } }
    let r := d.write .pioPrinter .pa 0x02
    r.2 = [.periph .pa 0x02, .printerStrobe 0x41] ∧ (r.1.write .pioPrinter .pa 0x02).2 = [.periph .pa 0x02] := by
  decide +kernel

/-- HS5, HS3. -/
theorem test_handshake :
    let d := { State.reset.dev with hs := { data := 0x42, ie := false, busy := true } }
    let r := d.write .handshakePrinter .state 0x82
    r.2 = [.periph .state 0x81, .printerStrobe 0x42] ∧ (driveBusy .handshakePrinter false r.1).1.pic.irr = 0x04 := by
  decide +kernel

/-- RS2. -/
theorem test_no_instruction : (got (step State.reset)).run = .halted (.fault (.noInstruction 0x2000)) := by decide +kernel

/-- R130's order, from its pseudocode: a cancel at the boundary of `fault`, and one at the boundary of `cycle-end`, come before
`run <- Halted`; the fault is recorded by then. -/
theorem test_cancel_before_halt :
    let t := got (step { State.reset with host := [[], [.cancel]] })
    let u := got (step { State.reset with host := [[], [], [.cancel]] })
    (t.run = .running ∧ t.faultRecord = some (.noInstruction 0x2000) ∧
      t.events = [.fault (.noInstruction 0x2000), .cycleStart 0x2000]) ∧
    u.run = .running ∧ u.events = [.cycleEnd .halt, .fault (.noInstruction 0x2000), .cycleStart 0x2000] := by decide +kernel

/-- R330, R400: a fault halts the engine with the record made, and a reset at the boundary of `cycle-end` leaves neither. -/
theorem test_reset_before_halt :
    let t := got (step State.reset)
    let u := got (step { State.reset with host := [[], [], [.reset ⟨[], []⟩ .clean]] })
    (t.run = .halted (.fault (.noInstruction 0x2000)) ∧ t.faultRecord = some (.noInstruction 0x2000) ∧ t.cycle = .closed) ∧
      u = State.reset := by decide +kernel

/-- RS1, RS3. -/
theorem test_reset_memory :
    let s := { execState { regs0 with ax := 0x1234 } [(0x1000, 0x0077)] with host := [] }
    (resetState ⟨[], []⟩ .unchanged s).mem.read 0x1000 = 0x77 ∧ (resetState ⟨[], []⟩ .unchanged s).regs.ax = 0x0000 ∧
      (resetState ⟨[], []⟩ .clean s).mem.read 0x1000 = 0x00 := by decide +kernel

/-- L3 program 2's data block: `DW 1234h` at 0x1000, an unassigned byte after it. -/
theorem test_reset_data :
    let m := (resetState ⟨[nopAt 0x2000 1], [⟨0x1000, [some 0x34, some 0x12, none]⟩]⟩ .clean State.reset).mem
    m.load .w16 0x1000 = 0x1234 ∧ m.read 0x1002 = 0x00 := by decide +kernel

/-- A placed table word (INT 0) is the first instruction that runs (R278). -/
theorem test_withFetchWord :
    let t := got (step (State.reset.withFetchWord 16 0x001D))
    t.run = .halted .int0 ∧ t.regs.ip = 0x2002 := by decide +kernel

/-- INT-4: the host's byte is stored at BX and the cycle ends. -/
theorem test_host_supplies :
    let t := got (step { execState { regs0 with bx := 0x1000 } [] with run := .awaitChar (some 0x41) })
    t.mem.read 0x1000 = 0x41 ∧ t.run = .running ∧ t.cycle = .closed := by decide +kernel

/-! ## Witnesses: states and operands that meet the hypotheses of each statement -/

/-- The execute phase of the state after reset. -/
def w0 : State := execState regs0 []

theorem w0_free (w : Width) (a : Nat) (h : a + w.bytes ≤ 0x8000) : w0.canWrite w a := ⟨h, fun _ _ => rfl⟩

theorem test_witness_ByteRead : w0.executing ∧ 0x7FFF ≤ w0.params.memMax ∧ w0.params.memMax < 0x8000 := by decide

theorem test_witness_ByteWrite :
    let s := codeState regs0
    s.executing ∧ (0x1FFF ≤ s.params.memMax ∧ s.reserved 0x1FFF = false) ∧
      (0x2000 ≤ s.params.memMax ∧ s.reserved 0x2000 = true) ∧ s.params.memMax < 0x8000 := by decide

theorem test_witness_WordAccess :
    let s := codeState regs0
    s.executing ∧ 0x7FFE + 1 ≤ s.params.memMax ∧ (s.reserved 0x2004 = false ∧ s.reserved 0x2005 = false) ∧
      (0x7FFF = s.params.memMax ∧ s.reserved 0x7FFF = false) ∧
      (0x1FFF + 1 ≤ s.params.memMax ∧ s.reserved 0x1FFF = false ∧ s.reserved 0x2000 = true) := by decide

theorem test_witness_ReadAfterWrite : State.reset.mem.wf = true := rfl

theorem test_witness_BinaryCompletes :
    let o : Operands .w16 := .mr (.direct 0x7FFE) .ax
    w0.executing ∧ w0.placeReadable (placeOf o.dst w0.regs) ∧ w0.sourceReadable o.src ∧
      w0.placeWritable (placeOf o.dst w0.regs) ∧
      (AluOp.add, Instr.add .w16 o) ∈ [(AluOp.add, Instr.add .w16 o), (.adc, .adc .w16 o), (.sub, .sub .w16 o),
        (.sbb, .sbb .w16 o), (.and, .and .w16 o), (.or, .or .w16 o), (.xor, .xor .w16 o)] :=
  ⟨by decide, by show w0.canRead _ _; decide, trivial, w0_free .w16 _ (by decide), by simp⟩

theorem test_witness_CmpCompletes :
    let s := codeState { regs0 with bx := 0x2003 }
    let o : Operands .w8 := .mi (.indirect none) 0x01
    s.executing ∧ s.placeReadable (placeOf o.dst s.regs) ∧ s.sourceReadable o.src :=
  ⟨by decide, by show State.canRead _ _ _; decide, trivial⟩

theorem test_witness_UnaryCompletes :
    let d : Loc .w8 := .mem (.direct 0x7FFF)
    w0.executing ∧ w0.placeReadable (placeOf d w0.regs) ∧ w0.placeWritable (placeOf d w0.regs) :=
  ⟨by decide, by show w0.canRead _ _; decide, w0_free .w8 _ (by decide)⟩

theorem test_witness_MovCompletes :
    let o : Operands .w16 := .rm .sp (.direct 0x7FFE)
    w0.executing ∧ w0.sourceReadable o.src ∧ w0.placeWritable (placeOf o.dst w0.regs) :=
  ⟨by decide, by show w0.canRead _ _; decide, trivial⟩

theorem test_witness_executing : w0.executing := by decide

/-- CALL, PUSH, PUSHF, and both boundaries of SP. -/
theorem test_witness_pushes :
    w0.executing ∧ w0.canPush ∧ (execState { regs0 with sp := 0x0002 } []).canPush :=
  ⟨by decide, ⟨by decide, w0_free .w16 _ (by decide)⟩, by decide, by decide, fun _ _ => rfl⟩

/-- POP, POPF, RET, IRET. -/
theorem test_witness_pops :
    (execState { regs0 with sp := 0x7FFE } []).executing ∧ (execState { regs0 with sp := 0x7FFE } []).canPop ∧
      (execState { regs0 with sp := 0x7FFC } []).regs.sp.toNat + 4 ≤ State.reset.params.memMax + 1 := by decide

/-- The default map, and a word transfer whose second address wraps. -/
theorem test_witness_io :
    let s := wideIo (execState { regs0 with dx := 0xFFFF } [])
    (w0.executing ∧ (portAddress (.imm 0x10) w0.regs).toNat ≤ w0.params.ioMax ∧
      chipSelect w0.params (portAddress (.imm 0x10) w0.regs).toNat = some .cont ∧
      (portAddress (.imm 0x10) w0.regs + 1).toNat ≤ w0.params.ioMax ∧
      chipSelect w0.params (portAddress (.imm 0x10) w0.regs + 1).toNat = some .comp) ∧
      (s.executing ∧ (portAddress .dx s.regs).toNat ≤ s.params.ioMax ∧
        chipSelect s.params (portAddress .dx s.regs).toNat = some .cont ∧
        chipSelect s.params (portAddress .dx s.regs + 1).toNat = some .comp) := by decide

theorem test_witness_IntVectorCompletes :
    w0.executing ∧ 4 ≤ w0.regs.sp.toNat ∧ w0.canWrite .w16 (w0.regs.sp - 2).toNat ∧
      w0.canWrite .w16 (w0.regs.sp - 4).toNat ∧ w0.canRead .w16 (4 * (0xFF : Byte).toNat) :=
  ⟨by decide, by decide, w0_free .w16 _ (by decide), w0_free .w16 _ (by decide), by decide⟩

theorem test_witness_IntThreeBreaks :
    let s := { w0 with cycle := .breakpoint }
    w0.executing ∧ (s.run = .running ∧ s.cycle = .breakpoint ∧ s.host = []) ∧
      ({ s with host := [[.resume]] } : State).host = [.resume] :: [] := by decide

theorem test_witness_IntSixReads :
    let s := { w0 with run := .awaitChar (some 0x41) }
    let c := { codeState { regs0 with bx := 0x2000 } with run := .awaitChar (some 0x41) }
    (s.run = .awaitChar (some 0x41) ∧ s.cycle = .opened ∧ s.undisturbed = true ∧ s.canWrite .w8 s.regs.bx.toNat) ∧
      State.reset.params.memMax < ({ regs0 with bx := 0x8000 } : Regs).bx.toNat ∧
      (c.canRead .w8 c.regs.bx.toNat ∧ c.reserved c.regs.bx.toNat = true) ∧
      ({ w0 with run := .awaitChar none, host := [[.supply 0x41]] } : State).host = [.supply 0x41] :: [] :=
  ⟨⟨rfl, rfl, rfl, by decide, fun _ _ => rfl⟩, by decide, by decide, rfl⟩

/-- One byte at the last address; and two bytes there, of which the second is outside. -/
theorem test_witness_IntSevenTransmits :
    let s := execState { regs0 with ax := 0x0001, bx := 0x7FFF } []
    let u := execState { regs0 with ax := 0x0002, bx := 0x7FFF } []
    (s.executing ∧ ∀ k, k < (s.regs.get Reg.al).toNat → (s.regs.bx + BitVec.ofNat 16 k).toNat ≤ s.params.memMax) ∧
      (u.executing ∧ 1 < (u.regs.get Reg.al).toNat ∧
        (∀ j, j < 1 → (u.regs.bx + BitVec.ofNat 16 j).toNat ≤ u.params.memMax) ∧
        u.params.memMax < (u.regs.bx + BitVec.ofNat 16 1).toNat) := by
  refine ⟨⟨by decide, fun k hk => ?_⟩, by decide, by decide, fun k hk => ?_, by decide⟩
  · have : k < 1 := hk
    obtain rfl : k = 0 := by omega
    decide
  · obtain rfl : k = 0 := by omega
    decide

/-- Each clause: a destination across the end of memory, a source above it, a destination in code, one whose second byte alone is
code, and for MOV one whose second byte alone is outside memory. -/
theorem test_witness_OperandFaults :
    let o : Operands .w16 := .mr (.direct 0x7FFF) .ax
    let q : Operands .w8 := .rm .al (.direct 0x8000)
    let c := codeState regs0
    let r : Operands .w8 := .mr (.direct 0x2000) .al
    let h : Operands .w16 := .mr (.direct 0x1FFF) .ax
    (placeOf o.dst w0.regs = .mem 0x7FFF ∧ (0x7FFF : Word).toNat = w0.params.memMax) ∧
      (q.src = .mem (.direct 0x8000) ∧ w0.params.memMax < (ea (.direct 0x8000) w0.regs).toNat) ∧
      (c.executing ∧ placeOf r.dst c.regs = .mem 0x2000 ∧ c.sourceReadable r.src ∧
        c.byteWriteFault 0x2000 = some (.memWriteReserved 0x2000) ∧ c.canRead .w8 0x2000) ∧
      (placeOf h.dst c.regs = .mem 0x1FFF ∧ c.sourceReadable h.src ∧ c.byteWriteFault 0x1FFF = none ∧
        c.byteWriteFault 0x2000 = some (.memWriteReserved 0x2000) ∧ c.canRead .w16 0x1FFF) ∧
      (w0.byteWriteFault 0x7FFF = none ∧ w0.byteWriteFault 0x8000 = some (.memOutOfRange 0x8000)) :=
  ⟨by decide, by decide, ⟨by decide, rfl, trivial, by decide, by decide⟩, ⟨rfl, trivial, by decide, by decide, by decide⟩,
    by decide⟩

/-- The three ways a push faults: no room, SP = 1; the slot in code (S9); the second byte alone in code. -/
theorem test_witness_pushFaults :
    let s := execState { regs0 with sp := 0x0001 } []
    let c := codeState { regs0 with sp := 0x2004 }
    let h := codeState { regs0 with sp := 0x2001 }
    (s.executing ∧ s.pushes .pushf s.regs.flags ∧
      s.pushFaults s.arch s.regs.flags s.arch (.stackOverflow 0x0001)) ∧
    (c.executing ∧ c.pushes (.push .ax) c.regs.ax ∧
      c.pushFaults c.arch c.regs.ax { c.arch with regs := { c.regs with sp := 0x2002 } } (.memWriteReserved 0x2002)) ∧
    (h.executing ∧ h.pushes (.call 0x3000) h.regs.ip ∧
      h.pushFaults h.arch h.regs.ip
        { h.arch with regs := { h.regs with sp := 0x1FFF }, mem := h.mem.write 0x1FFF (h.regs.ip.extractLsb' 0 8) }
        (.memWriteReserved 0x2000)) :=
  ⟨⟨by decide, .inr (.inl ⟨rfl, rfl⟩), .inl (by decide)⟩,
    ⟨by decide, .inl ⟨_, rfl, rfl⟩, .inr (.inl (by decide))⟩,
    by decide, .inr (.inr (.inl ⟨_, rfl, rfl⟩)), .inr (.inr (by decide))⟩

/-- INT-8: the second push of the entry has no room; the same of a hardware interrupt. And the pops. -/
theorem test_witness_StackFaults :
    let s := execState { regs0 with sp := 0x0002 } []
    let t := withDevices (execState { regs0 with sp := 0x0002, flags := 0x0200 } []) .picTimer (lineOne 0x0A)
    (s.executing ∧ s.canPush ∧ s.pushFaults s.arch.halfEntered s.regs.ip s.arch.halfEntered (.stackOverflow 0x0000)) ∧
      (t.run = .running ∧ t.cycle = .opened ∧ t.host = [] ∧ flagIF t.regs.flags = true ∧
        t.dev.pic.acknowledge? = some (0x0A, { t.dev.pic with irr := 0x00, isr := 0x02 }) ∧ t.canPush ∧
        t.pushFaults t.arch.halfEntered t.regs.ip t.arch.halfEntered (.stackOverflow 0x0000)) ∧
      w0.params.memMax + 1 < w0.regs.sp.toNat + 2 ∧
      (let s := execState { regs0 with sp := 0x7FFE } []
       s.executing ∧ s.canPop ∧ s.params.memMax + 1 < (s.regs.sp + 2).toNat + 2) :=
  ⟨⟨by decide, ⟨by decide, by decide, fun _ _ => rfl⟩, .inl (by decide)⟩,
    ⟨rfl, rfl, rfl, by decide, by decide +kernel, ⟨by decide, by decide, fun _ _ => rfl⟩, .inl (by decide)⟩, by decide,
    by decide⟩

/-- An address above IO_MAX (0xFF, then 0x100 as the second byte), and one no module claims (0x12 after COMP). -/
theorem test_witness_IoFaults :
    (w0.executing ∧ w0.params.ioMax < (portAddress .dx { regs0 with dx := 0x0100 }).toNat) ∧
      (0x12 ≤ w0.params.ioMax ∧ chipSelect w0.params 0x12 = none ∧ 0x12 = (portAddress (.imm 0x11) w0.regs + 1).toNat ∧
        chipSelect w0.params (portAddress (.imm 0x11) w0.regs).toNat = some .comp) := by decide

theorem test_witness_NoInstructionFaults :
    State.reset.ready ∧ State.reset.program.reject? State.reset.params.memMax = none ∧
      State.reset.index State.reset.regs.ip = none := by decide

theorem test_witness_AluRegisterFrame :
    let o : Operands .w8 := .rm .al (.direct 0x8000)
    w0.executing ∧ o.dst = .reg .al ∧ (∃ t, exec (.add .w8 o) w0 = .next t) ∧ ∃ t, exec (.inc .w8 (.reg .al)) w0 = .next t :=
  ⟨by decide, rfl, ⟨_, rfl⟩, _, rfl⟩

theorem test_witness_AluMemoryFrame :
    let o : Operands .w16 := .mr (.direct 0x7FFF) .ax
    w0.executing ∧ o.dst = .mem (.direct 0x7FFF) ∧ (∃ t, exec (.add .w16 o) w0 = .next t) ∧
      ∃ t, exec (.cmp .w16 o) w0 = .next t :=
  ⟨by decide, rfl, ⟨_, rfl⟩, _, rfl⟩

theorem test_witness_MovFrame :
    w0.executing ∧ (∃ t, exec (.mov .w16 (.rr .ax .sp)) w0 = .next t) ∧
      ∃ t, exec (.mov .w16 (.mr (.direct 0x7FFF) .ax)) w0 = .next t :=
  ⟨by decide, ⟨_, rfl⟩, _, rfl⟩

theorem test_witness_StackFrame :
    w0.executing ∧ (∃ t, exec (.push .ax) w0 = .next t) ∧ (∃ t, exec .iret w0 = .next t) :=
  ⟨by decide, ⟨_, rfl⟩, _, rfl⟩

theorem test_witness_IntFrame :
    w0.executing ∧ (∃ t, exec (.int 8) w0 = .next t) ∧ (∃ t, exec (.int 7) w0 = .next t) ∧
      (∃ t, exec (.int 6) w0 = .next t) ∧ (∃ t, exec (.int 3) w0 = .next t) ∧ ∃ t, exec (.int 0) w0 = .next t :=
  ⟨by decide, ⟨_, rfl⟩, ⟨_, rfl⟩, ⟨_, rfl⟩, ⟨_, rfl⟩, _, rfl⟩

theorem test_witness_IoFrame :
    w0.executing ∧ (∃ t, exec (.inp .w16 (.imm 0xFF)) w0 = .next t) ∧ ∃ t, exec (.outp .w8 .dx) w0 = .next t :=
  ⟨by decide, ⟨_, rfl⟩, _, rfl⟩

theorem test_witness_DecodeOnlyEncodings :
    decodeCode ⟨.stack, .push, none, [.reg16 .ax]⟩ = .ok (.push .ax) ∧ decodeCode (encodeCode .nop) = .ok .nop := by decide

theorem test_witness_StepRunsDecoded :
    let s := loaded .nop 1 regs0 []
    s.ready ∧ s.program.reject? s.params.memMax = none ∧ (s.index s.regs.ip).map (·.code) = some (encodeCode .nop) ∧
      decodeCode (encodeCode .nop) = .ok .nop := by decide

theorem test_witness_UnadmittedProgramRefused :
    let s := { State.reset with program := ⟨[nopAt 0x2000 0], []⟩ }
    s.run = .running ∧ s.cycle = .closed ∧ s.program.reject? s.params.memMax = some .zeroLength := by decide

theorem test_witness_EveryCycleEnds :
    State.reset.undisturbed = true ∧ State.reset.run = .running ∧ step State.reset = .next (got (step State.reset)) ∧
      (got (step State.reset)).cycle = .closed :=
  ⟨rfl, rfl, rfl, by decide +kernel⟩

theorem test_witness_AcknowledgeTakesLowest :
    (lineOne 0x0A).pic.intr = true ∧ State.reset.dev.pic.intr = false ∧
      ({ State.reset.dev.pic with isr := 0x20 } : Pic).isr ≠ 0 := by decide +kernel

theorem test_witness_NoNesting :
    ((0x20 : Byte) ≠ 0 ∧ State.reset.dev.pic.isr = 0) ∧ (lineOne 0x0A).pic.imr.getLsbD 1 = false := by decide +kernel

theorem test_witness_InterruptTaken :
    let s := withDevices (execState { regs0 with flags := 0x0200 } []) .picTimer (lineOne 0x0A)
    s.run = .running ∧ s.cycle = .opened ∧ s.host = [] ∧ flagIF s.regs.flags = true ∧
      s.dev.pic.acknowledge? = some (0x0A, { s.dev.pic with irr := 0x00, isr := 0x02 }) ∧ 4 ≤ s.regs.sp.toNat ∧
      s.canWrite .w16 (s.regs.sp - 2).toNat ∧ s.canWrite .w16 (s.regs.sp - 4).toNat ∧
      s.canRead .w16 (4 * (0x0A : Byte).toNat) :=
  ⟨rfl, rfl, rfl, by decide, by decide +kernel, by decide, ⟨by decide, fun _ _ => rfl⟩, ⟨by decide, fun _ _ => rfl⟩,
    by decide⟩

theorem test_witness_InterruptNotTaken :
    let s := { w0 with cycle := .ending .hlt, regs := { regs0 with flags := 0x0200 }, dev := lineOne 0x0A }
    (w0.undisturbed = true ∧ w0.cycle = .opened ∧ w0.run = .running ∧ flagIF w0.regs.flags = false) ∧
      w0.dev.pic.intr = false ∧ s.undisturbed = true ∧ s.cycle = .ending .hlt := by decide +kernel

theorem test_witness_TimerRequestsOnMatch :
    ({ cont := 0xFF, comp := 0x00 } : Timer).cont + 1 = ({ cont := 0xFF, comp := 0x00 } : Timer).comp ∧
      State.reset.dev.timer.cont + 1 ≠ State.reset.dev.timer.comp := by decide

theorem test_witness_ResetDefaults :
    let s := { w0 with run := .halted .hlt, host := [[.reset ⟨[], []⟩ .unchanged]] }
    s.run = .halted .hlt ∧ s.host = [.reset ⟨[], []⟩ .unchanged] :: [] ∧ s.params.carries = [] := by decide +kernel

theorem test_witness_ResetMemory :
    let p : Program := ⟨[nopAt 0x2000 1], [⟨0x1000, [some 0x34, none]⟩]⟩
    State.reset.mem.wf = true ∧ p.reject? State.reset.params.memMax = none ∧
      (∀ d ∈ p.descriptors, d.covers 0x1001 = false) ∧ (nopAt 0x2000 1).bytes[0]? = some 0x00 ∧
      (p.data = [] ++ ⟨0x1000, [some 0x34, none]⟩ :: [] ∧ ([some 0x34, none] : List (Option Byte))[0]? = some (some 0x34) ∧
        ∀ d ∈ p.descriptors, d.covers 0x1000 = false) := by decide

theorem test_witness_steps :
    (State.reset.mem.wf = true ∧ State.reset.memoryBounded) ∧ State.reset.dev.pic.oneInService ∧
      State.reset.dev.pio.followsLines ∧ State.reset.noReset = true ∧ step State.reset = .next (got (step State.reset)) ∧
      (codeState regs0).reserved 0x2003 = true ∧ (codeState regs0).noReset = true ∧
      step (codeState regs0) = .next (got (step (codeState regs0))) :=
  ⟨by decide, by decide, by decide, rfl, rfl, by decide, rfl, rfl⟩

theorem test_witness_HaltedStaysHalted :
    ({ w0 with run := .halted .hlt } : State).run = .halted .hlt ∧ ({ w0 with run := .halted .hlt } : State).noReset = true :=
  ⟨rfl, rfl⟩

end Sys2Proof.Tests
end

section
/-! PROOF. The I/O instructions: how IN and OUT run their transfer, which register claims an address, and what a transfer at
claimed and at faulting addresses does (20_memory.md rules R75 to R82, 46_io.md rules R260 to R262). -/

namespace Sys2Proof.Machine

/-! ## Chip select -/

/-- Which modules each configuration holds (60_exceptions.md rule R321). -/
theorem Configuration.has_iff (c : Configuration) (m : Module) :
    c.has m = true ↔ m = .pic ∨ m = .timer ∨ m = .pio ∧ (c = .pioSwitchesLeds ∨ c = .pioPrinter) ∨
      m = .handshake ∧ c = .handshakePrinter := by
  cases m <;> cases c <;> decide

/-- A register claims an address if IO_MAP gives it the address and its module is present (20_memory.md rule R77). -/
theorem chipSelect_eq_some_iff (p : Params) (a : Nat) (r : IoReg) :
    chipSelect p a = some r ↔ p.ioMap.lookup a = some r ∧ p.config.has r.module = true := by
  unfold chipSelect
  cases p.ioMap.lookup a with
  | none => simp
  | some q =>
    simp only [Option.ite_none_right_eq_some, Option.some.injEq]
    constructor
    · rintro ⟨h, rfl⟩
      exact ⟨rfl, h⟩
    · rintro ⟨rfl, h⟩
      exact ⟨h, rfl⟩

/-- In a list whose keys differ, looking a key up finds its one entry. -/
theorem lookup_eq_some_iff_mem {α β : Type} [DecidableEq α] {l : List (α × β)} (hl : (l.map Prod.fst).Nodup) (a : α) (b : β) :
    l.lookup a = some b ↔ (a, b) ∈ l := by
  induction l with
  | nil => simp
  | cons e l ih =>
    obtain ⟨k, v⟩ := e
    rw [List.map_cons, List.nodup_cons] at hl
    by_cases hk : a = k
    · subst hk
      have hout : (a, b) ∉ l := fun h => hl.1 (List.mem_map.mpr ⟨_, h, rfl⟩)
      simp [hout, eq_comm]
    · have hne : (a == k) = false := beq_eq_false_iff_ne.mpr hk
      simp [List.lookup_cons, hne, hk, ih hl.2]

/-- The entries of the default IO_MAP that belong to one module (20_memory.md rule R80). -/
def Config.slice (m : Module) : List (Nat × IoReg) := Config.ioMap.filter fun e => decide (e.2.module = m)

theorem Config.mem_slice (m : Module) (a : Nat) (r : IoReg) :
    (a, r) ∈ Config.slice m ↔ Config.ioMap.lookup a = some r ∧ r.module = m := by
  rw [lookup_eq_some_iff_mem (by decide), Config.slice, List.mem_filter, decide_eq_true_iff]

/-- The default IO_MAP claims exactly the slices of the modules present. -/
theorem chipSelect_default_iff (c : Configuration) (a : Nat) (r : IoReg) :
    chipSelect (Config.params c) a = some r ↔
      (a, r) ∈ Config.slice .pic ++ Config.slice .timer ∨
      (c = .pioSwitchesLeds ∨ c = .pioPrinter) ∧ (a, r) ∈ Config.slice .pio ∨
      c = .handshakePrinter ∧ (a, r) ∈ Config.slice .handshake := by
  simp only [chipSelect_eq_some_iff, Configuration.has_iff, List.mem_append, Config.mem_slice, Config.params]
  tauto

/-! ## Running a transfer -/

/-- OUT whose transfer goes on: what the transfer does to the devices, and the strobes it reports (46_io.md rule R262). -/
theorem exec_outp_of_does {w : Width} {p : Port} {s : State} {f : Devices → Devices} {es : List Event}
    (h : Does (ioWrite w (portAddress p s.regs) (s.regs.get (dataReg w))) s () s.arch f)
    (hes : ∀ t, s.host = [] → ioWrite w (portAddress p s.regs) (s.regs.get (dataReg w)) s = .ok () t →
      t.events.filter Event.isStrobe = (es.filter Event.isStrobe).reverse ++ s.events.filter Event.isStrobe) :
    ∃ t, exec (.outp w p) s = .next t ∧ t.arch = s.arch ∧ t.dev.settings = (f s.dev).settings ∧
      (s.host = [] → t.dev = f s.dev ∧
        t.events.filter Event.isStrobe = (es.filter Event.isStrobe).reverse ++ s.events.filter Event.isStrobe) := by
  obtain ⟨t, ht, harch, _, hset, hdev⟩ := h
  exact ⟨t, by simp [exec, execOut, perform, after, look_bind, ht], harch, hset, fun e => ⟨hdev e, hes t e ht⟩⟩

/-- OUT whose transfer faults ends as the transfer leaves it. -/
theorem exec_outp_of_fails {w : Width} {p : Port} {s : State} {x : Arch} {f : Devices → Devices}
    (h : Fails (ioWrite w (portAddress p s.regs) (s.regs.get (dataReg w))) s x f) :
    ∃ t, exec (.outp w p) s = .next t ∧ t.arch = x ∧ t.dev.settings = (f s.dev).settings ∧
      (s.host = [] → t.dev = f s.dev) := by
  obtain ⟨t, ht, harch, _, hdev⟩ := h
  exact ⟨t, by simp [exec, execOut, perform, after, look_bind, ht], harch, hdev⟩

/-- IN whose transfer faults ends as the transfer leaves it, AL or AX not written (46_io.md rule R261). -/
theorem exec_inp_of_fails {w : Width} {p : Port} {s : State} {x : Arch}
    (h : Fails (ioRead w (portAddress p s.regs)) s x id) :
    ∃ t, exec (.inp w p) s = .next t ∧ t.arch = x ∧ devicesKept s t := by
  obtain ⟨t, ht, harch, _, hdev⟩ := h
  exact ⟨t, by simp [exec, execIn, perform, after, look_apply, bind_apply, ht], harch, hdev⟩

/-! ## Claimed addresses -/

/-- A word write at two claimed addresses: the first register's write, then the second's (20_memory.md rule R82). -/
theorem does_ioWrite_word {s : State} {x : Arch} (hu : s.undisturbed = true) (hx : s.arch = x) (hs : x.steady) {a : Word}
    {r q : IoReg} (ha : a.toNat ≤ x.params.ioMax) (hr : chipSelect x.params a.toNat = some r)
    (hb : (a + 1).toNat ≤ x.params.ioMax) (hq : chipSelect x.params (a + 1).toNat = some q) (v : Word) :
    Does (ioWrite .w16 a v) s () x (fun d =>
      ((d.write x.params.config r (lowByte v)).1.write x.params.config q (highByte v)).1) :=
  does_bind (does_ioWriteByte hu hx hs ha hr _) (settled_write _ _ _) fun _ ht hy => does_ioWriteByte ht hy hs hb hq _

/-- The strobes of such a write are those of the two registers' writes, in order, under a host that acts no more. -/
theorem ioWrite_word_strobes {s t : State} (hh : s.host = []) (hs : s.arch.steady) {a : Word} {r q : IoReg} {v : Word}
    (ha : a.toNat ≤ s.params.ioMax) (hr : chipSelect s.params a.toNat = some r)
    (hb : (a + 1).toNat ≤ s.params.ioMax) (hq : chipSelect s.params (a + 1).toNat = some q)
    (h : ioWrite .w16 a v s = .ok () t) :
    let first := s.dev.write s.params.config r (lowByte v)
    t.events.filter Event.isStrobe =
      ((first.2 ++ (first.1.write s.params.config q (highByte v)).2).filter Event.isStrobe).reverse ++
        s.events.filter Event.isStrobe := by
  have hu : s.undisturbed = true := by simp [State.undisturbed, hh]
  obtain ⟨u, hlow, harch, hhost, _, hdev⟩ := does_ioWriteByte hu rfl hs ha hr (lowByte v)
  have hp : u.params = s.params := congrArg Arch.params harch
  have hhigh : ioWriteByte (a + 1).toNat (highByte v) u = .ok () t := by
    simpa [ioWrite, bind_apply, hlow] using h
  rw [ioWriteByte_strobes (hhost.2 hh) (hp ▸ hb) (hp ▸ hq) hhigh, ioWriteByte_strobes hh ha hr hlow, hdev hh, hp]
  simp

/-! ## Faulting addresses -/

/-- The two I/O faults (20_memory.md rules R75, R77). -/
theorem ioFault_eq_some_iff (p : Params) (a : Nat) (f : Fault) :
    ioFault p a = some f ↔ p.ioMax < a ∧ f = .ioOutOfRange a ∨
      a ≤ p.ioMax ∧ chipSelect p a = none ∧ f = .ioUnclaimed a := by
  unfold ioFault
  by_cases ha : a ≤ p.ioMax
  · by_cases hc : chipSelect p a = none <;> simp [ha, hc, Nat.not_lt.mpr ha, eq_comm]
  · simp [ha, Nat.lt_of_not_le ha, eq_comm]

section
variable {s : State} {x : Arch} (hu : s.undisturbed = true) (hx : s.arch = x) (hs : x.steady) {a : Word} {f : Fault}
include hu hx hs

/-- A read that faults at its first byte. -/
theorem fails_ioRead_first (hf : ioFault x.params a.toNat = some f) (w : Width) :
    Fails (ioRead w a) s (x.faulting f) id := by
  cases w with
  | w8 => exact fails_ioReadByte hu hx hs hf
  | w16 => exact fails_bind (fails_ioReadByte hu hx hs hf)

/-- A write that faults at its first byte. -/
theorem fails_ioWrite_first (hf : ioFault x.params a.toNat = some f) {w : Width} (v : BitVec w.bits) :
    Fails (ioWrite w a v) s (x.faulting f) id := by
  cases w with
  | w8 => exact fails_ioWriteByte hu hx hs hf v
  | w16 => exact fails_bind (fails_ioWriteByte hu hx hs hf _)

variable {r : IoReg} (ha : a.toNat ≤ x.params.ioMax) (hr : chipSelect x.params a.toNat = some r)
  (hf : ioFault x.params (a + 1).toNat = some f)
include ha hr hf

/-- A word read that faults at its second byte has read the first register: only the draw of that read stays. -/
theorem fails_ioRead_second :
    Fails (ioRead .w16 a) s (({ x with draws := x.draws + drawsOf r } : Arch).faulting f) id := by
  obtain ⟨v, hv, _⟩ := does_ioReadByte hu hx hs ha hr
  exact does_seq_fails hv fun _ ht hy => fails_bind (fails_ioReadByte ht hy hs hf)

/-- A word write that faults at its second byte has written the first register (46_io.md rule R262). -/
theorem fails_ioWrite_second (v : Word) :
    Fails (ioWrite .w16 a v) s (x.faulting f) (fun d => (d.write x.params.config r (lowByte v)).1) :=
  does_then_fails (does_ioWriteByte hu hx hs ha hr _) settled_id fun _ ht hy => fails_ioWriteByte ht hy hs hf _

end

/-! ## The obligations -/

/-- Settles O17: the transfer of OUT is one register write for AL and two for AX. -/
theorem outCompletes : Obligations.OutCompletes := by
  intro p s r q hexec a b ha hr
  have hs := State.executing_steady hexec
  obtain ⟨-, -, hu⟩ := hexec
  refine ⟨?byte, fun hb hq => ?word⟩
  case byte =>
    exact exec_outp_of_does (w := .w8) (does_ioWriteByte hu rfl hs ha hr _) fun _ hh => ioWriteByte_strobes hh ha hr
  case word =>
    exact exec_outp_of_does (w := .w16) (does_ioWrite_word hu rfl hs ha hr hb hq _)
      fun _ hh => ioWrite_word_strobes hh hs ha hr hb hq

/-- Settles O28: the transfer faults at its first or at its second byte, and the default IO_MAP falls into the modules' slices. -/
theorem ioFaults : Obligations.IoFaults := by
  refine ⟨fun p s bad f hexec hbad => ?faults, ?claims, ?table⟩
  case faults =>
    have hf := (ioFault_eq_some_iff _ _ _).mpr hbad
    have hs := State.executing_steady hexec
    obtain ⟨-, -, hu⟩ := hexec
    refine ⟨?first, ?second⟩
    case first =>
      rintro rfl w i hi
      rcases List.mem_pair.mp hi with rfl | rfl
      · exact exec_inp_of_fails (fails_ioRead_first hu rfl hs hf w)
      · exact exec_outp_of_fails (fails_ioWrite_first hu rfl hs hf _)
    case second =>
      rintro r rfl ha hr
      refine ⟨?_, exec_outp_of_fails (fails_ioWrite_second hu rfl hs ha hr hf _)⟩
      obtain ⟨t, hnext, harch, hdev⟩ := exec_inp_of_fails (fails_ioRead_second hu rfl hs ha hr hf)
      exact ⟨t, hnext, hdev, harch⟩
  case claims =>
    intro p a r
    rw [chipSelect_eq_some_iff, Configuration.has_iff]
  case table => exact chipSelect_default_iff

end Sys2Proof.Machine
end

section
/-! PROOF. The registers' halves, the values after reset, and the canonical and bounded form of memory as an invariant of every
step (10_state.md rules R21, R40, R55, 70_reset_and_hazards.md rule R400). -/

namespace Sys2Proof.Machine

/-! ## Admitted Programs -/

/-- A Program is admitted exactly if each descriptor is and the layout has no problem (30_encoding.md rule R103). -/
theorem Program.reject?_eq_none_iff (memMax : Nat) (p : Program) :
    p.reject? memMax = none ↔ (∀ d ∈ p.descriptors, d.reject? memMax = none) ∧ p.layoutProblem? memMax = none := by
  rw [← List.findSome?_eq_none_iff]
  unfold Program.reject?
  cases p.descriptors.findSome? (Descriptor.reject? memMax) <;> simp

/-- A layout without a problem: every descriptor and every data block is placed well, and no two instructions overlap. -/
theorem Program.layoutProblem?_eq_none_iff (memMax : Nat) (p : Program) :
    p.layoutProblem? memMax = none ↔ (∀ d ∈ p.descriptors, d.problem? memMax = none) ∧
      Descriptor.allApart p.descriptors = true ∧ ∀ b ∈ p.data, b.problem? memMax = none := by
  rw [← List.findSome?_eq_none_iff, ← List.findSome?_eq_none_iff]
  unfold Program.layoutProblem?
  cases p.descriptors.findSome? (Descriptor.problem? memMax) with
  | some r => simp
  | none => by_cases hap : Descriptor.allApart p.descriptors = true <;> simp [hap]

/-- The bytes of a well-placed descriptor all lie in memory. -/
theorem Descriptor.bytes_inside {memMax : Nat} {d : Descriptor} (h : d.problem? memMax = none) :
    d.addr.toNat + d.bytes.length ≤ memMax + 1 := by
  unfold Descriptor.problem? at h
  split_ifs at h
  omega

/-- A data block without a problem holds no literal outside memory. -/
theorem DataBlock.problem?_eq_none_iff (memMax : Nat) (b : DataBlock) :
    b.problem? memMax = none ↔ literalsInside memMax b.addr b.bytes = true := by
  simp [DataBlock.problem?]

/-! ## Bounded memory -/

/-- A write within `[0, n]` lists no cell outside it: it lays down one byte. -/
theorem Memory.write_bounded {m : Memory} {n a : Nat} (h : ∀ c ∈ m.cells, c.1 ≤ n) (ha : a ≤ n) (v : Byte) :
    ∀ c ∈ (m.write a v).cells, c.1 ≤ n :=
  lay_bounded (bs := [some v]) h (by simpa [literalsInside] using ha)

theorem layData_bounded {m : Memory} {n : Nat} (h : ∀ c ∈ m.cells, c.1 ≤ n) {bs : List DataBlock}
    (hb : ∀ b ∈ bs, b.problem? n = none) : ∀ c ∈ (layData m bs).cells, c.1 ≤ n :=
  List.foldlRecOn bs (motive := fun m : Memory => ∀ c ∈ m.cells, c.1 ≤ n) _ h fun _ hm b hmem =>
    lay_bounded hm ((DataBlock.problem?_eq_none_iff n b).mp (hb b hmem))

theorem layCode_bounded {m : Memory} {n : Nat} (h : ∀ c ∈ m.cells, c.1 ≤ n) {ds : List Descriptor}
    (hd : ∀ d ∈ ds, d.problem? n = none) : ∀ c ∈ (layCode m ds).cells, c.1 ≤ n :=
  List.foldlRecOn ds (motive := fun m : Memory => ∀ c ∈ m.cells, c.1 ≤ n) _ h fun _ hm d hmem =>
    lay_bounded hm (literalsInside_of_length (by simpa using Descriptor.bytes_inside (hd d hmem)))

/-- Laying a Program down lists no cell outside memory: an admitted one lies in it, another is not laid down. -/
theorem layProgram_bounded {m : Memory} {n : Nat} (h : ∀ c ∈ m.cells, c.1 ≤ n) (p : Program) :
    ∀ c ∈ (layProgram n p m).cells, c.1 ≤ n := by
  unfold layProgram
  split
  next hp =>
    obtain ⟨-, hlayout⟩ := (Program.reject?_eq_none_iff n p).mp hp
    obtain ⟨hcode, -, hdata⟩ := (Program.layoutProblem?_eq_none_iff n p).mp hlayout
    exact layCode_bounded (layData_bounded h hdata) hcode
  next => exact h

theorem policyMemory_bounded {m : Memory} {n : Nat} (h : ∀ c ∈ m.cells, c.1 ≤ n) (policy : Policy) (draw : Nat) :
    ∀ c ∈ (policyMemory policy draw m).cells, c.1 ≤ n := by
  cases policy with
  | unchanged => exact h
  | clean => simp [policyMemory]
  | randomize => simp [policyMemory]

/-- A reset leaves memory within `[0, MEM_MAX]` (10_state.md rule R40). -/
theorem resetState_bounded {s : State} (h : s.memoryBounded) (p : Program) (policy : Policy) :
    (resetState p policy s).memoryBounded :=
  layProgram_bounded (policyMemory_bounded h policy s.draws) p

/-! ## Memory as an invariant -/

/-- What every action of the host keeps, and the passing of its turns keeps, a whole turn keeps. -/
theorem hostTurn_preserves {P : State → Prop} (hhost : ∀ s ts, P s → P { s with host := ts })
    (hact : ∀ a s, P s → P (applyAction a s)) {s : State} (hs : P s) : P (hostTurn s) := by
  unfold hostTurn
  cases s.host with
  | nil => exact hs
  | cons t ts => exact List.foldlRecOn t _ (hhost s ts hs) fun u hu a _ => hact a u hu

/-- Memory in canonical form and within `[0, MEM_MAX]`, on a machine with these parameters. -/
def State.soundMemory (params : Params) (s : State) : Prop :=
  s.mem.wf = true ∧ s.memoryBounded ∧ s.params = params

/-- Sound memory is a matter of the memory and the parameters alone. -/
theorem State.soundMemory_of_eq {params : Params} {s t : State} (hmem : t.mem = s.mem) (hparams : t.params = s.params)
    (h : s.soundMemory params) : t.soundMemory params := by
  simpa only [State.soundMemory, State.memoryBounded, hmem, hparams] using h

theorem applyAction_soundMemory {params : Params} (a : HostAction) (s : State) (h : s.soundMemory params) :
    (applyAction a s).soundMemory params := by
  cases ha : a.isReset with
  | false =>
    obtain ⟨-, -, hmem, -, hparams, -⟩ := applyAction_noReset ha s
    exact State.soundMemory_of_eq hmem hparams h
  | true =>
    obtain ⟨p, policy, rfl⟩ : ∃ p policy, a = .reset p policy := by
      cases a <;> simp [HostAction.isReset] at ha ⊢
    obtain ⟨hwf, hbound, hparams⟩ := h
    exact ⟨wf_resetState hwf p policy, resetState_bounded hbound p policy, hparams⟩

/-- Every change the machine is made of keeps memory sound; a write and a host's turn are the only ones that reach it. -/
theorem soundMemory_invariant (params : Params) : CycleInvariant (State.soundMemory params) where
  regs _ _ h := h
  latches _ _ h := h
  run _ _ _ h := h
  record _ _ h := h
  cycle _ _ _ h := h
  draws _ _ h := h
  log _ _ h := h
  turn _ h := hostTurn_preserves (fun _ _ hs => hs) applyAction_soundMemory h
  write _ a v h ha _ :=
    have ⟨hwf, hbound, hparams⟩ := h
    ⟨Memory.wf_write hwf a v, Memory.write_bounded hbound ha v, hparams⟩
  device _ _ _ h := h
  serve _ _ _ h _ := h
  close _ h := h
  halt _ _ h := h

/-! ## The devices after reset -/

/-- A port whose bits are all inputs shows its lines, whatever its register held. -/
theorem inputs_show_lines (lines held : Byte) : lines &&& 0xFF ||| held &&& ~~~0xFF = lines := by
  show lines &&& BitVec.allOnes 8 ||| held &&& 0#8 = lines
  rw [BitVec.and_allOnes, BitVec.and_zero, BitVec.or_zero]

/-- Nothing is carried by a reset that is not `unchanged`, or where UNCHANGED_CARRIES is empty. -/
theorem carried_eq_false {p : Params} {policy : Policy} (h : p.carries = [] ∨ policy ≠ .unchanged) (i : Carried) :
    carried p policy i = false := by
  rcases h with h | h <;> simp [carried, h]

/-- The devices after a reset that carries nothing (10_state.md rule R55). -/
theorem resetDevices_of_none_carried {p : Params} {policy : Policy} (h : p.carries = [] ∨ policy ≠ .unchanged) (d : Devices) :
    resetDevices p policy d =
      { pic := { imr := 0xFF, irr := 0, isr := 0, vec := p.vecReset }
        timer := { cont := 0, comp := 0 }
        pio := { pa := d.pio.extA, pb := d.pio.extB, ca := 0xFF, cb := 0xFF, extA := d.pio.extA, extB := d.pio.extB }
        hs := { data := 0, ie := false, busy := d.hs.busy } } := by
  simp only [resetDevices, keepOr, carried_eq_false h, Bool.false_eq_true, if_false, Pio.updateA, Pio.updateB,
    inputs_show_lines]

/-- A halted engine leaves the step to the host (40_engine.md rule R135). -/
theorem step_of_halted {s : State} {why : HaltReason} (h : s.run = .halted why) : step s = .next (hostTurn s) := by
  cases hc : s.cycle <;> simp [step, stepState, waitTurn, h, hc]

/-- A turn that is one reset. -/
theorem hostTurn_reset {s : State} {p : Program} {policy : Policy} {ts : List HostTurn}
    (h : s.host = [.reset p policy] :: ts) : hostTurn s = resetState p policy { s with host := ts } := by
  simp [hostTurn, h, applyTurn, applyAction]

/-! ## The obligations -/

/-- Settles O55: sound memory is an invariant, the only changes that reach it being a write within memory and a reset. -/
theorem stepKeepsMemory : Obligations.StepKeepsMemory := by
  intro s t ⟨hwf, hbound⟩ hstep
  exact step_keeps (soundMemory_invariant s.params) ⟨hwf, hbound, rfl⟩ hstep

/-- Settles O3: a half that is written is joined to the half that is kept. -/
theorem registerHalves : Obligations.RegisterHalves := by
  intro g b v
  refine ⟨?halves, ?readAfterWrite, ?writeHalf, ?writeWhole, ?otherHalf, ?halvesOfWhole⟩
  case halves => exact ⟨rfl, rfl, rfl, rfl, rfl, rfl, rfl, rfl⟩
  case readAfterWrite => exact fun w r x => Regs.get_set g r x
  case writeHalf => exact ⟨rfl, rfl, rfl, rfl, rfl, rfl, rfl, rfl⟩
  case writeWhole => exact ⟨rfl, rfl, rfl, rfl, rfl⟩
  case otherHalf =>
    have high (x : Word) : highByte (joinBytes (highByte x) b) = highByte x := highByte_join _ b
    have low (x : Word) : lowByte (joinBytes b (lowByte x)) = lowByte x := lowByte_join b _
    exact ⟨high g.ax, low g.ax, high g.bx, low g.bx, high g.cx, low g.cx, high g.dx, low g.dx⟩
  case halvesOfWhole => exact ⟨rfl, rfl, rfl, rfl, rfl, rfl, rfl, rfl⟩

/-- Settles O52: a halted engine's step is the host's turn, and a reset that carries nothing gives the devices their defaults. -/
theorem resetDefaults : Obligations.ResetDefaults := by
  refine ⟨?halted, ?values⟩
  case halted =>
    rintro s p policy ts ⟨why, hrun⟩ hhost
    rw [step_of_halted hrun, hostTurn_reset hhost]
  case values =>
    intro s p policy
    refine ⟨rfl, rfl, rfl, rfl, rfl, rfl, fun hcarries => ?devices⟩
    have hdev : (resetState p policy s).dev = _ := resetDevices_of_none_carried hcarries s.dev
    simp [hdev]

/-- Settles O60: State.reset is a closed state, so each invariant is computed on it, and so is the reset of it. -/
theorem resetMeetsInvariants : Obligations.ResetMeetsInvariants := by
  refine ⟨?params, State.reset_mem_wf, ?bounded, ?inService, ?ports, ?noReset, ?ready, ?clean⟩
  case params => decide
  case bounded => exact fun c hc => absurd hc List.not_mem_nil
  case inService => exact .inl rfl
  case ports => exact ⟨rfl, rfl⟩
  case noReset => rfl
  case ready => exact ⟨rfl, rfl, rfl⟩
  case clean => rfl

end Sys2Proof.Machine
end

section
/-! PROOF. The memory transactions byte by byte, a store read back, and the loaded code as an invariant of every step without a
reset (20_memory.md rules R62 to R67, R71, R90, R93). -/

namespace Sys2Proof.Machine

/-! ## The code as an invariant -/

/-- `s` runs the Program of `r`, on its parameters and with its code bytes in memory, and no reset is to come. -/
def State.runsCodeOf (r s : State) : Prop :=
  s.noReset = true ∧ s.program = r.program ∧ s.params = r.params ∧ ∀ a, r.reserved a = true → s.mem.read a = r.mem.read a

/-- Reserved is a view of the Program alone (10_state.md rule R41). -/
theorem State.reserved_congr {r s : State} (h : s.program = r.program) (a : Nat) : s.reserved a = r.reserved a := by
  simp only [State.reserved, h]

/-- A turn of the host that does not reset the machine leaves the code. -/
theorem hostTurn_runsCodeOf {r s : State} (h : r.runsCodeOf s) : r.runsCodeOf (hostTurn s) := by
  obtain ⟨hno, hprog, hparams, hcode⟩ := h
  obtain ⟨-, -, hmem, hprog', hparams', hno', -⟩ := hostTurn_noReset hno
  exact ⟨hno', hprog'.trans hprog, hparams'.trans hparams, fun a ha => hmem ▸ hcode a ha⟩

/-- A write off the code leaves the code. -/
theorem write_runsCodeOf {r s : State} (h : r.runsCodeOf s) {a : Nat} (ha : s.reserved a = false) (v : Byte) :
    r.runsCodeOf { s with mem := s.mem.write a v } := by
  obtain ⟨hno, hprog, hparams, hcode⟩ := h
  refine ⟨hno, hprog, hparams, fun b hb => ?_⟩
  have hne : b ≠ a := by
    rintro rfl
    simp [State.reserved_congr hprog, hb] at ha
  exact (s.mem.read_write_other hne v).trans (hcode b hb)

/-- Every change the machine is made of leaves the code: a write, which the reserved check lets through off the code only, and a
turn of the host are the ones that could reach it. -/
theorem runsCodeOf_invariant (r : State) : CycleInvariant r.runsCodeOf where
  regs _ _ h := h
  latches _ _ h := h
  run _ _ _ h := h
  record _ _ h := h
  cycle _ _ _ h := h
  draws _ _ h := h
  log _ _ h := h
  turn _ h := hostTurn_runsCodeOf h
  write _ _ v h _ hr := write_runsCodeOf h hr v
  device _ _ _ h := h
  serve _ _ _ h _ := h
  close _ h := h
  halt _ _ h := h

/-! ## Byte and word transactions -/

/-- What goes on and leaves the devices to the host keeps them. -/
theorem does_devicesKept {α : Type} {m : Micro α} {s : State} {a : α} {x : Arch} (h : Does m s a x id) :
    ∃ t, m s = .ok a t ∧ t.arch = x ∧ devicesKept s t := by
  obtain ⟨t, hrun, harch, -, hdev⟩ := h
  exact ⟨t, hrun, harch, hdev⟩

/-- What ends early and leaves the devices to the host keeps them. -/
theorem fails_devicesKept {α : Type} {m : Micro α} {s : State} {x : Arch} (h : Fails m s x id) :
    ∃ t, m s = .error () t ∧ t.arch = x ∧ devicesKept s t := by
  obtain ⟨t, hrun, harch, -, hdev⟩ := h
  exact ⟨t, hrun, harch, hdev⟩

/-- The bytes of a word. -/
theorem within_w16_iff (a b : Nat) : within .w16 a b ↔ b = a ∨ b = a + 1 := by
  simp only [within, Width.bytes]
  omega

/-- A byte can be written in memory, off the code (20_memory.md rule R63). -/
theorem State.byteWriteFault_eq_none_iff (s : State) (a : Nat) :
    s.byteWriteFault a = none ↔ a ≤ s.params.memMax ∧ s.reserved a = false := by
  unfold State.byteWriteFault
  by_cases ha : s.params.memMax < a
  · simp [ha]
  · simp [ha, Nat.le_of_not_lt ha]

/-- The two faults of a byte write, the range checked first (20_memory.md rule R63, 60_exceptions.md rule R333). -/
theorem State.byteWriteFault_eq_some_iff (s : State) (a : Nat) (f : Fault) :
    s.byteWriteFault a = some f ↔ s.params.memMax < a ∧ f = .memOutOfRange a ∨
      a ≤ s.params.memMax ∧ s.reserved a = true ∧ f = .memWriteReserved a := by
  unfold State.byteWriteFault
  by_cases ha : s.params.memMax < a
  · simp [ha, Nat.not_le.mpr ha, eq_comm (a := f)]
  · simp [ha, Nat.le_of_not_lt ha, eq_comm (a := f)]

/-! ## The obligations -/

/-- Settles O58: the code of the first state is an invariant, the reserved check keeping every write off it. -/
theorem stepKeepsCode : Obligations.StepKeepsCode := by
  intro s t hno hstep
  exact step_keeps (runsCodeOf_invariant s) ⟨hno, rfl, rfl, fun _ _ => rfl⟩ hstep

/-- Settles O4: the range check alone decides a byte read. -/
theorem byteRead : Obligations.ByteRead := by
  intro s a hexec
  have hs := State.executing_steady hexec
  obtain ⟨-, -, hu⟩ := hexec
  exact ⟨fun ha => does_devicesKept (does_memReadByte hu rfl hs ha),
    fun ha => fails_devicesKept (fails_memReadByte hu rfl hs ha)⟩

/-- Settles O5: the range check decides a byte write, then the reserved check. -/
theorem byteWrite : Obligations.ByteWrite := by
  intro s a v hexec
  have hs := State.executing_steady hexec
  obtain ⟨-, -, hu⟩ := hexec
  refine ⟨fun ha hr => ?stored, fun ha hr => ?code, fun ha => ?range⟩
  case stored => exact does_devicesKept (does_memWriteByte hu rfl hs ha hr v)
  case code => exact fails_devicesKept (fails_memWriteByte_code hu rfl hs ha hr v)
  case range => exact fails_devicesKept (fails_memWriteByte_range hu rfl hs ha v)

/-- Settles O6: a word is two byte transactions, so a fault of the second finds the low byte stored. -/
theorem wordAccess : Obligations.WordAccess := by
  intro s a v hexec
  have hs := State.executing_steady hexec
  obtain ⟨-, -, hu⟩ := hexec
  have second {f : Fault} (hlow : s.byteWriteFault a = none) (hhigh : s.byteWriteFault (a + 1) = some f) :
      ∃ t, memWrite .w16 a v s = .error () t ∧ devicesKept s t ∧
        t.arch = ({ s.arch with mem := s.mem.write a (lowByte v) } : Arch).faulting f := by
    obtain ⟨t, hrun, harch, hdev⟩ := fails_devicesKept (fails_memWrite_second hu rfl hs rfl rfl hlow hhigh v)
    exact ⟨t, hrun, hdev, harch⟩
  refine ⟨fun ha => ?read, fun ha hr hr' => ?stored, fun ha hr => ?range, fun ha hr hr' => ?code⟩
  case read => exact does_devicesKept (does_memRead (w := .w16) hu rfl hs (Nat.succ_le_succ ha))
  case stored =>
    have hfree : ∀ b, within .w16 a b → s.arch.reserved b = false := by
      intro b hb
      rcases (within_w16_iff a b).mp hb with rfl | rfl
      · exact hr
      · exact hr'
    obtain ⟨t, hrun, harch, hdev⟩ := does_devicesKept (does_memWrite hu rfl hs (Nat.succ_le_succ ha) hfree v)
    exact ⟨t, hrun, hdev, harch⟩
  case range =>
    exact second ((s.byteWriteFault_eq_none_iff a).mpr ⟨ha.le, hr⟩)
      ((s.byteWriteFault_eq_some_iff _ _).mpr (.inl ⟨by omega, rfl⟩))
  case code =>
    exact second ((s.byteWriteFault_eq_none_iff a).mpr ⟨by omega, hr⟩)
      ((s.byteWriteFault_eq_some_iff _ _).mpr (.inr ⟨ha, hr', rfl⟩))

/-- Settles O7: a stored value loads back, its canonical form kept, and is seen at its own bytes alone. -/
theorem readAfterWrite : Obligations.ReadAfterWrite := fun m w a v h =>
  ⟨Memory.load_store h w a v, Memory.wf_store h w a v, fun _ hb => m.read_store_other hb v⟩

end Sys2Proof.Machine
end

section
/-! PROOF. The decoder and the encoder of descriptor codes are inverse to each other, and a Program that is not admitted is
refused (30_encoding.md rules R100 to R111). -/

namespace Sys2Proof

/-! ## The admission of a code -/

/-- A code passes the checks exactly if its family, its width and each operand's number do (30_encoding.md rule R103). -/
theorem Code.problem?_eq_none_iff (c : Code) :
    c.problem? = none ↔
      c.family = c.op.family ∧ c.family.widthOk c.w = true ∧ c.operands.findSome? (Operand.problem? c.w) = none := by
  unfold Code.problem?
  split_ifs with hf hw
  · simp [hf]
  · simp only [not_not.mp hf ▸ hw, not_not.mp hf, true_and]
  · simp [hw]

theorem decodeCode_eq_ok_iff (c : Code) (i : Instr) :
    decodeCode c = .ok i ↔ c.problem? = none ∧ decodeShape c = .ok i := by
  unfold decodeCode
  cases c.problem? <;> simp

/-- The per-instruction facts of Laws/PerInstr.lean, for every instruction. -/
theorem codeShape : ∀ i : Instr, Laws.CodeShape.Statement i
  | .add w o => Laws.CodeShape.add w o
  | .adc w o => Laws.CodeShape.adc w o
  | .sub w o => Laws.CodeShape.sub w o
  | .sbb w o => Laws.CodeShape.sbb w o
  | .cmp w o => Laws.CodeShape.cmp w o
  | .and w o => Laws.CodeShape.and w o
  | .or w o => Laws.CodeShape.or w o
  | .xor w o => Laws.CodeShape.xor w o
  | .inc w d => Laws.CodeShape.inc w d
  | .dec w d => Laws.CodeShape.dec w d
  | .neg w d => Laws.CodeShape.neg w d
  | .not w d => Laws.CodeShape.not w d
  | .mov w o => Laws.CodeShape.mov w o
  | .jmp t => Laws.CodeShape.jmp t
  | .jz t => Laws.CodeShape.jz t
  | .jnz t => Laws.CodeShape.jnz t
  | .js t => Laws.CodeShape.js t
  | .jns t => Laws.CodeShape.jns t
  | .jc t => Laws.CodeShape.jc t
  | .jnc t => Laws.CodeShape.jnc t
  | .jo t => Laws.CodeShape.jo t
  | .jno t => Laws.CodeShape.jno t
  | .call t => Laws.CodeShape.call t
  | .push r => Laws.CodeShape.push r
  | .pop r => Laws.CodeShape.pop r
  | .pushf => Laws.CodeShape.pushf
  | .popf => Laws.CodeShape.popf
  | .inp w p => Laws.CodeShape.inp w p
  | .outp w p => Laws.CodeShape.outp w p
  | .int n => Laws.CodeShape.int n
  | .hlt => Laws.CodeShape.hlt
  | .cli => Laws.CodeShape.cli
  | .sti => Laws.CodeShape.sti
  | .nop => Laws.CodeShape.nop
  | .ret => Laws.CodeShape.ret
  | .iret => Laws.CodeShape.iret

/-! ## What the readers answer -/

theorem withShape_eq_ok_iff {α : Type} (o : Option α) (mk : α → Instr) (i : Instr) :
    withShape o mk = .ok i ↔ ∃ a, o = some a ∧ mk a = i := by
  cases o <;> simp [withShape]

theorem withWidth_eq_ok_iff {α : Width → Type} (c : Code) (read : (w : Width) → List Operand → Option (α w))
    (mk : (w : Width) → α w → Instr) (i : Instr) :
    withWidth c read mk = .ok i ↔ ∃ w a, c.w = some w ∧ read w c.operands = some a ∧ mk w a = i := by
  unfold withWidth
  cases c.w <;> simp [withShape_eq_ok_iff]

theorem readIn_dataReg (w : Width) (p : Port) : readIn w [regOperand (dataReg w), .port (rawPort p)] = some p := by
  cases w <;> simp [regOperand, dataReg, readIn, readPort_rawPort]

theorem readOut_dataReg (w : Width) (p : Port) : readOut w [.port (rawPort p), regOperand (dataReg w)] = some p := by
  cases w <;> simp [regOperand, dataReg, readOut, readPort_rawPort]

theorem operands_of_readTarget {l : List Operand} {t : Word} (h : readTarget l = some t) : l = [.target t] := by
  unfold readTarget at h
  split at h <;> simp_all

theorem operands_of_readReg16 {l : List Operand} {r : Reg .w16} (h : readReg16 l = some r) : l = [.reg16 r] := by
  unfold readReg16 at h
  split at h <;> simp_all

theorem operands_of_readNone {l : List Operand} {u : Unit} (h : readNone l = some u) : l = [] := by
  unfold readNone at h
  split at h <;> simp_all

/-- The number of INT is read whole, since it fits 8 bits (30_encoding.md rule R103). -/
theorem operands_of_readIntNum {w : Option Width} {l : List Operand} {n : Byte}
    (hl : l.findSome? (Operand.problem? w) = none) (h : readIntNum l = some n) : l = [.intNum n.toNat] := by
  unfold readIntNum at h
  split at h
  next k =>
    have hk : k < 256 := by simpa [Operand.problem?] using hl
    obtain rfl : BitVec.ofNat 8 k = n := by simpa using h
    simp [Nat.mod_eq_of_lt hk]
  next => simp at h

/-! ## The shape of a decoded code -/

theorem decodeShape_encodeCode (i : Instr) : decodeShape (encodeCode i) = .ok i := by
  unfold decodeShape encodeCode
  cases i with
  | add w o | adc w o | sub w o | sbb w o | cmp w o | and w o | or w o | xor w o | mov w o =>
    exact (withWidth_eq_ok_iff _ readOperands _ _).mpr ⟨w, o, rfl, readOperands_operandList o, rfl⟩
  | inc w d | dec w d | neg w d | not w d =>
    exact (withWidth_eq_ok_iff _ readLoc _ _).mpr ⟨w, d, rfl, readLoc_locList d, rfl⟩
  | inp w p => exact (withWidth_eq_ok_iff _ readIn _ _).mpr ⟨w, p, rfl, readIn_dataReg w p, rfl⟩
  | outp w p => exact (withWidth_eq_ok_iff _ readOut _ _).mpr ⟨w, p, rfl, readOut_dataReg w p, rfl⟩
  | int n => simp [Instr.mnemonic, Instr.operands, readIntNum, withShape]
  | jmp | jz | jnz | js | jns | jc | jnc | jo | jno | call | push | pop => rfl
  | pushf | popf | hlt | cli | sti | nop | ret | iret => rfl

/-- The stack family's width is 16 bits or left out (log 1). -/
theorem stack_widthOk {w : Option Width} (h : Family.stack.widthOk w = true) : w = none ∨ w = some .w16 := by
  rcases w with _ | _ | _
  · exact .inl rfl
  · simp [Family.widthOk] at h
  · exact .inr rfl

/-- A row's shape is read from the operands the encoder writes, at the width the encoder writes, but for a stack instruction's
width, which the shape does not read. -/
theorem encoded_of_decodeShape {op : Mnemonic} {w : Option Width} {l : List Operand} {i : Instr}
    (hw : op.family.widthOk w = true) (hl : l.findSome? (Operand.problem? w) = none)
    (h : decodeShape ⟨op.family, op, w, l⟩ = .ok i) :
    ⟨op.family, op, w, l⟩ = encodeCode i ∨
      (op.family = .stack ∧ w = none ∧ ⟨op.family, op, some .w16, l⟩ = encodeCode i) := by
  cases op with
  | add | adc | sub | sbb | cmp | and | or | xor | mov =>
    obtain ⟨v, o, rfl, ho, rfl⟩ := (withWidth_eq_ok_iff _ readOperands _ i).mp h
    obtain rfl := operandList_of_readOperands hl ho
    exact .inl rfl
  | inc | dec | neg | not =>
    obtain ⟨v, d, rfl, hd, rfl⟩ := (withWidth_eq_ok_iff _ readLoc _ i).mp h
    obtain rfl := locList_of_readLoc hd
    exact .inl rfl
  | inp =>
    obtain ⟨v, p, rfl, hp, rfl⟩ := (withWidth_eq_ok_iff _ readIn _ i).mp h
    obtain rfl := operands_of_readIn hl hp
    exact .inl rfl
  | outp =>
    obtain ⟨v, p, rfl, hp, rfl⟩ := (withWidth_eq_ok_iff _ readOut _ i).mp h
    obtain rfl := operands_of_readOut hl hp
    exact .inl rfl
  | jmp | jz | jnz | js | jns | jc | jnc | jo | jno | call =>
    obtain ⟨t, ht, rfl⟩ := (withShape_eq_ok_iff (readTarget l) _ i).mp h
    obtain rfl := operands_of_readTarget ht
    obtain rfl := Option.isNone_iff_eq_none.mp hw
    exact .inl rfl
  | int =>
    obtain ⟨n, hn, rfl⟩ := (withShape_eq_ok_iff (readIntNum l) _ i).mp h
    obtain rfl := operands_of_readIntNum hl hn
    obtain rfl := Option.isNone_iff_eq_none.mp hw
    exact .inl rfl
  | hlt | cli | sti | nop | ret | iret =>
    obtain ⟨u, hu, rfl⟩ := (withShape_eq_ok_iff (readNone l) _ i).mp h
    obtain rfl := operands_of_readNone hu
    obtain rfl := Option.isNone_iff_eq_none.mp hw
    exact .inl rfl
  | push | pop =>
    obtain ⟨r, hr, rfl⟩ := (withShape_eq_ok_iff (readReg16 l) _ i).mp h
    obtain rfl := operands_of_readReg16 hr
    obtain rfl | rfl := stack_widthOk hw
    · exact .inr ⟨rfl, rfl, rfl⟩
    · exact .inl rfl
  | pushf | popf =>
    obtain ⟨u, hu, rfl⟩ := (withShape_eq_ok_iff (readNone l) _ i).mp h
    obtain rfl := operands_of_readNone hu
    obtain rfl | rfl := stack_widthOk hw
    · exact .inr ⟨rfl, rfl, rfl⟩
    · exact .inl rfl

end Sys2Proof

namespace Sys2Proof.Machine

/-! ## The refusal of a Program -/

/-- Running between two cycles, the step is one cycle (40_engine.md rule R130). -/
theorem step_between_cycles {s : State} (hrun : s.run = .running) (hcycle : s.cycle = .closed) : step s = runCycle s := by
  simp [step, stepState, hrun, hcycle]

theorem runCycle_of_rejected {s : State} {r : Reject} (h : s.program.reject? s.params.memMax = some r) :
    runCycle s = .refused (.notAdmitted r) := by
  simp [runCycle, h]

/-! ## The obligations -/

/-- Settles O36: the encoder's code passes the checks, and each reader answers what its writer wrote. -/
theorem decodeEncode : Obligations.DecodeEncode := fun i =>
  (decodeCode_eq_ok_iff _ i).mpr ⟨(codeShape i).1, decodeShape_encodeCode i⟩

/-- Settles O37: an accepted code has passed the checks, so its numbers are read whole and its row's shape is the encoder's. -/
theorem decodeOnlyEncodings : Obligations.DecodeOnlyEncodings := by
  rintro ⟨family, op, w, l⟩ i h
  obtain ⟨hadmitted, hshape⟩ := (decodeCode_eq_ok_iff _ i).mp h
  obtain ⟨hfamily, hw, hl⟩ := (Code.problem?_eq_none_iff _).mp hadmitted
  obtain rfl : family = op.family := hfamily
  exact encoded_of_decodeShape hw hl hshape

/-- Settles O39: each of the six descriptors is the code its instruction encodes to. -/
theorem descriptorsDecode : Obligations.DescriptorsDecode :=
  ⟨decodeEncode (.mov .w16 (.ri .ax 5)), decodeEncode (.mov .w8 (.rm .al (.indirect (some 0xFFFF)))),
    decodeEncode (.outp .w8 (.imm 0x50)), decodeEncode (.int 0x10), decodeEncode (.call 0x3000), decodeEncode .hlt⟩

/-- Settles O41: the admission of the Program is the first thing a cycle asks. -/
theorem unadmittedProgramRefused : Obligations.UnadmittedProgramRefused := fun _ _ hrun hcycle hreject =>
  (step_between_cycles hrun hcycle).trans (runCycle_of_rejected hreject)

end Sys2Proof.Machine
end

section
/-! PROOF. The ALU over exact integers and over ranges of signed values (40_engine.md rules R160, R162). -/

namespace Sys2Proof.Machine

/-! ## Exact integers -/

/-- The result of a difference is the exact value modulo `2^n`. -/
theorem toNat_ofInt_eq_emod (n : Nat) (t : Int) : ((BitVec.ofInt n t).toNat : Int) = t % 2 ^ n := by
  have hpos : (0 : Int) < 2 ^ n := by positivity
  rw [BitVec.toNat_ofInt, Nat.cast_pow, Nat.cast_ofNat, Int.toNat_of_nonneg (Int.emod_nonneg t hpos.ne')]

/-- A sum whose exact value is `s` (40_engine.md rule R160). -/
theorem aluSum_follows_rule {n : Nat} (a b : BitVec n) (s : Nat) :
    (aluSum a b s).res.toNat = s % 2 ^ n ∧ ((aluSum a b s).cf = true ↔ s > 2 ^ n - 1) ∧
      ((aluSum a b s).of = true ↔ a.msb = b.msb ∧ (aluSum a b s).res.msb ≠ a.msb) :=
  ⟨BitVec.toNat_ofNat s n, decide_eq_true_iff, by simp [aluSum, aluOut]⟩

/-- A difference whose exact value is `t` (40_engine.md rule R160). -/
theorem aluDiff_follows_rule {n : Nat} (a b : BitVec n) (t : Int) :
    ((aluDiff a b t).res.toNat : Int) = t % 2 ^ n ∧ ((aluDiff a b t).cf = true ↔ t < 0) ∧
      ((aluDiff a b t).of = true ↔ a.msb ≠ b.msb ∧ (aluDiff a b t).res.msb = b.msb) :=
  ⟨toNat_ofInt_eq_emod n t, decide_eq_true_iff, by simp [aluDiff, aluOut]⟩

/-! ## Ranges of signed values -/

section
variable {n h : Nat} (hpow : h + h = 2 ^ n)
include hpow

/-- With `h` the weight of the sign bit, that bit is 1 exactly for the values from `h` up. -/
theorem msb_eq_decide_weight (a : BitVec n) : a.msb = decide (h ≤ a.toNat) := by
  rw [Bool.eq_iff_iff, BitVec.msb_eq_true_iff_two_mul_ge, decide_eq_true_iff]
  omega

/-- The signed view of the values from the sign bit's weight up is the value less the modulus. -/
theorem toInt_eq_weight (a : BitVec n) : a.toInt = if h ≤ a.toNat then (a.toNat : Int) - (h + h) else a.toNat := by
  rw [BitVec.toInt_eq_toNat_cond, ← hpow]
  split_ifs <;> omega

/-- An exact value that leaves the unsigned range by at most one modulus wraps at most once. -/
theorem ofInt_wraps_once {t : Int} (hlow : -(h + h) ≤ t) (hhigh : t < 2 * (h + h)) :
    ((BitVec.ofInt n t).toNat : Int) = t ∨ ((BitVec.ofInt n t).toNat : Int) = t + (h + h) ∨
      ((BitVec.ofInt n t).toNat : Int) = t - (h + h) := by
  have hmod : (2 : Int) ^ n = h + h := by exact_mod_cast hpow.symm
  rw [toNat_ofInt_eq_emod, hmod]
  obtain hneg | ⟨hnonneg, hlt⟩ | hge : t < 0 ∨ 0 ≤ t ∧ t < h + h ∨ h + h ≤ t := by omega
  · exact .inr (.inl (by rw [← Int.add_emod_right, Int.emod_eq_of_lt (by omega) (by omega)]))
  · exact .inl (Int.emod_eq_of_lt hnonneg hlt)
  · exact .inr (.inr (by rw [← Int.sub_emod_right, Int.emod_eq_of_lt (by omega) (by omega)]))

/-- A sum overflows exactly if the exact signed sum leaves the signed range (40_engine.md rule R162). -/
theorem aluSum_of_iff (a b : BitVec n) (c : Bool) :
    (aluSum a b (a.toNat + b.toNat + c.toNat)).of = true ↔
      a.toInt + b.toInt + c.toNat < -h ∨ (h : Int) - 1 < a.toInt + b.toInt + c.toNat := by
  have ha := a.isLt
  have hb := b.isLt
  have hc := c.toNat_le
  rw [← hpow] at ha hb
  have hwrap := ofInt_wraps_once hpow (t := (a.toNat + b.toNat + c.toNat : Nat)) (by omega) (by omega)
  rw [BitVec.ofInt_natCast] at hwrap
  simp only [aluSum, aluOut, msb_eq_decide_weight hpow, toInt_eq_weight hpow, Bool.and_eq_true, decide_eq_true_eq, ne_eq,
    decide_eq_decide]
  omega

/-- A difference overflows exactly if the exact signed difference leaves the signed range (40_engine.md rule R162). -/
theorem aluDiff_of_iff (a b : BitVec n) (c : Bool) :
    (aluDiff a b ((a.toNat : Int) - b.toNat - c.toNat)).of = true ↔
      a.toInt - b.toInt - c.toNat < -h ∨ (h : Int) - 1 < a.toInt - b.toInt - c.toNat := by
  have ha := a.isLt
  have hb := b.isLt
  have hc := c.toNat_le
  rw [← hpow] at ha hb
  have hwrap := ofInt_wraps_once hpow (t := (a.toNat : Int) - b.toNat - c.toNat) (by omega) (by omega)
  simp only [aluDiff, aluOut, msb_eq_decide_weight hpow, toInt_eq_weight hpow, Bool.and_eq_true, decide_eq_true_eq, ne_eq,
    decide_eq_decide]
  omega

end

/-! ## The obligations -/

/-- Settles O2: ADD and SUB are ADC and SBB with the carry 0, and the overflow of a sum or a difference is a range of signed
values. -/
theorem aluOverflowIsSignedRange : Obligations.AluOverflowIsSignedRange := by
  intro w a b cin
  obtain ⟨h, hpow, hweight⟩ : ∃ h : Nat, h + h = 2 ^ w.bits ∧ (2 ^ (w.bits - 1) : Int) = h := by
    cases w
    · exact ⟨0x80, rfl, rfl⟩
    · exact ⟨0x8000, rfl, rfl⟩
  rw [hweight]
  refine ⟨?add, aluSum_of_iff hpow a b cin, ?sub, aluDiff_of_iff hpow a b cin, ?undone⟩
  case add => simpa [alu] using aluSum_of_iff hpow a b false
  case sub => simpa [alu] using aluDiff_of_iff hpow a b false
  case undone => rw [alu_sub_res, alu_add_res, BitVec.add_sub_cancel]

/-- Settles O1: the sum, the difference, and the flags that every operation shares; the bitwise results are the definition's. -/
theorem aluFollowsRule : Obligations.AluFollowsRule := by
  intro w a b cin
  obtain ⟨addRes, addCf, addOf⟩ := aluSum_follows_rule a b (a.toNat + b.toNat)
  obtain ⟨adcRes, adcCf, adcOf⟩ := aluSum_follows_rule a b (a.toNat + b.toNat + cin.toNat)
  obtain ⟨subRes, subCf, subOf⟩ := aluDiff_follows_rule a b (a.toNat - b.toNat)
  obtain ⟨sbbRes, sbbCf, sbbOf⟩ := aluDiff_follows_rule a b (a.toNat - b.toNat - cin.toNat)
  refine ⟨fun op => ?shared, addRes, addCf, addOf, adcRes, adcCf, adcOf, subRes, subCf, subOf, sbbRes, sbbCf, sbbOf,
    ⟨rfl, rfl, rfl⟩, ⟨rfl, rfl, rfl⟩, ⟨rfl, rfl, rfl⟩⟩
  case shared =>
    obtain ⟨hzero, hsign⟩ := alu_zf_sf op a b cin
    simp [hzero, hsign]

end Sys2Proof.Machine
end

section
/-! PROOF. Pushes and pops that fault, in an instruction and in the entry of an interrupt (40_engine.md rules R150, R151, R155). -/

namespace Sys2Proof.Machine

/-- Any number but 0, 3, 6 and 7 takes its vector (47_software_interrupt.md rule R276). -/
theorem exec_int_generic {n : Byte} (h0 : n ≠ 0) (h3 : n ≠ 3) (h6 : n ≠ 6) (h7 : n ≠ 7) (s : State) :
    exec (.int n) s = perform (startInterrupt n) s := by
  show execInt n s = _
  rw [execInt, if_neg h0, if_neg h3, if_neg h6, if_neg h7]

/-- What ends early after a look ends early. -/
theorem fails_look_bind {α β : Type} {g : State → α} {k : α → Micro β} {s : State} {x : Arch} {f : Devices → Devices}
    (h : Fails (k (g s)) s x f) : Fails (look g >>= k) s x f := by
  obtain ⟨t, hrun, hleft⟩ := h
  exact ⟨t, (look_bind g k s).trans hrun, hleft⟩

/-- An instruction whose micro-operations end early, the devices left to the host. -/
theorem exec_of_fails {i : Instr} {m : Micro Unit} {s : State} {x : Arch} (hi : exec i s = perform m s) (h : Fails m s x id) :
    ∃ t, exec i s = .next t ∧ t.arch = x ∧ devicesKept s t := by
  obtain ⟨t, hrun, harch, -, hdev⟩ := fails_perform h
  exact ⟨t, hi.trans hrun, harch, hdev⟩

section
variable {s : State} (hs : s.executing)
include hs

/-- An instruction whose first push faults ends in the push's fault (40_engine.md rule R150). -/
theorem exec_pushes_faults {i : Instr} {v : Word} {y : Arch} {f : Fault} (hi : s.pushes i v)
    (hf : s.pushFaults s.arch v y f) : ∃ t, exec i s = .next t ∧ t.arch = y.faulting f ∧ devicesKept s t := by
  have hsteady := State.executing_steady hs
  obtain ⟨-, -, hu⟩ := hs
  have hpush := fails_push_any hu rfl hsteady rfl rfl hf
  rcases hi with ⟨r, rfl, rfl⟩ | ⟨rfl, rfl⟩ | ⟨a, rfl, rfl⟩ | ⟨n, rfl, h0, h3, h6, h7, rfl⟩
  · exact exec_of_fails rfl (fails_look_bind hpush)
  · exact exec_of_fails rfl (fails_look_bind hpush)
  · exact exec_of_fails rfl (fails_look_bind (fails_bind hpush))
  · exact exec_of_fails (exec_int_generic h0 h3 h6 h7 s) (fails_startInterrupt hu rfl hsteady rfl rfl (.inl hf))

/-- Entry through a vector whose second push faults has done the first (40_engine.md rule R155). -/
theorem exec_int_second_push_faults {n : Byte} (h0 : n ≠ 0) (h3 : n ≠ 3) (h6 : n ≠ 6) (h7 : n ≠ 7) (hpush : s.canPush)
    {y : Arch} {f : Fault} (hf : s.pushFaults s.arch.halfEntered s.regs.ip y f) :
    ∃ t, exec (.int n) s = .next t ∧ t.arch = y.faulting f ∧ devicesKept s t := by
  have hsteady := State.executing_steady hs
  obtain ⟨-, -, hu⟩ := hs
  exact exec_of_fails (exec_int_generic h0 h3 h6 h7 s)
    (fails_startInterrupt hu rfl hsteady rfl rfl (.inr ⟨State.canPush_arch hpush, hf⟩))

/-- An instruction that pops first ends in stack-underflow where SP is too high (40_engine.md rule R151). -/
theorem exec_pops_underflows (hsp : s.params.memMax + 1 < s.regs.sp.toNat + 2) {i : Instr}
    (hi : (∃ r, i = .pop r) ∨ i = .popf ∨ i = .ret ∨ i = .iret) :
    ∃ t, exec i s = .next t ∧ t.arch = s.arch.faulting (.stackUnderflow s.regs.sp) ∧ devicesKept s t := by
  have hsteady := State.executing_steady hs
  obtain ⟨-, -, hu⟩ := hs
  have hpop := fails_pop hu rfl hsteady hsp
  rcases hi with ⟨r, rfl⟩ | rfl | rfl | rfl
  · exact exec_of_fails rfl (fails_bind hpop)
  · exact exec_of_fails rfl (fails_bind hpop)
  · exact exec_of_fails rfl (fails_bind hpop)
  · exact exec_of_fails rfl (fails_bind hpop)

/-- IRET whose second pop is out of bounds has replaced IP (49_return.md rule R307). -/
theorem exec_iret_underflows (hpop : s.canPop) (hsp : s.params.memMax + 1 < (s.regs.sp + 2).toNat + 2) :
    ∃ t, exec .iret s = .next t ∧
      t.arch = (s.arch.popped.putIp s.top).faulting (.stackUnderflow (s.regs.sp + 2)) ∧ devicesKept s t := by
  have hsteady := State.executing_steady hs
  obtain ⟨-, -, hu⟩ := hs
  refine exec_of_fails (m := endInterrupt) rfl ?_
  refine does_seq_fails (does_pop hu rfl hsteady hpop) fun _ ht hy => ?_
  refine does_seq_fails (does_setIp ht hy hsteady _) fun _ ht hy => ?_
  exact fails_bind (fails_pop ht hy hsteady hsp)

end

/-! ## The obligation -/

/-- Settles O27: an instruction ends with the first of its pushes or pops that faults, and so does the entry the poll makes. -/
theorem stackFaults : Obligations.StackFaults := by
  refine ⟨fun s hs => ⟨?firstPush, ?secondPush, ?firstPop, ?secondPop⟩, ?hardware⟩
  case firstPush => exact fun i v y f hi hf => exec_pushes_faults hs hi hf
  case secondPush => exact fun n y f h0 h3 h6 h7 hpush hf => exec_int_second_push_faults hs h0 h3 h6 h7 hpush hf
  case firstPop => exact fun hsp i hi => exec_pops_underflows hs hsp hi
  case secondPop =>
    intro hpop hsp
    obtain ⟨t, hnext, harch, hdev⟩ := exec_iret_underflows hs hpop hsp
    exact ⟨t, hnext, hdev, harch⟩
  case hardware =>
    intro s n pic y f hrun hcycle hhost hif hack hf
    obtain ⟨harch, hdev⟩ := finishCycle_takes_fails hhost hcycle hrun hif hack hf
    exact ⟨hdev, harch⟩

end Sys2Proof.Machine
end

section
/-! PROOF. The cycle: where no instruction stands at IP, what a step that closes a cycle has reported, and the engine halted
(40_engine.md rules R130 to R136). -/

namespace Sys2Proof.Machine

/-! ## The host's turn and the events around it -/

theorem hostTurn_undisturbed {s : State} (h : s.undisturbed = true) : (hostTurn s).undisturbed = true := by
  obtain ⟨-, -, -, -, -, hhost, -⟩ := hostTurn_calm h
  exact hhost

theorem hostTurn_latches {s : State} (h : s.undisturbed = true) : (hostTurn s).latches = s.latches := by
  obtain ⟨-, hlatches, -⟩ := hostTurn_noReset (State.noReset_of_undisturbed h)
  exact hlatches

/-- The host closes no cycle. -/
theorem hostTurn_closed_iff {s : State} (h : s.undisturbed = true) : (hostTurn s).cycle = .closed ↔ s.cycle = .closed := by
  obtain ⟨-, -, -, hcycle, -⟩ := hostTurn_calm h
  rcases hcycle with e | ⟨e, e'⟩ <;> simp [*]

/-- The host does not halt the engine. -/
theorem hostTurn_notHalted {s : State} (h : s.undisturbed = true) (hrun : ∀ why, s.run ≠ .halted why) (why : HaltReason) :
    (hostTurn s).run ≠ .halted why := by
  obtain ⟨-, -, hrun', -⟩ := hostTurn_calm h
  rcases hrun' with e | ⟨-, c, e⟩ <;> simp [e, hrun]

theorem devicesKept_trans {s t u : State} (hst : devicesKept s t) (hhost : s.host = [] → t.host = [])
    (htu : devicesKept t u) : devicesKept s u :=
  ⟨htu.1.trans hst.1, fun hquiet => (htu.2 (hhost hquiet)).trans (hst.2 hquiet)⟩

@[simp] theorem State.enterHalt_latches (s : State) : s.enterHalt.latches = s.latches := by
  unfold State.enterHalt; split <;> rfl
@[simp] theorem State.announceEnd_run (s : State) : s.announceEnd.run = s.run := by
  unfold State.announceEnd; split <;> rfl
@[simp] theorem State.announceEnd_host (s : State) : s.announceEnd.host = s.host := by
  unfold State.announceEnd; split <;> rfl
@[simp] theorem State.announceEnd_undisturbed (s : State) : s.announceEnd.undisturbed = s.undisturbed := by
  simp [State.undisturbed]

/-! ## The cycle without an instruction -/

/-- The state at the `cycle-start` event (40_engine.md rule R130). -/
def State.announceStart (s : State) : State := ({ s with cycle := .opened } : State).log [.cycleStart s.regs.ip]

/-- The state at the event of a fault (60_exceptions.md rule R330). -/
def State.announceFault (s : State) (f : Fault) : State :=
  ({ s with cycle := .ending (.fault f), faultRecord := some f } : State).log [.fault f]

theorem openCycle_calm {s : State} (h : s.undisturbed = true) : openCycle s = .ok () (hostTurn s.announceStart) :=
  emit_calm (s := { s with cycle := .opened }) h _

theorem raise_calm {s : State} (h : s.undisturbed = true) (f : Fault) :
    (raise f : Micro Unit) s = .error () (hostTurn (s.announceFault f)) := by
  simp only [raise, bind_apply, commit_apply]
  rw [emit_calm (by exact h)]
  rfl

/-- A cycle opened and a fault raised at once: nothing is fetched, so no latch is loaded (40_engine.md rule R131). -/
theorem openCycle_raise {s : State} (hu : s.undisturbed = true) (hrun : s.run ≠ .awaitChar none) (f : Fault) :
    ∃ q, (do openCycle; raise f : Micro Unit) s = .error () q ∧ q.arch = s.arch.open.faulting f ∧ devicesKept s q ∧
      hostOnly s q ∧ q.latches = s.latches ∧
      (s.host = [] → q.events = .fault f :: .cycleStart s.regs.ip :: s.events) := by
  have hstart : (hostTurn s.announceStart).undisturbed = true := hostTurn_undisturbed (s := s.announceStart) hu
  obtain ⟨q, hq, harch, hhost, hdev⟩ := does_seq_fails (k := fun _ => (raise f : Micro Unit)) (does_openCycle hu rfl hrun)
    fun _ ht hy => fails_raise ht hy ⟨hrun, by simp [Arch.open]⟩ f
  refine ⟨q, hq, harch, hdev, hhost, ?_⟩
  rw [bind_apply, openCycle_calm hu] at hq
  obtain rfl := (EStateM.Result.error.inj ((raise_calm hstart f).symm.trans hq)).2
  refine ⟨?latches, fun hquiet => ?events⟩
  case latches =>
    rw [hostTurn_latches (by exact hstart)]
    exact hostTurn_latches (s := s.announceStart) hu
  case events =>
    have hstart' : hostTurn s.announceStart = s.announceStart := hostTurn_nil hquiet
    rw [hstart', hostTurn_nil (by exact hquiet)]
    rfl

/-- The end of a cycle with outcome halt loads no latch and reports `cycle-end` (40_engine.md rule R134). -/
theorem finishCycle_ending_reports {s : State} {why : HaltReason} (hu : s.undisturbed = true) (hc : s.cycle = .ending why) :
    (finishCycle s).latches = s.latches ∧ (s.host = [] → (finishCycle s).events = .cycleEnd .halt :: s.events) := by
  have hend : finishCycle s = (hostTurn (s.log [.cycleEnd .halt])).enterHalt := by
    simp [finishCycle, endCycle, hc, State.announceEnd_ending hc]
  rw [hend, State.enterHalt_latches, State.enterHalt_events]
  exact ⟨hostTurn_latches hu, fun hquiet => by rw [hostTurn_nil (by exact hquiet)]; rfl⟩

/-! ## The end of a cycle -/

/-- From `s` to `x` the engine has stayed inside a cycle, running or waiting, under a host that ends no cycle. -/
def State.inCycleSince (s x : State) : Prop :=
  x.undisturbed = true ∧ x.cycle ≠ .closed ∧ (∀ why, x.run ≠ .halted why) ∧ (s.host = [] → x.host = []) ∧
    ∃ m, x.events = m ++ s.events

theorem hostTurn_inCycleSince {s x : State} (h : s.inCycleSince x) : s.inCycleSince (hostTurn x) := by
  obtain ⟨hu, hcycle, hrun, hquiet, m, hm⟩ := h
  obtain ⟨-, -, -, -, -, hu', hquiet'⟩ := hostTurn_calm hu
  obtain ⟨h, hh, -⟩ := hostTurn_events (State.noReset_of_undisturbed hu)
  exact ⟨hu', mt (hostTurn_closed_iff hu).mp hcycle, hostTurn_notHalted hu hrun, fun e => hquiet' (hquiet e),
    h ++ m, by rw [hh, hm, List.append_assoc]⟩

/-- No micro-operation closes a cycle or halts the engine. -/
theorem inCycleSince_invariant (s : State) : Invariant s.inCycleSince where
  regs _ _ h := h
  latches _ _ h := h
  run _ _ hr h := have ⟨hu, hcycle, _, hrest⟩ := h; ⟨hu, hcycle, hr, hrest⟩
  record _ _ h := h
  cycle _ _ hc h := have ⟨hu, _, hrest⟩ := h; ⟨hu, hc, hrest⟩
  draws _ _ h := h
  log _ es h :=
    have ⟨hu, hcycle, hrun, hquiet, m, hm⟩ := h
    ⟨hu, hcycle, hrun, hquiet, es.reverse ++ m, by simp [State.log, hm]⟩
  turn _ h := hostTurn_inCycleSince h
  write _ _ _ h _ _ := h
  device _ _ _ h := h
  serve _ _ _ h _ := h

/-- `t` has ended a cycle since `s`: `u` is the state at its `cycle-end`, the engine's last event (40_engine.md rule R134). -/
def State.endsCycle (s t : State) : Prop :=
  ∃ u m h, u.events = .cycleEnd (outcomeOf t.run) :: (m ++ s.events) ∧ t = (hostTurn u).enterHalt ∧
    t.events = h ++ u.events ∧ (∀ e ∈ h, e.ofModule = true) ∧ (s.host = [] → h = [])

/-- The outcome of a cycle that leaves the engine running or waiting (40_engine.md rule R130). -/
theorem outcomeOf_notHalted {r : Run} (h : ∀ why, r ≠ .halted why) : outcomeOf r = .continue := by
  cases r with
  | running => rfl
  | awaitChar c => rfl
  | halted why => exact absurd rfl (h why)

/-- A cycle with outcome continue is closed by its `cycle-end`, and the host's turn is all that follows. -/
theorem endCycle_opened_eq {x : State} (hu : x.undisturbed = true) (hc : x.cycle = .opened) :
    endCycle x = hostTurn x.announceEnd := by
  have hclosed : (hostTurn x.announceEnd).cycle = .closed :=
    (hostTurn_closed_iff (by simpa using hu)).mpr (by simp [State.announceEnd_opened hc])
  rw [endCycle_of (.inl hc), State.enterHalt_other (by simp [hclosed])]

/-- `cycle-end` announces the outcome seen from the run state that the end of the cycle leaves (40_engine.md rule R130). -/
theorem announceEnd_outcome {x : State} (hu : x.undisturbed = true) (hrun : ∀ why, x.run ≠ .halted why)
    (h : x.cycle = .opened ∨ ∃ why, x.cycle = .ending why) :
    x.announceEnd.events = .cycleEnd (outcomeOf (endCycle x).run) :: x.events := by
  rcases h with hc | ⟨why, hc⟩
  · have hcontinue : outcomeOf (hostTurn x.announceEnd).run = .continue :=
      outcomeOf_notHalted (hostTurn_notHalted (by simpa using hu) (by simpa using hrun))
    rw [endCycle_opened_eq hu hc, hcontinue, State.announceEnd_opened hc]
    rfl
  · obtain ⟨harch, -⟩ := endCycle_ending hu hc
    have hhalt : (endCycle x).run = .halted why := congrArg Arch.run harch
    rw [hhalt, State.announceEnd_ending hc]
    rfl

theorem endCycle_endsCycle {s x : State} (hx : s.inCycleSince x) (hclosed : (endCycle x).cycle = .closed) :
    s.endsCycle (endCycle x) := by
  obtain ⟨hu, hcycle, hrun, hquiet, m, hm⟩ := hx
  have hover : x.cycle = .opened ∨ ∃ why, x.cycle = .ending why := by
    cases hc : x.cycle <;> simp_all [endCycle]
  obtain ⟨h, hh, hmodule, hnone⟩ := hostTurn_events (s := x.announceEnd) (State.noReset_of_undisturbed (by simpa using hu))
  refine ⟨x.announceEnd, m, h, ?_, endCycle_of hover, ?_, hmodule, fun e => hnone (by simpa using hquiet e)⟩
  · rw [announceEnd_outcome hu hrun hover, hm]
  · rw [endCycle_of hover, State.enterHalt_events, hh]

theorem finishCycle_endsCycle {s x : State} (hx : s.inCycleSince x) (hclosed : (finishCycle x).cycle = .closed) :
    s.endsCycle (finishCycle x) := by
  have ⟨_, hinside, _⟩ := hx
  unfold finishCycle at hclosed ⊢
  split at hclosed
  · split at hclosed
    · exact endCycle_endsCycle (keeps_poll (inCycleSince_invariant s) x hx) hclosed
    · exact absurd hclosed hinside
    · exact absurd hclosed hinside
  · exact endCycle_endsCycle hx hclosed
  all_goals exact absurd hclosed hinside

/-- The cycle of an instruction, once its `cycle-start` is out. -/
theorem runInstr_endsCycle {s t : State} (hopened : s.inCycleSince { s with cycle := .opened }) {d : Descriptor} {i : Instr}
    (hrun : runInstr d i s = .next t) (hclosed : t.cycle = .closed) : s.endsCycle t := by
  have hinv := inCycleSince_invariant s
  have hfetched : s.inCycleSince (after (do openCycle; fetch d : Micro Unit) s) :=
    keeps_bind (keeps_openCycle hinv) (fun _ => keeps_consumeAll hinv _ _ 0 d.len) { s with cycle := .opened } hopened
  unfold runInstr at hrun
  split at hrun
  next u hu =>
    rw [after_ok hu] at hfetched
    unfold finishOutcome at hrun
    split at hrun
    next v hv =>
      obtain rfl := Host.Outcome.next.inj hrun
      exact finishCycle_endsCycle (exec_keeps hinv i hfetched hv) hclosed
    all_goals cases hrun
  next u hu =>
    rw [after_error hu] at hfetched
    obtain rfl := Host.Outcome.next.inj hrun
    exact finishCycle_endsCycle hfetched hclosed

/-- A whole cycle: opening it commits the phase first, so all its events come from inside it. -/
theorem runCycle_endsCycle {s t : State} (hopened : s.inCycleSince { s with cycle := .opened }) (hrun : runCycle s = .next t)
    (hclosed : t.cycle = .closed) : s.endsCycle t := by
  have hinv := inCycleSince_invariant s
  unfold runCycle at hrun
  split at hrun
  · cases hrun
  split at hrun
  · obtain rfl := Host.Outcome.next.inj hrun
    exact finishCycle_endsCycle (keeps_bind (keeps_openCycle hinv) (fun _ => keeps_raise hinv _)
      { s with cycle := .opened } hopened) hclosed
  split at hrun
  · cases hrun
  · exact runInstr_endsCycle hopened hrun hclosed

/-- What a step inside a cycle can be: a turn of the host, or the end of the cycle from where it stands, from where the host's
turn leaves it, or from INT 6's store (40_engine.md rule R130, 47_software_interrupt.md rules R282, R284). -/
theorem step_inside_cycle {s : State} (h : s.cycle ≠ .closed) :
    step s = .next (hostTurn s) ∨
      ∃ x, (x = s ∨ x = hostTurn s ∨ ∃ c, x = after (storeChar c) s) ∧ step s = .next (finishCycle x) := by
  unfold step stepState
  split
  · exact .inl rfl
  · exact .inl rfl
  · exact .inr ⟨_, .inr (.inl rfl), rfl⟩
  · exact absurd ‹s.cycle = .closed› h
  · exact .inr ⟨s, .inl rfl, rfl⟩
  · exact .inr ⟨s, .inl rfl, rfl⟩
  · exact .inr ⟨_, .inr (.inr ⟨_, rfl⟩), rfl⟩
  · exact .inl rfl

/-! ## The obligations -/

/-- Settles O29: the cycle is opened and the fault raised at once, and its end halts the engine. -/
theorem noInstructionFaults : Obligations.NoInstructionFaults := by
  intro s ⟨hrun, hcycle, hu⟩ hadmitted hnone
  obtain ⟨q, hq, harch, hdev, hhost, hlatches, hevents⟩ :=
    openCycle_raise hu (by simp [hrun]) (.noInstruction s.regs.ip)
  have hending : q.cycle = .ending (.fault (.noInstruction s.regs.ip)) := congrArg Arch.cycle harch
  obtain ⟨harch', hdev', -⟩ := finishCycle_ending hhost.1 hending
  obtain ⟨hlatches', hevents'⟩ := finishCycle_ending_reports hhost.1 hending
  refine ⟨finishCycle q, ?step, ?arch, hlatches'.trans hlatches, devicesKept_trans hdev hhost.2 hdev',
    fun hquiet => ?events⟩
  case step =>
    rw [step_between_cycles hrun hcycle]
    simp only [runCycle, hadmitted, hnone, runNothing, after_error hq]
  case arch =>
    rw [harch', harch]
    simp [Arch.halted, Arch.faulting, Arch.open, State.arch, hcycle]
  case events => rw [hevents' (hhost.2 hquiet), hevents hquiet]

/-- Settles O42: no micro-operation closes a cycle, so a step that closes one has come to its end from inside it. -/
theorem everyCycleEnds : Obligations.EveryCycleEnds := by
  intro s t hu hactive hstep hclosed
  by_cases hc : s.cycle = .closed
  · have hrun : s.run = .running := hactive.resolve_left (absurd hc)
    rw [step_between_cycles hrun hc] at hstep
    exact runCycle_endsCycle ⟨hu, by simp, by simp [hrun], id, [], rfl⟩ hstep hclosed
  have hturn : (hostTurn s).cycle ≠ .closed := mt (hostTurn_closed_iff hu).mp hc
  by_cases hhalted : ∃ why, s.run = .halted why
  · obtain ⟨why, hwhy⟩ := hhalted
    obtain rfl := Host.Outcome.next.inj ((step_of_halted hwhy).symm.trans hstep)
    exact absurd hclosed hturn
  have hin : s.inCycleSince s := ⟨hu, hc, not_exists.mp hhalted, id, [], rfl⟩
  rcases step_inside_cycle hc with hnext | ⟨x, hx, hnext⟩ <;>
    obtain rfl := Host.Outcome.next.inj (hnext.symm.trans hstep)
  · exact absurd hclosed hturn
  · refine finishCycle_endsCycle ?_ hclosed
    rcases hx with rfl | rfl | ⟨c, rfl⟩
    · exact hin
    · exact hostTurn_inCycleSince hin
    · exact keeps_storeChar (inCycleSince_invariant s) c s hin

/-- Settles O40: what the cycle runs is executing, the descriptor found at IP starting there. -/
theorem stepRunsDecoded : Obligations.StepRunsDecoded := by
  intro s d i hready hadmitted hindex hdecode
  obtain ⟨u, hstep, harch, hdev, hhost⟩ := step_runs hready hadmitted hindex hdecode
  have haddr : d.addr = s.regs.ip := by simpa using List.find?_some hindex
  have hrun : u.run = s.run := congrArg Arch.run harch
  have hcycle : u.cycle = .opened := congrArg Arch.cycle harch
  exact ⟨u, hstep, ⟨hrun.trans hready.1, hcycle, hhost.1⟩, hdev, haddr ▸ harch⟩

/-- Settles O46: the poll takes nothing, and on outcome halt there is no poll. -/
theorem interruptNotTaken : Obligations.InterruptNotTaken := by
  intro s hu
  refine ⟨fun hcycle hrun hoff => ?quiet, fun why hcycle => ?halt⟩
  case quiet =>
    have hnone : (flagIF s.regs.flags && s.dev.pic.intr) = false := Bool.and_eq_false_iff.mpr hoff
    obtain ⟨harch, hdev, -⟩ := finishCycle_quiet hu hcycle hrun hnone
    exact ⟨harch, hdev⟩
  case halt =>
    obtain ⟨harch, hdev, -⟩ := finishCycle_ending hu hcycle
    exact ⟨harch, hdev⟩

/-- Settles O59: a halted engine's step is one turn of the host, which without a reset moves the devices and the wait alone. -/
theorem haltedStaysHalted : Obligations.HaltedStaysHalted := by
  intro s why hrun hno
  obtain ⟨hregs, hlatches, hmem, hprogram, hparams, hno', hrecord, hhalted, -⟩ := hostTurn_noReset hno
  exact ⟨hostTurn s, step_of_halted hrun, hhalted why hrun, hrecord, hregs, hlatches, hmem, hprogram, hparams, hno'⟩

end Sys2Proof.Machine
end

section
/-! PROOF. The ALU instructions: one operation on the values of a destination and a source, what it computes, where its operands
fault, and what it leaves unchanged on every path (41_alu_binary.md rule R180, 42_alu_unary.md rule R200). -/

namespace Sys2Proof.Machine

/-! ## One form for the two families -/

/-- The ALU operation of an instruction, on the value of its destination and of a source. The source of the unary family is a
constant (42_alu_unary.md rules R201 to R204). -/
structure Calc (w : Width) where
  op : AluOp
  src : Source w
  /-- The left operand of the ALU, from the values of the destination and the source. -/
  left : BitVec w.bits → BitVec w.bits → BitVec w.bits
  /-- The right operand of the ALU. -/
  right : BitVec w.bits → BitVec w.bits → BitVec w.bits

/-- Destination and source in this order (41_alu_binary.md rule R180). -/
def Calc.forward {w : Width} (op : AluOp) (q : Source w) : Calc w := { op := op, src := q, left a _ := a, right _ b := b }

/-- Source and destination in this order, as NEG has it (42_alu_unary.md rule R203). -/
def Calc.backward {w : Width} (op : AluOp) (q : Source w) : Calc w := { op := op, src := q, left _ b := b, right a _ := a }

/-- What the ALU answers in a state, for a destination operand. -/
def Calc.out {w : Width} (c : Calc w) (d : Loc w) (s : State) : AluOut w.bits :=
  let a := s.placeValue (placeOf d s.regs)
  let b := s.sourceValue c.src
  alu c.op (c.left a b) (c.right a b) (flagCF s.regs.flags)

/-- The instruction up to its writeback: where the destination is, and the result. -/
def Calc.compute {w : Width} (c : Calc w) (d : Loc w) : Micro (Place w × BitVec w.bits) := do
  let p ← resolve d
  let a ← readPlace p
  let b ← readSource c.src
  let res ← aluOp c.op (c.left a b) (c.right a b)
  pure (p, res)

/-- The instruction with its writeback. -/
def Calc.modify {w : Width} (c : Calc w) (d : Loc w) : Micro Unit := do
  let r ← c.compute d
  writePlace r.1 r.2

theorem binary_eq_modify {w : Width} (op : AluOp) (o : Operands w) :
    binary op o = (Calc.forward op o.src).modify o.dst := by
  simp [binary, Calc.modify, Calc.compute, Calc.forward]

theorem compare_eq_compute {w : Width} (o : Operands w) :
    compare o = (do let _ ← (Calc.forward .sub o.src).compute o.dst; pure ()) := by
  simp [compare, Calc.compute, Calc.forward]

theorem unary_eq_modify {w : Width} {c : Calc w} {v : BitVec w.bits} (h : c.src = .imm v) (d : Loc w) :
    unary (fun a => aluOp c.op (c.left a v) (c.right a v)) d = c.modify d := by
  simp [unary, Calc.modify, Calc.compute, h, readSource]

/-- The binary instructions that write their result back, with their operations (41_alu_binary.md rules R181 to R184, R186 to
R188). -/
def binaryTable {w : Width} (o : Operands w) : List (AluOp × Instr) :=
  [(.add, .add w o), (.adc, .adc w o), (.sub, .sub w o), (.sbb, .sbb w o), (.and, .and w o), (.or, .or w o), (.xor, .xor w o)]

/-- The unary instructions with their operations (42_alu_unary.md rules R201 to R204). -/
def unaryTable {w : Width} (d : Loc w) : List (Instr × Calc w) :=
  [(.inc w d, .forward .add (.imm 1)), (.dec w d, .forward .sub (.imm 1)), (.neg w d, .backward .sub (.imm 0)),
    (.not w d, .forward .xor (.imm (BitVec.allOnes w.bits)))]

/-- The instructions that write an ALU result back to the destination of `o`, with their operations. -/
def aluTable {w : Width} (o : Operands w) : List (Instr × Calc w) :=
  (binaryTable o).map (fun e => (e.2, .forward e.1 o.src)) ++ unaryTable o.dst

section
variable {w : Width} {o : Operands w} {d : Loc w} {i : Instr} {c : Calc w}

theorem exec_of_mem_binaryTable {op : AluOp} (h : (op, i) ∈ binaryTable o) (s : State) :
    exec i s = perform ((Calc.forward op o.src).modify o.dst) s := by
  have hrow : exec i s = perform (binary op o) s := by
    simp only [binaryTable, List.mem_cons, Prod.mk.injEq, List.not_mem_nil, or_false] at h
    rcases h with ⟨rfl, rfl⟩ | ⟨rfl, rfl⟩ | ⟨rfl, rfl⟩ | ⟨rfl, rfl⟩ | ⟨rfl, rfl⟩ | ⟨rfl, rfl⟩ | ⟨rfl, rfl⟩ <;> rfl
  rw [hrow, binary_eq_modify]

theorem exec_of_mem_unaryTable (h : (i, c) ∈ unaryTable d) (s : State) : exec i s = perform (c.modify d) s := by
  simp only [unaryTable, List.mem_cons, Prod.mk.injEq, List.not_mem_nil, or_false] at h
  rcases h with ⟨rfl, rfl⟩ | ⟨rfl, rfl⟩ | ⟨rfl, rfl⟩ | ⟨rfl, rfl⟩ <;> rw [← unary_eq_modify rfl] <;> rfl

theorem exec_of_mem_aluTable (h : (i, c) ∈ aluTable o) (s : State) : exec i s = perform (c.modify o.dst) s := by
  rcases List.mem_append.mp h with h | h
  · obtain ⟨⟨op, j⟩, hmem, heq⟩ := List.mem_map.mp h
    obtain ⟨rfl, rfl⟩ := Prod.mk.inj heq
    exact exec_of_mem_binaryTable hmem s
  · exact exec_of_mem_unaryTable h s

theorem exec_cmp (o : Operands w) (s : State) :
    exec (.cmp w o) s = perform (do let _ ← (Calc.forward .sub o.src).compute o.dst; pure ()) s :=
  congrArg (perform · s) (compare_eq_compute o)

theorem exec_mov (o : Operands w) (s : State) : exec (.mov w o) s = perform (move o) s := rfl

/-- The instructions of both families: CMP, and those that write back. -/
theorem cmp_or_mem_aluTable
    (h : i ∈ [Instr.add w o, .adc w o, .sub w o, .sbb w o, .cmp w o, .and w o, .or w o, .xor w o,
      .inc w o.dst, .dec w o.dst, .neg w o.dst, .not w o.dst]) : i = .cmp w o ∨ ∃ c, (i, c) ∈ aluTable o := by
  have hrows : i = .cmp w o ∨ i ∈ (aluTable o).map Prod.fst := by
    simp only [aluTable, binaryTable, unaryTable, List.map_cons, List.map_nil, List.cons_append, List.nil_append,
      List.mem_cons, List.not_mem_nil, or_false] at h ⊢
    tauto
  refine hrows.imp_right fun hmem => ?_
  obtain ⟨⟨j, c⟩, hc, rfl⟩ := List.mem_map.mp hmem
  exact ⟨c, hc⟩

/-- The instructions that read a source: MOV, CMP, and the binary ones that write back. -/
theorem mov_or_cmp_or_mem_binaryTable
    (h : i ∈ [Instr.add w o, .adc w o, .sub w o, .sbb w o, .cmp w o, .and w o, .or w o, .xor w o, .mov w o]) :
    i = .mov w o ∨ i = .cmp w o ∨ ∃ op, (op, i) ∈ binaryTable o := by
  have hrows : i = .mov w o ∨ i = .cmp w o ∨ i ∈ (binaryTable o).map Prod.snd := by
    simp only [binaryTable, List.map_cons, List.map_nil, List.mem_cons, List.not_mem_nil, or_false] at h ⊢
    tauto
  refine hrows.imp_right (Or.imp_right fun hmem => ?_)
  obtain ⟨⟨op, j⟩, hop, rfl⟩ := List.mem_map.mp hmem
  exact ⟨op, hop⟩

/-- An ALU instruction reads the source of `o` or a constant. -/
theorem sourceReadable_of_mem_aluTable (h : (i, c) ∈ aluTable o) {s : State} (hq : s.sourceReadable o.src) :
    s.sourceReadable c.src := by
  rcases List.mem_append.mp h with h | h
  · obtain ⟨e, -, heq⟩ := List.mem_map.mp h
    obtain ⟨-, rfl⟩ := Prod.mk.inj heq
    exact hq
  · simp only [unaryTable, List.mem_cons, Prod.mk.injEq, List.not_mem_nil, or_false] at h
    rcases h with ⟨-, rfl⟩ | ⟨-, rfl⟩ | ⟨-, rfl⟩ | ⟨-, rfl⟩ <;> trivial

/-- The row of an instruction listed with what the ALU answers. -/
theorem row_of_mem_outs {s : State} {out : AluOut w.bits}
    (h : (i, out) ∈ (aluTable o).map fun e => (e.1, e.2.out o.dst s)) : ∃ c, (i, c) ∈ aluTable o ∧ c.out o.dst s = out := by
  obtain ⟨⟨j, c⟩, hc, heq⟩ := List.mem_map.mp h
  obtain ⟨rfl, rfl⟩ := Prod.mk.inj heq
  exact ⟨c, hc, rfl⟩

end

/-! ## Operands and outcomes -/

/-- An instruction whose micro-operations go on, the devices left to the host. -/
theorem exec_of_does {i : Instr} {m : Micro Unit} {s : State} {x : Arch} (hi : exec i s = perform m s) (h : Does m s () x id) :
    ∃ t, exec i s = .next t ∧ t.arch = x ∧ devicesKept s t := by
  obtain ⟨t, hrun, harch, -, hdev⟩ := does_perform h
  exact ⟨t, hi.trans hrun, harch, hdev⟩

@[simp] theorem Arch.put_flags (x : Arch) {w : Width} (p : Place w) (v : BitVec w.bits) :
    (x.put p v).regs.flags = x.regs.flags := by
  cases p with
  | reg r => exact Regs.set_flags _ r v
  | mem a => rfl

/-- A source in memory has a register beside it: there is no form with two memory operands (30_encoding.md rule R110). -/
theorem Operands.placeReadable_of_src_mem {w : Width} {o : Operands w} {m : Mode} (h : o.src = .mem m) (s : State) :
    s.placeReadable (placeOf o.dst s.regs) := by
  cases o with
  | rm r m' => trivial
  | rr | mr | ri | mi => cases h

/-! ## Reads outside memory -/

/-- The byte `bad` is the first of a width-`w` read at `a` that lies outside memory (20_memory.md rules R62, R66). -/
abbrev Arch.readFaultsAt (x : Arch) (w : Width) (a bad : Nat) : Prop :=
  bad = a ∧ x.params.memMax < bad ∨ w = .w16 ∧ a = x.params.memMax ∧ bad = a + 1

section
variable {s : State} {x : Arch} (hu : s.undisturbed = true) (hx : s.arch = x) (hs : x.steady) {w : Width} {bad : Nat}
include hu hx hs

/-- The effective address staged (40_engine.md rule R144). -/
theorem does_stageEa (m : Mode) : Does (stageEa m) s (ea m x.regs) x id :=
  does_seq (does_look hu hx (fun x => ea m x.regs) (fun _ => rfl)) fun _ ht hy =>
    does_seq (does_setRi ht hy hs _) fun _ ht hy => does_pure ht hy _

theorem fails_loadOperand {a : Word} (hb : x.readFaultsAt w a.toNat bad) :
    Fails (loadOperand w a) s (x.faulting (.memOutOfRange bad)) id := fails_bind (fails_memRead hu hx hs hb)

theorem fails_readSource {m : Mode} (hb : x.readFaultsAt w (ea m x.regs).toNat bad) :
    Fails (readSource (.mem m : Source w)) s (x.faulting (.memOutOfRange bad)) id :=
  does_seq_fails (does_stageEa hu hx hs m) fun _ ht hy => fails_loadOperand ht hy hs hb

end

/-! ## What goes on, and what faults -/

section
variable {s : State} (hs : s.executing) {w : Width} {c : Calc w} {d : Loc w}
include hs

/-- The operation with readable operands: the ALU's result, and FLAGS written. -/
theorem does_compute (hd : s.placeReadable (placeOf d s.regs)) (hq : s.sourceReadable c.src) :
    Does (c.compute d) s (placeOf d s.regs, (c.out d s).res)
      (s.arch.putFlags (flagsAfter s.regs.flags (c.out d s))) id := by
  have hsteady := State.executing_steady hs
  obtain ⟨-, -, hu⟩ := hs
  refine does_seq (does_resolve hu rfl hsteady d) fun _ ht hy => ?_
  refine does_seq (does_readPlace ht hy hsteady hd) fun _ ht hy => ?_
  refine does_seq (does_readSource ht hy hsteady hq) fun _ ht hy => ?_
  exact does_seq (does_aluOp ht hy hsteady _ _ _) fun _ ht hy => does_pure ht hy _

/-- A destination that cannot be read ends the operation with nothing changed. -/
theorem fails_compute_dst {a : Word} {bad : Nat} (hd : placeOf d s.regs = .mem a)
    (hb : s.arch.readFaultsAt w a.toNat bad) :
    Fails (c.compute d) s (s.arch.faulting (.memOutOfRange bad)) id := by
  have hsteady := State.executing_steady hs
  obtain ⟨-, -, hu⟩ := hs
  refine does_seq_fails (does_resolve hu rfl hsteady d) fun _ ht hy => fails_bind ?_
  rw [State.arch_regs, hd]
  exact fails_loadOperand ht hy hsteady hb

/-- A source that cannot be read ends the operation with nothing changed. -/
theorem fails_compute_src {m : Mode} {bad : Nat} (hd : s.placeReadable (placeOf d s.regs)) (hq : c.src = .mem m)
    (hb : s.arch.readFaultsAt w (ea m s.regs).toNat bad) :
    Fails (c.compute d) s (s.arch.faulting (.memOutOfRange bad)) id := by
  have hsteady := State.executing_steady hs
  obtain ⟨-, -, hu⟩ := hs
  refine does_seq_fails (does_resolve hu rfl hsteady d) fun _ ht hy => ?_
  refine does_seq_fails (does_readPlace ht hy hsteady hd) fun _ ht hy => fails_bind ?_
  rw [hq]
  exact fails_readSource ht hy hsteady hb

/-- The operation and its writeback (40_engine.md rule R143). -/
theorem does_modify (hd : s.placeReadable (placeOf d s.regs)) (hq : s.sourceReadable c.src)
    (hw : s.placeWritable (placeOf d s.regs)) :
    Does (c.modify d) s ()
      ((s.arch.putFlags (flagsAfter s.regs.flags (c.out d s))).put (placeOf d s.regs) (c.out d s).res) id :=
  does_seq (does_compute hs hd hq) fun _ ht hy => does_writePlace ht hy (State.executing_steady hs) rfl rfl hw _

/-- A memory destination whose first byte cannot be written faults after FLAGS are written, nothing stored. -/
theorem fails_modify_first {a : Word} {f : Fault} (hd : placeOf d s.regs = .mem a) (hr : s.canRead w a.toNat)
    (hq : s.sourceReadable c.src) (hf : s.byteWriteFault a.toNat = some f) :
    Fails (c.modify d) s ((s.arch.putFlags (flagsAfter s.regs.flags (c.out d s))).faulting f) id := by
  refine does_seq_fails (does_compute hs (hd ▸ hr) hq) fun _ ht hy => ?_
  simp only [hd]
  exact fails_writePlace_first ht hy (State.executing_steady hs) rfl rfl hf _

end

/-- A word destination whose second byte alone cannot be written faults after FLAGS are written, the low byte stored. -/
theorem fails_modify_second {s : State} (hs : s.executing) {c : Calc .w16} {d : Loc .w16} {a : Word} {f : Fault}
    (hd : placeOf d s.regs = .mem a) (hr : s.canRead .w16 a.toNat) (hq : s.sourceReadable c.src)
    (h0 : s.byteWriteFault a.toNat = none) (hf : s.byteWriteFault (a.toNat + 1) = some f) :
    Fails (c.modify d) s (({ s.arch.putFlags (flagsAfter s.regs.flags (c.out d s)) with
      mem := s.mem.write a.toNat (lowByte (c.out d s).res) } : Arch).faulting f) id := by
  refine does_seq_fails (does_compute hs (hd ▸ hr) hq) fun _ ht hy => ?_
  simp only [hd]
  exact fails_writePlace_second ht hy (State.executing_steady hs) rfl rfl h0 hf _

section
variable {s : State} (hs : s.executing) {w : Width} {o : Operands w}
include hs

/-- A source that cannot be read ends MOV with nothing changed (43_data_move.md rule R215). -/
theorem fails_move_src {m : Mode} {bad : Nat} (hq : o.src = .mem m) (hb : s.arch.readFaultsAt w (ea m s.regs).toNat bad) :
    Fails (move o) s (s.arch.faulting (.memOutOfRange bad)) id := by
  have hsteady := State.executing_steady hs
  obtain ⟨-, -, hu⟩ := hs
  refine fails_bind ?_
  rw [hq]
  exact fails_readSource hu rfl hsteady hb

/-- MOV ends as the write of its source's value to its destination (43_data_move.md rule R215). -/
theorem fails_move_dst {x : Arch} (hq : s.sourceReadable o.src)
    (hw : ∀ t, t.undisturbed = true → t.arch = s.arch →
      Fails (writePlace (placeOf o.dst s.regs) (s.sourceValue o.src)) t x id) : Fails (move o) s x id := by
  have hsteady := State.executing_steady hs
  obtain ⟨-, -, hu⟩ := hs
  refine does_seq_fails (does_readSource hu rfl hsteady hq) fun _ ht hy => ?_
  exact does_seq_fails (does_resolve ht hy hsteady o.dst) fun _ ht hy => hw _ ht hy

end

/-! ## Frames -/

/-- From `x` to `y` an ALU instruction may have changed registers to `g` with `changed g`, CF, ZF, SF and OF of FLAGS and memory
where `off` fails, and may have faulted (10_state.md rule R31, 60_exceptions.md rule R332). -/
structure Arch.AluFrame (changed : Regs → Prop) (off : Nat → Prop) (x y : Arch) : Prop where
  regs : ∃ g f, changed g ∧ y.regs = { g with flags := f } ∧
    ∀ j, j ≠ 0 → j ≠ 6 → j ≠ 7 → j ≠ 11 → f.getLsbD j = x.regs.flags.getLsbD j
  mem : ∀ b, off b → y.mem.read b = x.mem.read b
  program : y.program = x.program
  params : y.params = x.params
  draws : y.draws = x.draws
  outcome : x.goesOnOrFaults y

/-- The frame of an instruction that writes nothing back. -/
abbrev Arch.FlagsFrame (x y : Arch) : Prop := x.AluFrame (· = x.regs) (fun _ => True) y

/-- The registers a write of a place may leave. -/
def Place.reaches {w : Width} (p : Place w) (g g' : Regs) : Prop :=
  match p with
  | .reg r => ∃ v, g' = g.set r v
  | .mem _ => g' = g

theorem Place.reaches_refl {w : Width} (p : Place w) (g : Regs) : p.reaches g g := by
  cases p with
  | reg r => exact ⟨g.get r, (g.set_get r).symm⟩
  | mem a => rfl

theorem Regs.set_withFlags (g : Regs) (f : Word) {w : Width} (r : Reg w) (v : BitVec w.bits) :
    ({ g with flags := f } : Regs).set r v = { g.set r v with flags := f } := by
  cases r <;> rfl

section
variable {x y z : Arch}

theorem Arch.flagsFrame_putFlags (x : Arch) {n : Nat} (out : AluOut n) :
    x.FlagsFrame (x.putFlags (flagsAfter x.regs.flags out)) where
  regs := by
    obtain ⟨-, -, -, -, hkept⟩ := flagBits_setAluFlags x.regs.flags out.cf out.zf out.sf out.of
    exact ⟨x.regs, _, rfl, rfl, hkept⟩
  mem _ _ := rfl
  program := rfl
  params := rfl
  draws := rfl
  outcome := Arch.goesOn rfl rfl rfl

theorem Arch.flagsFrame_faulted (h : x.faulted y) : x.FlagsFrame y := by
  obtain ⟨f, rfl⟩ := h
  exact ⟨⟨x.regs, x.regs.flags, rfl, rfl, fun _ _ _ _ _ => rfl⟩, fun _ _ => rfl, rfl, rfl, rfl, Arch.faults f rfl rfl rfl⟩

/-- An instruction that has written nothing back keeps to any place's frame. -/
theorem Arch.FlagsFrame.toPlace (h : x.FlagsFrame y) {w : Width} (p : Place w) : x.AluFrame (p.reaches x.regs) p.off y where
  regs := by
    obtain ⟨g, f, rfl, hregs, hkept⟩ := h.regs
    exact ⟨x.regs, f, p.reaches_refl _, hregs, hkept⟩
  mem b _ := h.mem b trivial
  program := h.program
  params := h.params
  draws := h.draws
  outcome := h.outcome

theorem Arch.FlagsFrame.put (h : x.FlagsFrame y) {w : Width} (p : Place w) (v : BitVec w.bits) :
    x.AluFrame (p.reaches x.regs) p.off (y.put p v) := by
  obtain ⟨⟨g, f, rfl, hregs, hkept⟩, hmem, hprogram, hparams, hdraws, houtcome⟩ := h
  have hread : ∀ b, p.off b → (y.put p v).mem.read b = x.mem.read b :=
    fun b hb => (y.put_off p v hb).trans (hmem b trivial)
  cases p with
  | reg r =>
    have hset : (y.put (.reg r) v).regs = { x.regs.set r v with flags := f } := by
      simp only [Arch.put, hregs, Regs.set_withFlags]
    exact ⟨⟨_, f, ⟨v, rfl⟩, hset, hkept⟩, hread, hprogram, hparams, hdraws, houtcome⟩
  | mem a => exact ⟨⟨_, f, rfl, hregs, hkept⟩, hread, hprogram, hparams, hdraws, houtcome⟩

theorem Arch.FlagsFrame.faultedOff (h : x.FlagsFrame y) {w : Width} (p : Place w) (hz : y.faultedOff p.off z) :
    x.AluFrame (p.reaches x.regs) p.off z := by
  obtain ⟨m, fault, rfl, hm⟩ := hz
  obtain ⟨⟨g, f, rfl, hregs, hkept⟩, hmem, hprogram, hparams, hdraws, hrun, -⟩ := h
  exact ⟨⟨_, f, p.reaches_refl _, hregs, hkept⟩, fun b hb => (hm b hb).trans (hmem b trivial), hprogram, hparams, hdraws,
    Arch.faults fault hrun rfl rfl⟩

end

section
variable {s : State} (hs : s.executing) {w : Width}
include hs

/-- The operation on every path. -/
theorem runs_compute (c : Calc w) (d : Loc w) :
    Runs (c.compute d) s (fun r y => r.1 = placeOf d s.regs ∧ s.arch.FlagsFrame y ∧ y.steady) s.arch.FlagsFrame := by
  have hsteady := State.executing_steady hs
  obtain ⟨-, -, hu⟩ := hs
  have read {α : Type} {m : Micro α} {t : State} {Q : α → Arch → Prop} (h : Runs m t Q s.arch.faulted) :
      Runs m t Q s.arch.FlagsFrame := runs_mono h (fun _ _ hq => hq) fun _ => Arch.flagsFrame_faulted
  refine runs_seq (runs_resolve hu rfl hsteady d _) ?_
  rintro _ p _ ht hy ⟨rfl, rfl⟩
  refine runs_seq (read (runs_readPlace ht hy hsteady _)) ?_
  rintro _ a _ ht hy ⟨-, rfl⟩
  refine runs_seq (read (runs_readSource ht hy hsteady c.src)) ?_
  rintro _ b _ ht hy ⟨-, rfl⟩
  exact runs_does (does_seq (does_aluOp ht hy hsteady _ _ _) fun _ ht hy => does_pure ht hy _)
    ⟨rfl, Arch.flagsFrame_putFlags _ _, hsteady⟩

/-- The operation and its writeback on every path. -/
theorem runs_modify (c : Calc w) (d : Loc w) :
    let R := s.arch.AluFrame ((placeOf d s.regs).reaches s.regs) (placeOf d s.regs).off
    Runs (c.modify d) s (fun _ y => R y) R := by
  intro R
  refine runs_seq (runs_mono (runs_compute hs c d) (fun _ _ h => h) fun _ h => h.toPlace _) ?_
  rintro _ ⟨_, v⟩ y ht hy ⟨rfl, hframe, hsteady⟩
  refine runs_mono (runs_writePlace ht hy hsteady _ v) ?_ ?_
  · rintro _ _ rfl
    exact hframe.put _ v
  · rintro _ ⟨-, hfault⟩
    exact hframe.faultedOff _ hfault

variable {o : Operands w} {t : State}

/-- CMP changes four bits of FLAGS and may fault, nothing else (41_alu_binary.md rule R185). -/
theorem exec_cmp_frame (h : exec (.cmp w o) s = .next t) : s.arch.FlagsFrame t.arch ∧ devicesKept s t := by
  rw [exec_cmp] at h
  have hrun := runs_seq (R := fun _ y => s.arch.FlagsFrame y) (runs_compute hs (.forward .sub o.src) o.dst)
    fun _ _ _ ht hy hq => runs_does (does_pure ht hy ()) hq.2.1
  obtain ⟨u, hnext, hframe, hdev, -⟩ := runs_perform hrun
  obtain rfl := Host.Outcome.next.inj (hnext.symm.trans h)
  exact ⟨hframe, hdev⟩

/-- An instruction of either family keeps to the frame of its destination. -/
theorem exec_alu_frame {i : Instr} (hi : i = .cmp w o ∨ ∃ c, (i, c) ∈ aluTable o) (h : exec i s = .next t) :
    s.arch.AluFrame ((placeOf o.dst s.regs).reaches s.regs) (placeOf o.dst s.regs).off t.arch ∧ devicesKept s t := by
  rcases hi with rfl | ⟨c, hc⟩
  · obtain ⟨hframe, hdev⟩ := exec_cmp_frame hs h
    exact ⟨hframe.toPlace _, hdev⟩
  · rw [exec_of_mem_aluTable hc] at h
    obtain ⟨u, hnext, hframe, hdev, -⟩ := runs_perform (runs_modify hs c o.dst)
    obtain rfl := Host.Outcome.next.inj (hnext.symm.trans h)
    exact ⟨hframe, hdev⟩

end

/-! ## The obligations -/

/-- Settles O8: both operands are read, the ALU writes FLAGS, and its result is written back. -/
theorem binaryCompletes : Obligations.BinaryCompletes := by
  intro w o s hs hd hq hw op i hi
  obtain ⟨t, hnext, harch, hdev⟩ :=
    exec_of_does (exec_of_mem_binaryTable hi s) (does_modify hs (c := .forward op o.src) hd hq hw)
  refine ⟨t, hnext, ⟨harch, ?flags⟩, hdev⟩
  case flags =>
    rw [← State.arch_regs, harch, Arch.put_flags]
    exact flagBits_setAluFlags _ _ _ _ _

/-- Settles O9: CMP is the operation of SUB without the writeback, and SUB asks for no carry. -/
theorem cmpCompletes : Obligations.CmpCompletes := by
  intro w o s hs hd hq
  obtain ⟨t, hnext, harch, hdev⟩ := exec_of_does (exec_cmp o s)
    (does_seq (does_compute hs (c := .forward .sub o.src) hd hq) fun _ ht hy => does_pure ht hy ())
  refine ⟨t, hnext, ⟨harch, ?flags⟩, hdev⟩
  case flags =>
    rw [← State.arch_regs, harch]
    exact flagBits_setAluFlags _ _ _ _ _

/-- Settles O26: an operand is read before anything is changed, and the writeback comes after the ALU has written FLAGS. -/
theorem operandFaults : Obligations.OperandFaults := by
  intro w o s bad hs
  refine ⟨fun a hdst hbad i hi => ?readDst, fun m hsrc hbad i hi => ?readSrc,
    fun a f hdst hq => ⟨fun hf => ⟨?movFirst, fun hr i out hi => ?aluFirst⟩, ?second⟩⟩
  case readDst =>
    rcases cmp_or_mem_aluTable hi with rfl | ⟨c, hc⟩
    · exact exec_of_fails (exec_cmp o s) (fails_bind (fails_compute_dst hs hdst hbad))
    · exact exec_of_fails (exec_of_mem_aluTable hc s) (fails_bind (fails_compute_dst hs hdst hbad))
  case readSrc =>
    have hd := Operands.placeReadable_of_src_mem hsrc s
    rcases mov_or_cmp_or_mem_binaryTable hi with rfl | rfl | ⟨op, hop⟩
    · exact exec_of_fails (exec_mov o s) (fails_move_src hs hsrc hbad)
    · exact exec_of_fails (exec_cmp o s) (fails_bind (fails_compute_src hs hd hsrc hbad))
    · exact exec_of_fails (exec_of_mem_binaryTable hop s) (fails_bind (fails_compute_src hs hd hsrc hbad))
  case movFirst =>
    refine exec_of_fails (exec_mov o s) (fails_move_dst hs hq fun _ ht hy => ?_)
    rw [hdst]
    exact fails_writePlace_first ht hy (State.executing_steady hs) rfl rfl hf _
  case aluFirst =>
    obtain ⟨c, hc, rfl⟩ := row_of_mem_outs hi
    obtain ⟨t, hnext, harch, hdev⟩ := exec_of_fails (exec_of_mem_aluTable hc s)
      (fails_modify_first hs hdst hr (sourceReadable_of_mem_aluTable hc hq) hf)
    exact ⟨t, hnext, hdev, harch⟩
  case second =>
    rintro rfl h0 hf
    refine ⟨?mov, fun hr i out hi => ?alu⟩
    case mov =>
      obtain ⟨t, hnext, harch, hdev⟩ := exec_of_fails (exec_mov o s) (fails_move_dst hs hq fun _ ht hy =>
        hdst ▸ fails_writePlace_second ht hy (State.executing_steady hs) rfl rfl h0 hf _)
      exact ⟨t, hnext, hdev, harch⟩
    case alu =>
      obtain ⟨c, hc, rfl⟩ := row_of_mem_outs hi
      obtain ⟨t, hnext, harch, hdev⟩ := exec_of_fails (exec_of_mem_aluTable hc s)
        (fails_modify_second hs hdst hr (sourceReadable_of_mem_aluTable hc hq) h0 hf)
      exact ⟨t, hnext, hdev, harch⟩

/-- Settles O30: the frame of a register destination. -/
theorem aluRegisterFrame : Obligations.AluRegisterFrame := by
  intro w o r s t hs hdst i hi h
  rw [← hdst] at hi
  obtain ⟨⟨⟨g, f, hg, hregs, hkept⟩, hmem, hprogram, hparams, hdraws, houtcome⟩, hdev⟩ :=
    exec_alu_frame hs (cmp_or_mem_aluTable hi) h
  rw [hdst] at hg hmem
  obtain ⟨v, rfl⟩ := hg
  refine ⟨⟨v, f, hregs, hkept⟩, fun b => hmem b trivial, hprogram, hparams, hdraws, houtcome, hdev, ?cmp⟩
  case cmp =>
    rintro rfl
    obtain ⟨⟨⟨_, f, rfl, hregs, -⟩, -⟩, -⟩ := exec_cmp_frame hs h
    exact ⟨f, hregs⟩

/-- Settles O31: the frame of a memory destination. -/
theorem aluMemoryFrame : Obligations.AluMemoryFrame := by
  intro w o m s t hs hdst i hi h
  rw [← hdst] at hi
  obtain ⟨⟨⟨g, f, hg, hregs, hkept⟩, hmem, hprogram, hparams, hdraws, houtcome⟩, hdev⟩ :=
    exec_alu_frame hs (cmp_or_mem_aluTable hi) h
  rw [hdst] at hg hmem
  obtain rfl : g = s.regs := hg
  refine ⟨⟨f, hregs, hkept⟩, hmem, hprogram, hparams, hdraws, houtcome, hdev, ?cmp⟩
  case cmp =>
    rintro rfl
    obtain ⟨hframe, -⟩ := exec_cmp_frame hs h
    exact fun b => hframe.mem b trivial

end Sys2Proof.Machine
end

section
/-! PROOF. The unary ALU instructions complete (42_alu_unary.md rules R200 to R204): each is a row of `unaryTable`, whose source is
a constant and whose operation takes no carry. -/

namespace Sys2Proof.Machine

section
variable {w : Width} {d : Loc w} {i : Instr} {c : Calc w}

/-- A unary instruction reads a constant beside its destination, so no read of a source can fault. -/
theorem sourceReadable_of_mem_unaryTable (h : (i, c) ∈ unaryTable d) (s : State) : s.sourceReadable c.src := by
  simp only [unaryTable, List.mem_cons, Prod.mk.injEq, List.not_mem_nil, or_false] at h
  rcases h with ⟨-, rfl⟩ | ⟨-, rfl⟩ | ⟨-, rfl⟩ | ⟨-, rfl⟩ <;> trivial

/-- What the ALU answers for each unary instruction, in the words of its rule: ADD, SUB and XOR answer the same for either
carry. -/
theorem unaryTable_outs (d : Loc w) (s : State) :
    (unaryTable d).map (fun e => (e.1, e.2.out d s)) =
      let a := s.placeValue (placeOf d s.regs)
      [(.inc w d, alu .add a 1 false), (.dec w d, alu .sub a 1 false), (.neg w d, alu .sub 0 a false),
        (.not w d, alu .xor a (BitVec.allOnes w.bits) false)] := rfl

end

/-- Settles O10: the instruction is a row of the unary table, and FLAGS keep what the ALU wrote through the writeback. -/
theorem unaryCompletes : Obligations.UnaryCompletes := by
  intro w d s hs hd hw a i out hi
  rw [← unaryTable_outs d s] at hi
  obtain ⟨⟨j, c⟩, hc, heq⟩ := List.mem_map.mp hi
  obtain ⟨rfl, rfl⟩ := Prod.mk.inj heq
  obtain ⟨t, hnext, harch, hdev⟩ :=
    exec_of_does (exec_of_mem_unaryTable hc s) (does_modify hs hd (sourceReadable_of_mem_unaryTable hc s) hw)
  refine ⟨t, hnext, harch, ?flags, hdev⟩
  case flags =>
    rw [← State.arch_regs, harch, Arch.put_flags]
    exact flagBits_setAluFlags _ _ _ _ _

end Sys2Proof.Machine
end

section
/-! PROOF. MOV: what it does when it completes, and all it can change on every path (43_data_move.md rules R215, R216,
60_exceptions.md rule R332). -/

namespace Sys2Proof.Machine

/-- From `x` to `y` at most one place was written, FLAGS kept, and a fault may have been raised. -/
structure Arch.PlaceFrame (x : Arch) {w : Width} (p : Place w) (y : Arch) : Prop where
  regs : p.reaches x.regs y.regs
  mem : ∀ b, p.off b → y.mem.read b = x.mem.read b
  program : y.program = x.program
  params : y.params = x.params
  draws : y.draws = x.draws
  outcome : x.goesOnOrFaults y

theorem Arch.placeFrame_put (x : Arch) {w : Width} (p : Place w) (v : BitVec w.bits) : x.PlaceFrame p (x.put p v) := by
  have hread : ∀ b, p.off b → (x.put p v).mem.read b = x.mem.read b := fun _ => x.put_off p v
  cases p with
  | reg r => exact ⟨⟨v, rfl⟩, hread, rfl, rfl, rfl, Arch.goesOn rfl rfl rfl⟩
  | mem a => exact ⟨rfl, hread, rfl, rfl, rfl, Arch.goesOn rfl rfl rfl⟩

theorem Arch.placeFrame_faultedOff {x y : Arch} {w : Width} {p : Place w} (h : x.faultedOff p.off y) :
    x.PlaceFrame p y := by
  have houtcome := Arch.goesOnOrFaults_of_faultedOff h
  obtain ⟨m, f, rfl, hm⟩ := h
  exact ⟨p.reaches_refl _, hm, rfl, rfl, rfl, houtcome⟩

section
variable {s : State} (hs : s.executing) {w : Width}
include hs

/-- A readable source written to a writable destination. -/
theorem does_move {o : Operands w} (hq : s.sourceReadable o.src) (hw : s.placeWritable (placeOf o.dst s.regs)) :
    Does (move o) s () (s.arch.put (placeOf o.dst s.regs) (s.sourceValue o.src)) id := by
  have hsteady := State.executing_steady hs
  obtain ⟨-, -, hu⟩ := hs
  refine does_seq (does_readSource hu rfl hsteady hq) fun _ ht hy => ?_
  refine does_seq (does_resolve ht hy hsteady o.dst) fun _ ht hy => ?_
  exact does_writePlace ht hy hsteady rfl rfl hw _

/-- MOV on every path: a fault of its source changes nothing, and the write keeps to the destination. -/
theorem runs_move (o : Operands w) :
    let R := s.arch.PlaceFrame (placeOf o.dst s.regs)
    Runs (move o) s (fun _ y => R y) R := by
  intro R
  have hsteady := State.executing_steady hs
  obtain ⟨-, -, hu⟩ := hs
  have hsource : ∀ y, s.arch.faulted y → R y := fun _ h => Arch.placeFrame_faultedOff (Arch.faulted_off h _)
  refine runs_seq (runs_mono (runs_readSource hu rfl hsteady o.src) (fun _ _ h => h) hsource) ?_
  rintro _ v _ ht hy ⟨-, rfl⟩
  refine runs_seq (runs_resolve ht hy hsteady o.dst R) ?_
  rintro _ _ _ ht hy ⟨rfl, rfl⟩
  refine runs_mono (runs_writePlace ht hy hsteady _ v) ?_ ?_
  · rintro _ _ rfl
    exact Arch.placeFrame_put _ _ v
  · rintro _ ⟨-, hfault⟩
    exact Arch.placeFrame_faultedOff hfault

/-- MOV keeps to the frame of its destination. -/
theorem exec_mov_frame {o : Operands w} {t : State} (h : exec (.mov w o) s = .next t) :
    s.arch.PlaceFrame (placeOf o.dst s.regs) t.arch ∧ devicesKept s t := by
  rw [exec_mov] at h
  obtain ⟨u, hnext, hframe, hdev, -⟩ := runs_perform (runs_move hs o)
  obtain rfl := Host.Outcome.next.inj (hnext.symm.trans h)
  exact ⟨hframe, hdev⟩

end

/-- Settles O11: the source is read, the destination found, and its write goes through. -/
theorem movCompletes : Obligations.MovCompletes := fun _ o s hs hq hw => exec_of_does (exec_mov o s) (does_move hs hq hw)

/-- Settles O32: MOV's frame, read off for a register and for a memory destination. -/
theorem movFrame : Obligations.MovFrame := by
  intro w o s t hs h
  obtain ⟨⟨hregs, hmem, hprogram, hparams, hdraws, houtcome⟩, hdev⟩ := exec_mov_frame hs h
  refine ⟨fun r hdst => ?reg, fun m hdst => ?mem, hprogram, hparams, hdraws, houtcome, hdev⟩
  case reg =>
    rw [hdst] at hregs hmem
    exact ⟨hregs, fun b => hmem b trivial⟩
  case mem =>
    rw [hdst] at hregs hmem
    exact ⟨hregs, hmem⟩

end Sys2Proof.Machine
end

section
/-! PROOF. The jump/call family completes: the conditional jumps, each a condition on FLAGS, and CALL (44_jump_call.md rules R225
to R235). -/

namespace Sys2Proof.Machine

/-! ## The jumps -/

/-- The jumps to `a`, each with its condition on FLAGS (44_jump_call.md rules R226 to R234). -/
def jumpTable (a : Word) : List (Instr × (Word → Bool)) :=
  [(.jmp a, fun _ => true), (.jz a, flagZF), (.jnz a, fun f => !flagZF f), (.js a, flagSF), (.jns a, fun f => !flagSF f),
    (.jc a, flagCF), (.jnc a, fun f => !flagCF f), (.jo a, flagOF), (.jno a, fun f => !flagOF f)]

theorem exec_of_mem_jumpTable {a : Word} {i : Instr} {cond : Word → Bool} (h : (i, cond) ∈ jumpTable a) (s : State) :
    exec i s = perform (jumpIf cond a) s := by
  simp only [jumpTable, List.mem_cons, Prod.mk.injEq, List.not_mem_nil, or_false] at h
  rcases h with ⟨rfl, rfl⟩ | ⟨rfl, rfl⟩ | ⟨rfl, rfl⟩ | ⟨rfl, rfl⟩ | ⟨rfl, rfl⟩ | ⟨rfl, rfl⟩ | ⟨rfl, rfl⟩ | ⟨rfl, rfl⟩ |
    ⟨rfl, rfl⟩ <;> rfl

/-- The conditions in the bit numbers of FLAGS: ZF is bit 6, SF bit 7, CF bit 0 and OF bit 11 (10_state.md rule R30). -/
theorem jumpTable_taken (a f : Word) :
    (jumpTable a).map (fun e => (e.1, e.2 f)) =
      [(.jmp a, true), (.jz a, f.getLsbD 6), (.jnz a, !f.getLsbD 6), (.js a, f.getLsbD 7), (.jns a, !f.getLsbD 7),
        (.jc a, f.getLsbD 0), (.jnc a, !f.getLsbD 0), (.jo a, f.getLsbD 11), (.jno a, !f.getLsbD 11)] := rfl

section
variable {s : State} (hs : s.executing)
include hs

/-- A jump writes IP where its condition holds, and nothing where it does not (44_jump_call.md rule R225). -/
theorem does_jumpIf (cond : Word → Bool) (a : Word) :
    Does (jumpIf cond a) s () (s.arch.putIp (if cond s.regs.flags then a else s.regs.ip)) id := by
  have hsteady := State.executing_steady hs
  obtain ⟨-, -, hu⟩ := hs
  refine does_seq (does_look hu rfl (fun x => cond x.regs.flags) fun _ => rfl) fun _ ht hy => ?_
  rw [State.arch_regs]
  split
  case isTrue => exact does_setIp ht hy hsteady a
  case isFalse => exact does_pure ht hy ()

/-- CALL with room on the stack: IP is read before the push, and replaced after it (44_jump_call.md rule R235). -/
theorem does_callTo (hpush : s.canPush) (a : Word) :
    Does (callTo a) s () ((s.arch.pushed s.regs.ip).putIp a) id := by
  have hsteady := State.executing_steady hs
  obtain ⟨-, -, hu⟩ := hs
  refine does_seq (does_look hu rfl (fun x => x.regs.ip) fun _ => rfl) fun _ ht hy => ?_
  refine does_seq (does_push' ht hy hsteady (State.canPush_arch hpush) _) fun _ ht hy => ?_
  exact does_setIp ht hy hsteady a

end

/-! ## The obligations -/

/-- Settles O12: the instruction is a row of the jump table, whose condition decides whether IP is written. -/
theorem jumpsComplete : Obligations.JumpsComplete := by
  intro a s hs i taken hi
  rw [← jumpTable_taken a s.regs.flags] at hi
  obtain ⟨⟨j, cond⟩, hrow, heq⟩ := List.mem_map.mp hi
  obtain ⟨rfl, rfl⟩ := Prod.mk.inj heq
  exact exec_of_does (exec_of_mem_jumpTable hrow s) (does_jumpIf hs cond a)

/-- Settles O13: the return address is pushed, then IP written. -/
theorem callCompletes : Obligations.CallCompletes := by
  intro a s hs hpush
  obtain ⟨t, hnext, harch, hdev⟩ := exec_of_does (i := .call a) rfl (does_callTo hs hpush a)
  exact ⟨t, hnext, hdev, harch⟩

end Sys2Proof.Machine
end

section
/-! PROOF. The stack family completes (45_stack.md rules R246 to R249), and the frame of every instruction whose only access to
memory is the stack: PUSH, PUSHF and CALL push once, POP, POPF, RET and IRET only pop (44_jump_call.md rule R235, 49_return.md
rules R305, R307). -/

namespace Sys2Proof.Machine

/-! ## One push or one pop that goes through -/

/-- The next state of an instruction whose micro-operations go on, the devices left to the host. -/
theorem exec_next_of_does {i : Instr} {m : Micro Unit} {s : State} {x : Arch} (hi : exec i s = perform m s)
    (h : Does m s () x id) : ∃ t, exec i s = .next t ∧ devicesKept s t ∧ t.arch = x := by
  obtain ⟨t, hnext, harch, hdev⟩ := exec_of_does hi h
  exact ⟨t, hnext, hdev, harch⟩

section
variable {s : State} (hs : s.executing)
include hs

/-- PUSH and PUSHF: what is pushed is read before SP changes (45_stack.md rules R246, R248). -/
theorem does_look_push (hpush : s.canPush) {f : State → Word} (g : Arch → Word) (hg : ∀ s, f s = g s.arch) :
    Does (do let v ← look f; push v) s () (s.arch.pushed (g s.arch)) id := by
  have hsteady := State.executing_steady hs
  obtain ⟨-, -, hu⟩ := hs
  exact does_seq (does_look hu rfl g hg) fun _ ht hy => does_push' ht hy hsteady (State.canPush_arch hpush) _

/-- What follows a pop starts with the popped word in hand and SP raised already (40_engine.md rule R151). -/
theorem does_pop_bind (hpop : s.canPop) {k : Word → Micro Unit} {x : Arch}
    (hk : ∀ t, t.undisturbed = true → t.arch = s.arch.popped → s.arch.popped.steady → Does (k s.top) t () x id) :
    Does (pop >>= k) s () x id := by
  have hsteady := State.executing_steady hs
  obtain ⟨-, -, hu⟩ := hs
  exact does_seq (does_pop hu rfl hsteady hpop) fun t ht hy => hk t ht hy hsteady

end

/-! ## Frames -/

/-- From `x` to `y` registers changed to some that `changed` allows, memory where `off` fails, and a fault may have been raised
(60_exceptions.md rule R332). -/
structure Arch.ChangesOnly (changed : Regs → Prop) (off : Nat → Prop) (x y : Arch) : Prop where
  regs : changed y.regs
  mem : ∀ b, off b → y.mem.read b = x.mem.read b
  program : y.program = x.program
  params : y.params = x.params
  draws : y.draws = x.draws
  outcome : x.goesOnOrFaults y

section
variable {x y z : Arch} {changed : Regs → Prop} {off : Nat → Prop}

theorem Arch.changesOnly_setRegs (x : Arch) (off : Nat → Prop) {g : Regs} (hg : changed g) :
    x.ChangesOnly changed off { x with regs := g } :=
  ⟨hg, fun _ _ => rfl, rfl, rfl, rfl, Arch.goesOn rfl rfl rfl⟩

/-- A fault with memory partly stored keeps the frame of what was done before it. -/
theorem Arch.ChangesOnly.faultedOff (h : x.ChangesOnly changed off y) (hz : y.faultedOff off z) :
    x.ChangesOnly changed off z := by
  obtain ⟨m, f, rfl, hm⟩ := hz
  obtain ⟨hregs, hmem, hprogram, hparams, hdraws, hrun, -⟩ := h
  exact ⟨hregs, fun b hb => (hm b hb).trans (hmem b hb), hprogram, hparams, hdraws, Arch.faults f hrun rfl rfl⟩

theorem Arch.ChangesOnly.faulted (h : x.ChangesOnly changed off y) (hz : y.faulted z) : x.ChangesOnly changed off z :=
  h.faultedOff (Arch.faulted_off hz off)

/-- A word pushed, whatever else is written to the registers. -/
theorem Arch.changesOnly_pushed (x : Arch) (v : Word) {g : Regs} (hg : changed g) :
    x.ChangesOnly changed (fun b => ¬ within .w16 (x.regs.sp - 2).toNat b) { x.pushed v with regs := g } :=
  ⟨hg, fun _ hb => x.mem.read_store_other hb v, rfl, rfl, rfl, Arch.goesOn rfl rfl rfl⟩

end

section
variable {s : State} {x y : Arch} (hu : s.undisturbed = true) (hx : s.arch = x) (hs : x.steady)
include hu hx hs

/-- A push on every path, where `changed` allows SP to change (40_engine.md rule R150). -/
theorem runs_push_frame (v : Word) {changed : Regs → Prop} (hsp : ∀ sp, changed { x.regs with sp := sp }) :
    Runs (push v) s (fun _ y => y = x.pushed v)
      (x.ChangesOnly changed fun b => ¬ within .w16 (x.regs.sp - 2).toNat b) := by
  refine runs_mono (runs_push hu hx hs v) (fun _ _ h => h) ?_
  rintro _ (hfault | hfault)
  · exact (x.changesOnly_setRegs _ (hsp x.regs.sp)).faulted hfault
  · exact (x.changesOnly_setRegs _ (hsp (x.regs.sp - 2))).faultedOff hfault

/-- PUSH and PUSHF on every path. -/
theorem runs_look_push {f : State → Word} (g : Arch → Word) (hg : ∀ s, f s = g s.arch) {changed : Regs → Prop}
    (hsp : ∀ sp, changed { x.regs with sp := sp }) :
    let R := x.ChangesOnly changed fun b => ¬ within .w16 (x.regs.sp - 2).toNat b
    Runs (do let v ← look f; push v) s (fun _ y => R y) R := by
  intro R
  refine runs_seq (runs_does (does_look hu hx g hg) (Q := fun _ y => y = x) rfl) ?_
  rintro _ v _ ht hy rfl
  refine runs_mono (runs_push_frame ht hy hs v hsp) ?_ fun _ h => h
  rintro _ _ rfl
  exact Arch.changesOnly_pushed _ v (hsp _)

/-- CALL on every path, where `changed` allows SP and IP to change (44_jump_call.md rule R235). -/
theorem runs_callTo (a : Word) {changed : Regs → Prop} (hsp : ∀ sp ip, changed { x.regs with sp := sp, ip := ip }) :
    let R := x.ChangesOnly changed fun b => ¬ within .w16 (x.regs.sp - 2).toNat b
    Runs (callTo a) s (fun _ y => R y) R := by
  intro R
  refine runs_seq (runs_does (does_look hu hx (fun x => x.regs.ip) fun _ => rfl) (Q := fun _ y => y = x) rfl) ?_
  rintro _ v _ ht hy rfl
  refine runs_seq (runs_push_frame ht hy hs v fun sp => hsp sp _) ?_
  rintro _ _ _ ht hy rfl
  exact runs_does (does_setIp ht hy hs a) (Arch.changesOnly_pushed _ v (hsp _ a))

/-- A pop on every path, before what follows it: nothing changed by its fault (40_engine.md rule R151). -/
theorem runs_pop_bind {k : Word → Micro Unit} {R : Arch → Prop} (hfault : ∀ y, x.faulted y → R y)
    (hk : ∀ t v, t.undisturbed = true → t.arch = x.popped → Runs (k v) t (fun _ y => R y) R) :
    Runs (pop >>= k) s (fun _ y => R y) R := by
  refine runs_seq (runs_mono (runs_pop hu hx hs) (fun _ _ h => h) hfault) ?_
  rintro t v _ ht hy ⟨-, rfl⟩
  exact hk t v ht hy

end

/-! ## The registers each instruction reaches -/

/-- The registers PUSH, PUSHF or CALL may leave: SP changed, and IP by CALL alone. -/
def pushReaches (i : Instr) (g g' : Regs) : Prop :=
  ∃ sp ip, g' = { g with sp := sp, ip := ip } ∧ ((∀ a, i ≠ .call a) → ip = g.ip)

/-- The registers POP, POPF, RET or IRET may leave: SP changed, and what the instruction pops into. -/
def popReaches (i : Instr) (g g' : Regs) : Prop :=
  ∃ sp ip f, (∀ r, i = .pop r → ∃ v, g' = ({ g with sp := sp } : Regs).set r v) ∧
    ((∀ r, i ≠ .pop r) → g' = { g with sp := sp, ip := ip, flags := f }) ∧
    (i = .popf → ip = g.ip) ∧ (i = .ret → f = g.flags)

theorem pushReaches_sp (i : Instr) (g : Regs) (sp : Word) : pushReaches i g { g with sp := sp } :=
  ⟨sp, g.ip, rfl, fun _ => rfl⟩

theorem pushReaches_call (a : Word) (g : Regs) (sp ip : Word) : pushReaches (.call a) g { g with sp := sp, ip := ip } :=
  ⟨sp, ip, rfl, fun h => absurd rfl (h a)⟩

theorem popReaches_pop (r : Reg .w16) (g : Regs) (sp v : Word) :
    popReaches (.pop r) g (({ g with sp := sp } : Regs).set r v) := by
  refine ⟨sp, g.ip, g.flags, ?pop, fun h => absurd rfl (h r), nofun, nofun⟩
  case pop =>
    rintro _ ⟨⟩
    exact ⟨v, rfl⟩

theorem popReaches_popf (g : Regs) (sp f : Word) : popReaches .popf g { g with sp := sp, flags := f } :=
  ⟨sp, g.ip, f, nofun, fun _ => rfl, fun _ => rfl, nofun⟩

theorem popReaches_ret (g : Regs) (sp ip : Word) : popReaches .ret g { g with sp := sp, ip := ip } :=
  ⟨sp, ip, g.flags, nofun, fun _ => rfl, nofun, fun _ => rfl⟩

theorem popReaches_iret (g : Regs) (sp ip f : Word) : popReaches .iret g { g with sp := sp, ip := ip, flags := f } :=
  ⟨sp, ip, f, nofun, fun _ => rfl, nofun, nofun⟩

/-- A pop that faults leaves the registers as they were, which every popping instruction may. -/
theorem popReaches_refl (i : Instr) (g : Regs) : popReaches i g g :=
  ⟨g.sp, g.ip, g.flags, fun r _ => ⟨g.get r, (g.set_get r).symm⟩, fun _ => rfl, fun _ => rfl, fun _ => rfl⟩

/-! ## The instructions on every path -/

/-- The next state of an instruction meets what its micro-operations meet on every path. -/
theorem exec_next_of_runs {i : Instr} {m : Micro Unit} {s t : State} {R : Arch → Prop} (hi : exec i s = perform m s)
    (hrun : Runs m s (fun _ y => R y) R) (h : exec i s = .next t) : R t.arch ∧ devicesKept s t := by
  obtain ⟨u, hnext, hr, hdev, -⟩ := runs_perform hrun
  obtain rfl := Host.Outcome.next.inj (hnext.symm.trans (hi.symm.trans h))
  exact ⟨hr, hdev⟩

section
variable {s t : State} (hs : s.executing) {i : Instr}
include hs

/-- An instruction that pushes once keeps to its registers and the slot below SP. -/
theorem exec_push_frame (hi : (∃ r, i = .push r) ∨ i = .pushf ∨ ∃ a, i = .call a) (h : exec i s = .next t) :
    s.arch.ChangesOnly (pushReaches i s.regs) (fun b => ¬ within .w16 (s.regs.sp - 2).toNat b) t.arch ∧ devicesKept s t := by
  have hsteady := State.executing_steady hs
  obtain ⟨-, -, hu⟩ := hs
  rcases hi with ⟨r, rfl⟩ | rfl | ⟨a, rfl⟩
  · exact exec_next_of_runs rfl (runs_look_push hu rfl hsteady (fun x => x.regs.get r) (fun _ => rfl) (pushReaches_sp _ _)) h
  · exact exec_next_of_runs rfl (runs_look_push hu rfl hsteady (fun x => x.regs.flags) (fun _ => rfl) (pushReaches_sp _ _)) h
  · exact exec_next_of_runs rfl (runs_callTo hu rfl hsteady a (pushReaches_call a _)) h

/-- An instruction that only pops keeps to its registers, and changes no memory. -/
theorem exec_pop_frame (hi : (∃ r, i = .pop r) ∨ i = .popf ∨ i = .ret ∨ i = .iret) (h : exec i s = .next t) :
    s.arch.ChangesOnly (popReaches i s.regs) (fun _ => True) t.arch ∧ devicesKept s t := by
  have hsteady := State.executing_steady hs
  obtain ⟨-, -, hu⟩ := hs
  have hfault : ∀ y, s.arch.faulted y → s.arch.ChangesOnly (popReaches i s.regs) (fun _ => True) y :=
    fun _ => (s.arch.changesOnly_setRegs _ (popReaches_refl i _)).faulted
  have reach {g : Regs} (hg : popReaches i s.regs g) := s.arch.changesOnly_setRegs (fun _ => True) hg
  rcases hi with ⟨r, rfl⟩ | rfl | rfl | rfl
  · exact exec_next_of_runs rfl (runs_pop_bind hu rfl hsteady hfault fun _ v ht hy =>
      runs_does (does_setReg ht hy hsteady r v) (reach (popReaches_pop r _ _ v))) h
  · exact exec_next_of_runs rfl (runs_pop_bind hu rfl hsteady hfault fun _ v ht hy =>
      runs_does (does_setFlags ht hy hsteady v) (reach (popReaches_popf _ _ v))) h
  · exact exec_next_of_runs rfl (runs_pop_bind hu rfl hsteady hfault fun _ v ht hy =>
      runs_does (does_setIp ht hy hsteady v) (reach (popReaches_ret _ _ v))) h
  · refine exec_next_of_runs (m := endInterrupt) rfl (runs_pop_bind hu rfl hsteady hfault fun _ ip ht hy => ?_) h
    refine runs_seq (runs_does (does_setIp ht hy hsteady ip) (Q := fun _ y => y = s.arch.popped.putIp ip) rfl) ?_
    rintro _ _ _ ht hy rfl
    refine runs_pop_bind ht hy hsteady ?secondFault fun _ f ht hy => ?flags
    case secondFault => exact fun _ => (reach (popReaches_iret s.regs _ ip s.regs.flags)).faulted
    case flags => exact runs_does (does_setFlags ht hy hsteady f) (reach (popReaches_iret _ _ ip f))

end

/-! ## The obligations -/

/-- Settles O14: the value is looked up, then pushed. -/
theorem pushesComplete : Obligations.PushesComplete := by
  intro s hs hpush i v hi
  rcases hi with ⟨r, rfl, rfl⟩ | ⟨rfl, rfl⟩
  case inl => exact exec_next_of_does rfl (does_look_push hs hpush (fun x => x.regs.get r) fun _ => rfl)
  case inr => exact exec_next_of_does rfl (does_look_push hs hpush (fun x => x.regs.flags) fun _ => rfl)

/-- Settles O15: the pop raises SP, and then the register or FLAGS is written. -/
theorem popsComplete : Obligations.PopsComplete := by
  intro s hs hpop
  refine ⟨fun r => ?pop, ?popf⟩
  case pop =>
    exact exec_next_of_does rfl (does_pop_bind hs hpop fun _ ht hy hsteady => does_setReg ht hy hsteady r s.top)
  case popf =>
    exact exec_next_of_does rfl (does_pop_bind hs hpop fun _ ht hy hsteady => does_setFlags ht hy hsteady s.top)

/-- Settles O33: the frames of the instructions that push once and of those that only pop. -/
theorem stackFrame : Obligations.StackFrame := by
  intro s t hs
  refine ⟨fun i hi h => ?pushes, fun i hi h => ?pops⟩
  case pushes =>
    obtain ⟨⟨hregs, hmem, hprogram, hparams, hdraws, houtcome⟩, hdev⟩ := exec_push_frame hs hi h
    exact ⟨hregs, hmem, hprogram, hparams, hdraws, houtcome, hdev⟩
  case pops =>
    obtain ⟨⟨hregs, hmem, hprogram, hparams, hdraws, houtcome⟩, hdev⟩ := exec_pop_frame hs hi h
    exact ⟨hregs, fun b => hmem b trivial, hprogram, hparams, hdraws, houtcome, hdev⟩

end Sys2Proof.Machine
end

section
/-! PROOF. IN completes, and the frames of IN and OUT on every path: IN draws the free values of the registers it reads and
writes AL or AX, OUT changes the devices alone (20_memory.md rule R82, 46_io.md rules R260 to R262). -/

namespace Sys2Proof.Machine

/-! ## Reads at claimed addresses -/

/-- What goes on from the state that the first step has reached. It need not go on alike from every state of the same
architectural part: a byte read from a device depends on how far the host has moved it. -/
theorem does_bind_at {α β : Type} {m : Micro α} {k : α → Micro β} {s t : State} {a : α} {b : β} {y : Arch}
    (hm : m s = .ok a t) (hhost : hostOnly s t) (hdev : devicesKept s t) (hk : Does (k a) t b y id) :
    Does (m >>= k) s b y id := by
  obtain ⟨u, hrun, harch, hhost', hdev'⟩ := hk
  obtain ⟨hset, hquiet⟩ := devicesKept_trans hdev hhost.2 hdev'
  refine ⟨u, ?_, harch, hostOnly_trans hhost hhost', hset, hquiet⟩
  rw [bind_apply, hm]
  exact hrun

section
variable {s : State} {x : Arch} (hu : s.undisturbed = true) (hx : s.arch = x) (hs : x.steady)
include hu hx hs

/-- A word read at two claimed addresses: the first register's byte below the second's (20_memory.md rule R82). -/
theorem does_ioRead_word {a : Word} {r q : IoReg} (ha : a.toNat ≤ x.params.ioMax)
    (hr : chipSelect x.params a.toNat = some r) (hb : (a + 1).toNat ≤ x.params.ioMax)
    (hq : chipSelect x.params (a + 1).toNat = some q) :
    ∃ lo hi, Does (ioRead .w16 a) s (joinBytes hi lo) { x with draws := x.draws + drawsOf r + drawsOf q } id ∧
      (s.host = [] → lo = s.dev.read x.draws r ∧ hi = s.dev.read (x.draws + drawsOf r) q) := by
  obtain ⟨lo, ⟨t, hlow, harch, hhost, hdev⟩, hlo⟩ := does_ioReadByte hu hx hs ha hr
  obtain ⟨hi, hhigh, hhi⟩ := does_ioReadByte hhost.1 harch hs hb hq
  refine ⟨lo, hi, ?_, fun e => ⟨hlo e, by rw [hhi (hhost.2 e), hdev.2 e]; rfl⟩⟩
  exact does_bind_at hlow hhost hdev (does_seq hhigh fun _ ht hy => does_pure ht hy _)

/-! ## Transfers on every path -/

/-- A byte read: at most free values drawn, also where it faults (60_exceptions.md rule R343). -/
theorem runs_ioReadByte (a : Nat) :
    Runs (ioReadByte a) s (fun _ y => ∃ n, y = { x with draws := n })
      (fun y => ∃ n, ({ x with draws := n } : Arch).faulted y) := by
  cases hf : ioFault x.params a with
  | some f => exact runs_fails (fails_ioReadByte hu hx hs hf) ⟨x.draws, f, rfl⟩
  | none =>
    obtain ⟨ha, r, hr⟩ := ioFault_none hf
    obtain ⟨v, hread, -⟩ := does_ioReadByte hu hx hs ha hr
    exact runs_does hread ⟨_, rfl⟩

/-- A read of either width: at most free values drawn. -/
theorem runs_ioRead (w : Width) (a : Word) :
    Runs (ioRead w a) s (fun _ y => ∃ n, y = { x with draws := n })
      (fun y => ∃ n, ({ x with draws := n } : Arch).faulted y) := by
  cases w with
  | w8 => exact runs_ioReadByte hu hx hs _
  | w16 =>
    refine runs_seq (runs_ioReadByte hu hx hs _) ?_
    rintro _ lo _ ht hy ⟨n, rfl⟩
    refine runs_seq (runs_ioReadByte ht hy hs _) ?_
    rintro _ hi _ ht hy ⟨n, rfl⟩
    exact runs_does (does_pure ht hy _) ⟨n, rfl⟩

/-- A write of either width reaches the devices alone, and may fault. -/
theorem ioWrite_does_or_faults {w : Width} (a : Word) (v : BitVec w.bits) :
    ∃ g, Does (ioWrite w a v) s () x g ∨ ∃ f, Fails (ioWrite w a v) s (x.faulting f) g := by
  cases hfirst : ioFault x.params a.toNat with
  | some f => exact ⟨id, .inr ⟨f, fails_ioWrite_first hu hx hs hfirst v⟩⟩
  | none =>
    obtain ⟨ha, r, hr⟩ := ioFault_none hfirst
    cases w with
    | w8 => exact ⟨_, .inl (does_ioWriteByte hu hx hs ha hr v)⟩
    | w16 =>
      cases hsecond : ioFault x.params (a + 1).toNat with
      | some f => exact ⟨_, .inr ⟨f, fails_ioWrite_second hu hx hs ha hr hsecond v⟩⟩
      | none =>
        obtain ⟨hb, q, hq⟩ := ioFault_none hsecond
        exact ⟨_, .inl (does_ioWrite_word hu hx hs ha hr hb hq v)⟩

end

/-! ## The instructions -/

/-- IN is its transfer, from the port's address, and the write of AL or AX (46_io.md rule R261). -/
theorem exec_inp (w : Width) (p : Port) (s : State) :
    exec (.inp w p) s = perform (do let v ← ioRead w (portAddress p s.regs); setReg (dataReg w) v) s := rfl

/-- OUT is its transfer, to the port's address (46_io.md rule R262). -/
theorem exec_outp (w : Width) (p : Port) (s : State) :
    exec (.outp w p) s = perform (ioWrite w (portAddress p s.regs) (s.regs.get (dataReg w))) s := rfl

/-- IN whose transfer goes on writes what was read to AL or AX. -/
theorem exec_inp_of_does {w : Width} {p : Port} {s : State} {v : BitVec w.bits} {x : Arch}
    (h : Does (ioRead w (portAddress p s.regs)) s v x id) (hx : x.steady) :
    ∃ t, exec (.inp w p) s = .next t ∧ devicesKept s t ∧ t.arch = { x with regs := x.regs.set (dataReg w) v } :=
  exec_next_of_does (exec_inp w p s) (does_seq h fun _ ht hy => does_setReg ht hy hx (dataReg w) v)

/-- From `x` to `y` free values were drawn and AL or AX written at most, and a fault may have been raised. -/
def Arch.InFrame (w : Width) (x y : Arch) : Prop :=
  ∃ n, ({ x with draws := n } : Arch).ChangesOnly (fun g => ∃ v, g = x.regs.set (dataReg w) v) (fun _ => True) y

theorem Arch.inFrame_set (x : Arch) (n : Nat) {w : Width} (v : BitVec w.bits) :
    x.InFrame w { x with draws := n, regs := x.regs.set (dataReg w) v } :=
  ⟨n, Arch.changesOnly_setRegs _ _ ⟨v, rfl⟩⟩

/-- A fault of the transfer leaves AL or AX as it was. -/
theorem Arch.inFrame_faulted {x y : Arch} {n : Nat} (h : ({ x with draws := n } : Arch).faulted y) (w : Width) :
    x.InFrame w y :=
  ⟨n, (Arch.changesOnly_setRegs _ _ ⟨x.regs.get (dataReg w), (x.regs.set_get (dataReg w)).symm⟩).faulted h⟩

section
variable {s t : State} (hs : s.executing) {w : Width} {p : Port}
include hs

/-- IN keeps to its frame, whether its transfer goes on or faults. -/
theorem exec_inp_frame (h : exec (.inp w p) s = .next t) : s.arch.InFrame w t.arch ∧ devicesKept s t := by
  have hsteady := State.executing_steady hs
  obtain ⟨-, -, hu⟩ := hs
  have hfault : ∀ y, (∃ n, ({ s.arch with draws := n } : Arch).faulted y) → s.arch.InFrame w y :=
    fun _ ⟨_, h⟩ => Arch.inFrame_faulted h w
  refine exec_next_of_runs (exec_inp w p s)
    (runs_seq (runs_mono (runs_ioRead hu rfl hsteady w _) (fun _ _ h => h) hfault) ?_) h
  rintro _ v _ ht hy ⟨n, rfl⟩
  exact runs_does (does_setReg ht hy hsteady (dataReg w) v) (s.arch.inFrame_set n v)

/-- OUT on every path: no register and no memory changed, nothing but a fault. -/
theorem exec_outp_frame (h : exec (.outp w p) s = .next t) :
    s.arch.ChangesOnly (fun g => g = s.regs) (fun _ => True) t.arch := by
  have hsteady := State.executing_steady hs
  obtain ⟨-, -, hu⟩ := hs
  have same : s.arch.ChangesOnly (fun g => g = s.regs) (fun _ => True) s.arch := s.arch.changesOnly_setRegs _ rfl
  rw [exec_outp] at h
  obtain ⟨g, hgoes | ⟨f, hfails⟩⟩ :=
    ioWrite_does_or_faults hu rfl hsteady (portAddress p s.regs) (s.regs.get (dataReg w))
  · obtain ⟨u, hnext, harch, -⟩ := does_perform hgoes
    obtain rfl := Host.Outcome.next.inj (hnext.symm.trans h)
    exact harch ▸ same
  · obtain ⟨u, hnext, harch, -⟩ := fails_perform hfails
    obtain rfl := Host.Outcome.next.inj (hnext.symm.trans h)
    exact same.faulted ⟨f, harch⟩

end

/-! ## The obligations -/

/-- Settles O16: the transfer of IN is one register read for AL and two for AX, and then AL or AX is written. -/
theorem inCompletes : Obligations.InCompletes := by
  intro p s r q hexec a b ha hr
  have hs := State.executing_steady hexec
  obtain ⟨-, -, hu⟩ := hexec
  refine ⟨?byte, fun hb hq => ?word⟩
  case byte =>
    obtain ⟨v, hread, hv⟩ := does_ioReadByte hu rfl hs ha hr
    obtain ⟨t, hnext, hdev, harch⟩ := exec_inp_of_does (w := .w8) hread hs
    exact ⟨t, v, hnext, hdev, harch, hv⟩
  case word =>
    obtain ⟨lo, hi, hread, hv⟩ := does_ioRead_word hu rfl hs ha hr hb hq
    obtain ⟨t, hnext, hdev, harch⟩ := exec_inp_of_does hread hs
    exact ⟨t, lo, hi, hnext, hdev, harch, hv⟩

/-- Settles O35: the frames of IN and OUT, memory kept at every address. -/
theorem ioFrame : Obligations.IoFrame := by
  intro w p s t hs
  refine ⟨fun h => ?inp, fun h => ?outp⟩
  case inp =>
    obtain ⟨⟨n, hregs, hmem, hprogram, hparams, -, houtcome⟩, hdev⟩ := exec_inp_frame hs h
    exact ⟨hregs, fun b => hmem b trivial, hprogram, hparams, houtcome, hdev⟩
  case outp =>
    obtain ⟨hregs, hmem, hprogram, hparams, hdraws, houtcome⟩ := exec_outp_frame hs h
    exact ⟨hregs, fun b => hmem b trivial, hprogram, hparams, hdraws, houtcome⟩

end Sys2Proof.Machine
end

section
/-! PROOF. At most one line in service, and each port's input bits equal to its lines, as invariants of every step
(60_exceptions.md rules R346, R366, R367). -/

namespace Sys2Proof.Machine

/-! ## Invariants of the devices -/

/-- Everything that moves the devices keeps `Q`: a write of a register, an acknowledge, the host's actions, a reset. -/
structure DeviceInvariant (Q : Devices → Prop) : Prop where
  write : ∀ c d r v, Q d → Q (d.write c r v).1
  serve : ∀ d n pic, Q d → d.pic.acknowledge? = some (n, pic) → Q { d with pic := pic }
  tick : ∀ d, Q d → Q (tickTimer d).1
  request : ∀ k d, Q d → Q (requestLine k d).1
  switches : ∀ c v d, Q d → Q (moveSwitches c v d).1
  busy : ∀ c b d, Q d → Q (driveBusy c b d).1
  reset : ∀ p policy d, Q d → Q (resetDevices p policy d)

theorem supplyChar_dev (c : Byte) (s : State) : (supplyChar c s).dev = s.dev := by
  unfold supplyChar; split <;> rfl

theorem resumeBreakpoint_dev (s : State) : (resumeBreakpoint s).dev = s.dev := by
  unfold resumeBreakpoint; split <;> rfl

theorem cancelCycle_dev (s : State) : (cancelCycle s).dev = s.dev := by
  unfold cancelCycle; split <;> rfl

section
variable {Q : Devices → Prop} (hQ : DeviceInvariant Q)
include hQ

theorem DeviceInvariant.action (a : HostAction) (s : State) (h : Q s.dev) : Q (applyAction a s).dev := by
  cases a with
  | tick => exact hQ.tick _ h
  | request k => exact hQ.request _ _ h
  | setSwitches v => exact hQ.switches _ _ _ h
  | setBusy b => exact hQ.busy _ _ _ h
  | supply c => exact (supplyChar_dev c s).symm ▸ h
  | resume => exact (resumeBreakpoint_dev s).symm ▸ h
  | cancel => exact (cancelCycle_dev s).symm ▸ h
  | reset p policy => exact hQ.reset _ _ _ h

/-- What the devices keep every step keeps. -/
theorem DeviceInvariant.cycleInvariant : CycleInvariant fun s => Q s.dev where
  regs _ _ h := h
  latches _ _ h := h
  run _ _ _ h := h
  record _ _ h := h
  cycle _ _ _ h := h
  draws _ _ h := h
  log _ _ h := h
  turn _ h := hostTurn_preserves (P := fun s => Q s.dev) (fun _ _ h => h) hQ.action h
  write _ _ _ h _ _ := h
  device _ r v h := hQ.write _ _ r v h
  serve _ n pic h hack := hQ.serve _ n pic h hack
  close _ h := h
  halt _ _ h := h

end

/-! ## The lines in service -/

/-- A line is eligible if it is pending and unmasked (60_exceptions.md rule R344). -/
theorem Pic.eligible_getLsbD (p : Pic) (j : Fin 8) :
    p.eligible.getLsbD j = true ↔ p.irr.getLsbD j = true ∧ p.imr.getLsbD j = false := by
  simp [Pic.eligible]

/-- The interrupt pin is up exactly if no line is in service and some pending line is unmasked (60_exceptions.md rule R344). -/
theorem Pic.intr_eq_true_iff (p : Pic) :
    p.intr = true ↔ p.isr = 0 ∧ ∃ j : Fin 8, p.irr.getLsbD j = true ∧ p.imr.getLsbD j = false := by
  have heligible : p.eligible ≠ 0 ↔ ∃ j : Fin 8, p.eligible.getLsbD j = true := by
    constructor
    · intro hne
      by_contra! hnone
      exact hne (BitVec.eq_of_getLsbD_eq fun j hj => by simpa using hnone ⟨j, hj⟩)
    · rintro ⟨j, hj⟩ hzero
      simp [hzero] at hj
  simp only [← Pic.eligible_getLsbD, ← heligible, Pic.intr, Bool.and_eq_true, decide_eq_true_eq]

/-- Only with nothing in service is a line acknowledged, and it is put in service alone (60_exceptions.md rule R345). -/
theorem Pic.acknowledge?_eq_some {p q : Pic} {n : Byte} (h : p.acknowledge? = some (n, q)) :
    p.isr = 0 ∧ ∃ k, p.select = some k ∧ n = p.vec[k] ∧ q = p.serve k := by
  unfold Pic.acknowledge? at h
  split_ifs at h with hintr
  obtain ⟨k, hk, e⟩ := Option.map_eq_some_iff.mp h
  obtain ⟨rfl, rfl⟩ := Prod.mk.inj e
  exact ⟨((p.intr_eq_true_iff).mp hintr).1, k, hk, rfl, rfl⟩

theorem Pic.serve_isr {p : Pic} (h : p.isr = 0) (k : Fin 8) : (p.serve k).isr = BitVec.twoPow 8 k := by
  simp [Pic.serve, h]

theorem oneInService_of_settings {d e : Devices} (h : e.settings = d.settings) (hd : d.pic.oneInService) :
    e.pic.oneInService := by
  have hisr : e.pic.isr = d.pic.isr := congrArg Settings.isr h
  simpa only [Pic.oneInService, hisr] using hd

/-- An acknowledge puts one line in service where there was none, an EOI write and a reset leave none, and nothing else moves ISR. -/
theorem oneInService_invariant : DeviceInvariant fun d => d.pic.oneInService where
  write c d r v h := by
    cases r with
    | eoi => exact .inl rfl
    | _ => exact h
  serve d n pic h hack := by
    obtain ⟨hisr, k, -, -, rfl⟩ := Pic.acknowledge?_eq_some hack
    exact .inr ⟨k, Pic.serve_isr hisr k⟩
  tick d := oneInService_of_settings (tickTimer_settings d)
  request k d := oneInService_of_settings (requestLine_settings k d)
  switches c v d := oneInService_of_settings (moveSwitches_settings c v d)
  busy c b d := oneInService_of_settings (driveBusy_settings c b d)
  reset _ _ _ _ := .inl rfl

/-! ## The ports -/

/-- A port recomputed from its lines, bit by bit (60_exceptions.md rule R366). -/
theorem updatedPort_getLsbD (lines held control : Byte) (k : Nat) :
    (lines &&& control ||| held &&& ~~~control).getLsbD k =
      if control.getLsbD k then lines.getLsbD k else held.getLsbD k := by
  by_cases hk : k < 8
  · simp only [BitVec.getLsbD_or, BitVec.getLsbD_and, BitVec.getLsbD_not]
    cases control.getLsbD k <;> simp [hk]
  · simp [BitVec.getLsbD_of_ge _ k (Nat.le_of_not_lt hk)]

/-- A port recomputed from its lines shows them on its input bits (60_exceptions.md rule R366). -/
theorem updatedPort_inputs (lines held control : Byte) :
    (lines &&& control ||| held &&& ~~~control) &&& control = lines &&& control := by
  refine BitVec.eq_of_getLsbD_eq fun k _ => ?_
  rw [BitVec.getLsbD_and, BitVec.getLsbD_and, updatedPort_getLsbD]
  cases control.getLsbD k <;> simp

/-- Recomputing port A makes it follow its lines, whatever it showed; port B is left alone. -/
theorem Pio.updateA_follows {p : Pio} (hB : p.pb &&& p.cb = p.extB &&& p.cb) : p.updateA.followsLines :=
  ⟨updatedPort_inputs _ _ _, hB⟩

theorem Pio.updateB_follows {p : Pio} (hA : p.pa &&& p.ca = p.extA &&& p.ca) : p.updateB.followsLines :=
  ⟨hA, updatedPort_inputs _ _ _⟩

@[simp] theorem tickTimer_pio (d : Devices) : (tickTimer d).1.pio = d.pio := by
  unfold tickTimer
  dsimp only
  split <;> rfl

/-- The switches and the busy line drive lines of port A alone, which is recomputed after them. -/
theorem refreshA_follows {c : Configuration} {d : Devices} {v : Byte} (h : d.pio.followsLines) :
    (refreshA c d { d.pio with extA := v }).1.pio.followsLines := Pio.updateA_follows h.2

/-- Every change of a port's register, direction or lines recomputes that port, and leaves the other. -/
theorem followsLines_invariant : DeviceInvariant fun d => d.pio.followsLines where
  write c d r v h := by
    obtain ⟨hA, hB⟩ := h
    cases r with
    | pa | ca => exact Pio.updateA_follows hB
    | pb | cb => exact Pio.updateB_follows hA
    | _ => exact ⟨hA, hB⟩
  serve _ _ _ h _ := h
  tick d h := (tickTimer_pio d).symm ▸ h
  request _ _ h := h
  switches c v d h := by
    unfold moveSwitches
    split
    · exact refreshA_follows h
    · exact h
  busy c b d h := by
    cases c with
    | pioPrinter => exact refreshA_follows h
    | handshakePrinter =>
      unfold driveBusy
      dsimp only
      split <;> exact h
    | picTimer | pioSwitchesLeds => exact h
  reset _ _ _ _ := Pio.updateB_follows (updatedPort_inputs _ _ _)

/-! ## The obligations -/

/-- Settles O56: ISR is moved by an acknowledge, an EOI write and a reset alone. -/
theorem stepKeepsOneInService : Obligations.StepKeepsOneInService := fun _ _ h hstep =>
  step_keeps oneInService_invariant.cycleInvariant h hstep

/-- Settles O57: whatever moves a port or its lines recomputes the port. -/
theorem stepKeepsPortsFollowing : Obligations.StepKeepsPortsFollowing := fun _ _ h hstep =>
  step_keeps followsLines_invariant.cycleInvariant h hstep

end Sys2Proof.Machine
end

section
/-! PROOF. The peripheral modules: the acknowledge, a request and the end of an interrupt, the timer, the ports and the handshake
(60_exceptions.md rules R341 to R348, R360 to R378). -/

namespace Sys2Proof.Machine

/-! ## The interrupt controller -/

/-- The selected line is the lowest eligible one (60_exceptions.md rule R345). -/
theorem Pic.select_eq_some_iff (p : Pic) (k : Fin 8) :
    p.select = some k ↔ p.eligible.getLsbD k = true ∧ ∀ j : Fin 8, j < k → p.eligible.getLsbD j = false := by
  unfold Pic.select
  rw [List.find?_eq_some_iff_getElem]
  refine and_congr_right fun _ => ⟨?lower, fun h => ⟨k, by simp, by simp, fun j hj => ?first⟩⟩
  case lower =>
    rintro ⟨i, hi, rfl, h⟩ j hj
    simpa using h j (by simpa [Fin.lt_def] using hj)
  case first => simpa using h ⟨j, hj.trans k.isLt⟩ hj

/-- An eligible line is selected if there is one. -/
theorem Pic.exists_select {p : Pic} (h : p.intr = true) : ∃ k, p.select = some k := by
  obtain ⟨-, j, hj⟩ := p.intr_eq_true_iff.mp h
  rw [← Pic.eligible_getLsbD] at hj
  exact Option.isSome_iff_exists.mp (List.find?_isSome.mpr ⟨j, List.mem_finRange j, hj⟩)

theorem twoPow_getLsbD (k j : Fin 8) : (BitVec.twoPow 8 k).getLsbD j = decide (j = k) := by
  simp [Fin.ext_iff, eq_comm]

theorem twoPow_ne_zero (k : Fin 8) : BitVec.twoPow 8 k ≠ 0 := fun h => by
  simpa [h] using twoPow_getLsbD k k

/-- A line in service keeps the interrupt pin down: no nesting (60_exceptions.md rule R344). -/
theorem Pic.intr_of_inService {p : Pic} (h : p.isr ≠ 0) : p.intr = false :=
  Bool.eq_false_iff.mpr fun hintr => h (p.intr_eq_true_iff.mp hintr).1

/-- A request sets its own bit of IRR (60_exceptions.md rule R341). -/
theorem requestLine_irr (k j : Fin 8) (d : Devices) :
    (requestLine k d).1.pic.irr.getLsbD j = (decide (j = k) || d.pic.irr.getLsbD j) := by
  rw [requestLine, BitVec.getLsbD_or, twoPow_getLsbD, Bool.or_comm]

/-- Settles O43: the selected line is the lowest eligible one, and with it in service the pin is down. -/
theorem acknowledgeTakesLowest : Obligations.AcknowledgeTakesLowest := by
  refine ⟨fun p => Pic.intr_of_inService, fun p h => ?down, fun p h => ?up⟩
  case down => simp [Pic.acknowledge?, h]
  case up =>
    obtain ⟨hisr, -⟩ := p.intr_eq_true_iff.mp h
    obtain ⟨k, hk⟩ := Pic.exists_select h
    obtain ⟨hkth, hlower⟩ := (p.select_eq_some_iff k).mp hk
    obtain ⟨hirr, himr⟩ := (p.eligible_getLsbD k).mp hkth
    have hserved := Pic.serve_isr hisr k
    refine ⟨k, p.serve k, by simp [Pic.acknowledge?, h, hk], hirr, himr, fun j hj => ?lowest,
      fun j => ?taken, fun j => ?inService, rfl, rfl, Pic.intr_of_inService (hserved ▸ twoPow_ne_zero k)⟩
    case lowest =>
      have hnot := mt (p.eligible_getLsbD j).mpr (Bool.eq_false_iff.mp (hlower j hj))
      simpa only [not_and_or, Bool.not_eq_true, Bool.not_eq_false] using hnot
    case taken =>
      rw [Pic.serve, BitVec.getLsbD_and, BitVec.getLsbD_not, twoPow_getLsbD]
      by_cases hjk : j = k <;> simp [hjk]
    case inService => rw [hserved, twoPow_getLsbD]

/-- Settles O44: a request moves one bit of IRR, an EOI write ISR, and the pin follows from the three registers. -/
theorem noNesting : Obligations.NoNesting := by
  intro d c k v n
  have hreq (j : Fin 8) := requestLine_irr k j d
  have hself : (requestLine k d).1.pic.irr.getLsbD k = true := by simp [hreq]
  refine ⟨hreq, rfl, fun hisr => Pic.intr_of_inService hisr, fun hisr himr => ?requested,
    ⟨rfl, fun himr => ?afterEoi⟩, rfl, ?newMask, ⟨rfl, fun j => ?newVector⟩, rfl, rfl, rfl, rfl, rfl, rfl⟩
  case requested => exact (Pic.intr_eq_true_iff _).mpr ⟨hisr, k, hself, himr⟩
  case afterEoi => exact (Pic.intr_eq_true_iff _).mpr ⟨rfl, k, hself, himr⟩
  case newMask => exact Pic.intr_eq_true_iff _
  case newVector =>
    show (d.pic.vec.set k v)[j] = _
    simp [Vector.getElem_set, Fin.ext_iff, eq_comm]

/-! ## The timer -/

/-- A tick moves CONT, and requests line 1 where CONT reaches COMP (60_exceptions.md rules R361, R362). -/
theorem tickTimer_eq (d : Devices) :
    (tickTimer d).1 =
      { d with
        timer := { d.timer with cont := d.timer.cont + 1 }
        pic := if d.timer.cont + 1 = d.timer.comp then { d.pic with irr := d.pic.irr ||| 0x02 } else d.pic } := by
  unfold tickTimer
  dsimp only
  split <;> rfl

/-- Settles O47: a tick is a change of the devices alone. -/
theorem tickCounts : Obligations.TickCounts := by
  intro s
  have htick : (applyAction .tick s).dev = _ := tickTimer_eq s.dev
  refine ⟨?_, by rw [htick], rfl⟩
  rw [htick, BitVec.toNat_add]
  rfl

/-- Settles O48: a tick requests line 1 on the match alone, and a write of the timer's registers nothing. -/
theorem timerRequestsOnMatch : Obligations.TimerRequestsOnMatch := by
  intro d c v n
  dsimp only
  rw [tickTimer_eq]
  exact ⟨fun h => if_pos h, fun h => if_neg h, rfl, rfl, rfl, rfl, rfl, rfl⟩

/-! ## The ports -/

/-- The strobe output bit is PA[1] where CA[1] makes it an output (60_exceptions.md rule R370). -/
theorem Pio.strobe_eq (p : Pio) : p.strobe = (p.pa.getLsbD 1 && !p.ca.getLsbD 1) := by
  simp [Pio.strobe]

/-- The lines do not reach an output bit. -/
theorem Pio.updateA_strobe (p : Pio) : p.updateA.strobe = p.strobe := by
  rw [Pio.strobe_eq, Pio.strobe_eq, Pio.updateA, updatedPort_getLsbD]
  cases p.ca.getLsbD 1 <;> simp

/-- An update of port A strobes PioPrinter's printer, with PB, exactly on the rise of the strobe output bit (60_exceptions.md
rule R370). -/
theorem refreshA_strobes (c : Configuration) (d : Devices) (new : Pio) :
    (refreshA c d new).2.filter Event.isStrobe =
      if c = .pioPrinter ∧ d.pio.strobe = false ∧ new.strobe = true then [.printerStrobe new.pb] else [] := by
  rw [← new.updateA_strobe]
  unfold refreshA pioReaction
  dsimp only
  split <;> rfl

/-- The busy line is bit 0 of its port (60_exceptions.md rule R370). -/
theorem busyLine_getLsbD (b : Bool) (k : Fin 8) : (if b then 0x01 else 0x00 : Byte).getLsbD k = (decide (k = 0) && b) := by
  revert b k
  decide

/-- Settles O49: each update recomputes its port bit by bit, and the printer sees the rise of the output bit PA[1]. -/
theorem portBits : Obligations.PortBits := by
  intro d c v k b n
  refine ⟨⟨rfl, updatedPort_getLsbD _ _ _ k⟩, ⟨rfl, updatedPort_getLsbD _ _ _ k⟩, ⟨rfl, updatedPort_getLsbD _ _ _ k⟩,
    ⟨rfl, updatedPort_getLsbD _ _ _ k⟩, ⟨rfl, updatedPort_getLsbD _ _ _ k⟩, ⟨rfl, ?busyBit⟩, ?writeA, ?writeCa, rfl, rfl, ?busyLine,
    rfl, rfl, rfl, rfl⟩
  case busyBit =>
    rw [← busyLine_getLsbD]
    exact updatedPort_getLsbD _ _ _ k
  case writeA =>
    refine (refreshA_strobes c d { d.pio with pa := v }).trans (if_congr ?_ rfl rfl)
    rw [Pio.strobe_eq, Pio.strobe_eq]
    cases d.pio.ca.getLsbD 1 <;> simp
  case writeCa =>
    refine (refreshA_strobes c d { d.pio with ca := v }).trans (if_congr ?_ rfl rfl)
    rw [Pio.strobe_eq, Pio.strobe_eq]
    cases d.pio.pa.getLsbD 1 <;> simp
  case busyLine =>
    refine (refreshA_strobes .pioPrinter d { d.pio with extA := if b then 0x01 else 0x00 }).trans (if_neg ?_)
    rintro ⟨-, hbefore, hafter⟩
    exact Bool.false_ne_true (hbefore.symm.trans hafter)

/-! ## The handshake -/

/-- Settles O50: DATA is stored, reported, and sent to the printer. -/
theorem dataWriteStrobes : Obligations.DataWriteStrobes := fun _ _ _ _ => ⟨rfl, rfl, rfl⟩

/-- STATE shows IE as bit 7, busy as bit 0 and nothing else (60_exceptions.md rule R375). -/
theorem Handshake.stateByte_getLsbD (h : Handshake) (k : Fin 8) :
    h.stateByte.getLsbD k = if k = 7 then h.ie else if k = 0 then h.busy else false := by
  have key : ∀ (ie busy : Bool) (k : Fin 8), ((if ie then 0x80 else 0x00) ||| (if busy then 0x01 else 0x00) : Byte).getLsbD k =
      if k = 7 then ie else if k = 0 then busy else false := by decide
  exact key h.ie h.busy k

/-- Settles O51: STATE shows its two bits, its write may strobe, and a printer that goes free may request line 2. -/
theorem handshakeState : Obligations.HandshakeState := by
  intro d c v n b
  refine ⟨Handshake.stateByte_getLsbD d.hs, rfl, ?strobe, ?busy⟩
  case strobe =>
    show _ ∈ _ :: (if v.getLsbD 1 then [Event.printerStrobe d.hs.data] else []) ↔ _
    cases v.getLsbD 1 <;> simp
  case busy =>
    unfold driveBusy
    dsimp only
    split <;> exact ⟨rfl, rfl, rfl, rfl⟩

/-- Settles O53: a reset gives the PIC its defaults before it looks at the policy. -/
theorem picResetIgnoresPolicy : Obligations.PicResetIgnoresPolicy := fun _ _ _ => rfl

end Sys2Proof.Machine
end

section
/-! PROOF. INT on each of its numbers, a hardware interrupt, the processor control instructions and the returns
(47_software_interrupt.md, 48_processor_control.md, 49_return.md, 40_engine.md rules R133, R155). -/

namespace Sys2Proof.Machine

/-! ## Interrupt entry and return -/

theorem word_sub_two_two (v : Word) : v - 2 - 2 = v - 4 := by
  rw [BitVec.sub_sub]
  rfl

/-- What interrupt entry leaves, in the slots' own addresses (40_engine.md rule R155). -/
theorem Arch.entered_eq (x : Arch) (n : Byte) :
    x.entered n =
      let m := (x.mem.store .w16 (x.regs.sp - 2).toNat x.regs.flags).store .w16 (x.regs.sp - 4).toNat x.regs.ip
      { x with
        regs := { x.regs with sp := x.regs.sp - 4, flags := setIF x.regs.flags false, ip := m.load .w16 (4 * n.toNat) }
        mem := m } := by
  rw [← word_sub_two_two]
  rfl

/-- Room for two pushes is room for each of them. -/
theorem State.canPush_twice {s : State} (hsp : 4 ≤ s.regs.sp.toNat) (h2 : s.canWrite .w16 (s.regs.sp - 2).toNat)
    (h4 : s.canWrite .w16 (s.regs.sp - 4).toNat) : s.arch.canPush ∧ (s.arch.pushed s.regs.flags).canPush := by
  have hle : 2 ≤ (s.regs.sp - 2).toNat := by bv_omega
  rw [← word_sub_two_two] at h4
  exact ⟨⟨by show 2 ≤ s.regs.sp.toNat; omega, h2.1, h2.2⟩, hle, h4.1, h4.2⟩

/-- What IRET leaves, in the slots' own addresses (49_return.md rule R307). -/
theorem Arch.returned_eq (x : Arch) :
    x.returned = { x with
      regs := { x.regs with
        sp := x.regs.sp + 4
        ip := x.mem.load .w16 x.regs.sp.toNat
        flags := x.mem.load .w16 (x.regs.sp + 2).toNat } } := by
  have h4 : x.regs.sp + 4 = x.regs.sp + 2 + 2 := by
    rw [BitVec.add_assoc]
    rfl
  rw [h4]
  rfl

/-! ## The obligations on entry -/

/-- Settles O18: room for two pushes and a readable vector are all that interrupt entry needs. -/
theorem intVectorCompletes : Obligations.IntVectorCompletes := by
  intro n s hs h0 h3 h6 h7 hsp h2 h4 hv
  have hsteady := State.executing_steady hs
  obtain ⟨-, -, hu⟩ := hs
  obtain ⟨hfirst, hsecond⟩ := State.canPush_twice hsp h2 h4
  obtain ⟨t, hnext, hdev, harch⟩ := exec_next_of_does (exec_int_generic h0 h3 h6 h7 s)
    (does_startInterrupt hu rfl hsteady hfirst hsecond hv)
  exact ⟨t, hnext, hdev, harch.trans (Arch.entered_eq _ n)⟩

/-- Settles O45: the poll enters the acknowledged line's vector, and the cycle closes. -/
theorem interruptTaken : Obligations.InterruptTaken := by
  intro s n pic hrun hcycle hhost hif hack hsp h2 h4 hv
  obtain ⟨hfirst, hsecond⟩ := State.canPush_twice hsp h2 h4
  obtain ⟨harch, hdev, -⟩ := finishCycle_takes hhost hcycle hrun hif hack hfirst hsecond hv
  exact ⟨hdev, by rw [harch, Arch.entered_eq]; rfl⟩

/-! ## The ends of a cycle -/

section
variable {s : State} (hs : s.executing)
include hs

/-- An instruction that only halts: no poll follows, and the end of the cycle halts the engine (40_engine.md rule R130). -/
theorem exec_halts {i : Instr} {why : HaltReason} (hi : exec i s = perform (halt why) s) :
    ∃ t, exec i s = .next t ∧ t.arch = s.arch.ending why ∧ devicesKept s t ∧
      (finishCycle t).arch = s.arch.halted why ∧ devicesKept s (finishCycle t) := by
  obtain ⟨-, -, hu⟩ := hs
  let t : State := { s with cycle := .ending why }
  obtain ⟨harch, hdev, -⟩ := finishCycle_ending (s := t) hu rfl
  exact ⟨t, hi, rfl, ⟨rfl, fun _ => rfl⟩, harch, hdev⟩

/-- An instruction that only writes IF (48_processor_control.md rules R296, R297). -/
theorem exec_setIF {i : Instr} {b : Bool}
    (hi : exec i s = perform (do let f ← look (fun s => s.regs.flags); setFlags (setIF f b)) s) :
    ∃ t, exec i s = .next t ∧ t.arch = s.arch.putFlags (setIF s.regs.flags b) ∧ devicesKept s t ∧ hostOnly s t := by
  have hsteady := State.executing_steady hs
  obtain ⟨-, -, hu⟩ := hs
  obtain ⟨t, hnext, harch, hhost, hdev⟩ := does_perform
    (does_seq (k := fun f => setFlags (setIF f b)) (does_look hu rfl (fun x => x.regs.flags) fun _ => rfl) fun _ ht hy =>
      does_setFlags ht hy hsteady (setIF s.regs.flags b))
  exact ⟨t, hi.trans hnext, harch, hdev, hhost⟩

end

/-- Settles O19: INT 0 only halts. -/
theorem intZeroHalts : Obligations.IntZeroHalts := fun _ hs => exec_halts hs rfl

/-- Settles O23: the poll looks at the cleared IF, whatever the PIC holds. -/
theorem cliCompletes : Obligations.CliCompletes := by
  intro s hs
  obtain ⟨t, hnext, harch, hdev, hhost⟩ := exec_setIF hs (i := .cli) rfl
  obtain ⟨hrun, hcycle, -⟩ := hs
  have hflags : t.regs.flags = setIF s.regs.flags false := congrArg (fun x => x.regs.flags) harch
  have hoff : (flagIF t.regs.flags && t.dev.pic.intr) = false := by simp [hflags]
  obtain ⟨hclosed, hdev', -⟩ := finishCycle_quiet hhost.1 ((congrArg Arch.cycle harch).trans hcycle)
    ((congrArg Arch.run harch).trans hrun) hoff
  exact ⟨t, hnext, hdev, fun j => hflags ▸ setIF_getLsbD _ _ j, hflags ▸ harch, hclosed, devicesKept_trans hdev hhost.2 hdev'⟩

/-- Settles O24: HLT only halts and STI only sets IF. -/
theorem controlCompletes : Obligations.ControlCompletes := by
  intro s hs
  refine ⟨exec_halts hs rfl, ?sti, rfl⟩
  case sti =>
    obtain ⟨t, hnext, harch, hdev, -⟩ := exec_setIF hs (i := .sti) rfl
    have hflags : t.regs.flags = setIF s.regs.flags true := congrArg (fun x => x.regs.flags) harch
    exact ⟨t, hnext, hdev, hflags ▸ harch, fun j => hflags ▸ setIF_getLsbD _ _ j⟩

/-- Settles O25: RET pops IP; IRET pops IP and then FLAGS, from the next slot. -/
theorem returnsComplete : Obligations.ReturnsComplete := by
  intro s hs
  refine ⟨fun hpop => ?ret, fun hsp => ?iret⟩
  case ret =>
    exact exec_next_of_does rfl (does_pop_bind hs hpop fun _ ht hy hsteady => does_setIp ht hy hsteady s.top)
  case iret =>
    have hsteady := State.executing_steady hs
    obtain ⟨-, -, hu⟩ := hs
    have hfirst : s.arch.canPop := by show s.regs.sp.toNat + 2 ≤ s.params.memMax + 1; omega
    have hsecond : s.arch.popped.canPop := by
      have : (s.regs.sp + 2).toNat ≤ s.regs.sp.toNat + 2 := Nat.mod_le _ _
      show (s.regs.sp + 2).toNat + 2 ≤ s.params.memMax + 1
      omega
    have hreturned := exec_next_of_does (i := .iret) rfl (does_endInterrupt hu rfl hsteady hfirst hsecond)
    rwa [Arch.returned_eq] at hreturned

/-! ## INT 3 and INT 6 -/

/-- INT 3 waits, and the host takes the turn of its event (47_software_interrupt.md rule R282). -/
theorem exec_int_three {s : State} (hs : s.executing) :
    exec (.int 3) s = .next (hostTurn (({ s with cycle := .breakpoint } : State).log [.breakpoint])) := by
  obtain ⟨-, -, hu⟩ := hs
  show perform breakpoint s = _
  simp only [perform, after, breakpoint, bind_apply, commit_apply]
  rw [emit_calm (by exact hu)]

/-- INT 6 waits, and the host takes the turn of its event (47_software_interrupt.md rule R284). -/
theorem exec_int_six {s : State} (hs : s.executing) :
    exec (.int 6) s = .next (hostTurn (({ s with run := .awaitChar none } : State).log [.charRequest])) := by
  obtain ⟨-, -, hu⟩ := hs
  show perform requestChar s = _
  simp only [perform, after, requestChar, bind_apply, commit_apply]
  rw [emit_calm (by exact hu)]

/-- Settles O20: the turn at the `breakpoint` event may resume; without one the wait steps to itself until a turn does. -/
theorem intThreeBreaks : Obligations.IntThreeBreaks := by
  refine ⟨fun s hs => ?breaks, fun s hrun hcycle hhost => ?waits, fun s ts hrun hcycle hhost => ?resumes⟩
  case breaks =>
    obtain ⟨-, harch, hrun, hcycle, hdev, -⟩ :=
      hostTurn_calm (s := ({ s with cycle := .breakpoint } : State).log [.breakpoint]) hs.2.2
    refine ⟨_, exec_int_three hs, ?only, hdev, hcycle.imp id And.right, fun hhost => ?quiet⟩
    case only =>
      rcases hrun with hrun | ⟨hwait, -⟩
      · rw [harch, hrun]
        rfl
      · cases hs.1.symm.trans hwait
    case quiet =>
      rw [hostTurn_nil (by exact hhost)]
      exact ⟨rfl, rfl⟩
  case waits => simp [step, stepState, hrun, hcycle, waitBreakpoint, hostTurn_nil hhost, finishCycle]
  case resumes =>
    simp [step, stepState, hrun, hcycle, waitBreakpoint, hostTurn, hhost, applyTurn, applyAction, resumeBreakpoint]

/-- The step that takes the host's byte stores it at BX, running again (47_software_interrupt.md rule R284). -/
theorem step_of_suppliedChar {s : State} {c : Byte} (hrun : s.run = .awaitChar (some c)) (hcycle : s.cycle = .opened) :
    step s = .next (finishCycle (after (memWriteByte s.regs.bx.toNat c) { s with run := .running })) := by
  have htakes : stepState s = resumeChar c s := by simp only [stepState, hrun, hcycle]
  exact htakes

/-- Settles O21: the turn at the `char-request` event may supply the byte, or a turn of the wait; the next step stores it. -/
theorem intSixReads : Obligations.IntSixReads := by
  refine ⟨fun s hs => ?requests, fun s hrun hcycle hhost => ?waits, fun s c ts hrun hcycle hhost => ?supplied,
    fun s c hrun hcycle hu => ?takes⟩
  case requests =>
    obtain ⟨-, harch, hrun, hcycle, hdev, -⟩ :=
      hostTurn_calm (s := ({ s with run := .awaitChar none } : State).log [.charRequest]) hs.2.2
    refine ⟨_, exec_int_six hs, ?only, hdev, ?waiting, fun hhost => ?quiet⟩
    case only =>
      rcases hcycle with hcycle | ⟨hbreak, -⟩
      · rw [harch, hcycle]
        rfl
      · cases hs.2.1.symm.trans hbreak
    case waiting =>
      rcases hrun with hrun | ⟨-, c, hrun⟩
      · exact ⟨none, hrun⟩
      · exact ⟨some c, hrun⟩
    case quiet =>
      rw [hostTurn_nil (by exact hhost)]
      exact ⟨rfl, rfl⟩
  case waits => simp [step, stepState, hrun, hcycle, waitTurn, hostTurn_nil hhost]
  case supplied =>
    simp [step, stepState, hrun, hcycle, waitTurn, hostTurn, hhost, applyTurn, applyAction, supplyChar]
  case takes =>
    let r : State := { s with run := .running }
    have hsteady : r.arch.steady := ⟨by simp [r], by simp [r, hcycle]⟩
    have hstep := step_of_suppliedChar hrun hcycle
    refine ⟨fun hw => ?stored, fun hout => ?outside, fun hin hcode => ?code⟩
    case stored =>
      obtain ⟨hin, hfree⟩ := hw
      obtain ⟨t, hstored, harch, hdev⟩ := does_devicesKept (does_memWriteByte (s := r) hu rfl hsteady
        (Nat.le_of_succ_le_succ hin) (hfree _ ⟨le_rfl, Nat.lt_succ_self _⟩) c)
      exact ⟨t, after_ok hstored ▸ hstep, hdev, harch⟩
    case outside =>
      obtain ⟨t, hfault, harch, hdev⟩ := fails_devicesKept (fails_memWriteByte_range (s := r) hu rfl hsteady hout c)
      exact ⟨t, after_error hfault ▸ hstep, hdev, harch⟩
    case code =>
      obtain ⟨t, hfault, harch, hdev⟩ := fails_devicesKept (fails_memWriteByte_code (s := r) hu rfl hsteady
        (Nat.le_of_succ_le_succ hin) hcode c)
      exact ⟨t, after_error hfault ▸ hstep, hdev, harch⟩

end Sys2Proof.Machine
end

section
/-! PROOF. INT 7, the bytes it sends up to its end or to its fault, and the frame of INT on every number
(47_software_interrupt.md rules R276 to R287). -/

namespace Sys2Proof.Machine

/-! ## The bytes that INT 7 sends -/

/-- A turn of INT 7 that faults sends nothing, under a host that acts no more: the read comes before the byte is sent. -/
theorem transmitByte_fault_outputs {s t : State} (h : transmitByte s = .error () t) (hh : s.host = [])
    (hb : s.params.memMax < s.regs.bx.toNat) : t.events.filter Event.isOutput = s.events.filter Event.isOutput := by
  simp only [transmitByte, memReadByte, setMar, bind_assoc, bind_apply, commit_apply, look_apply, emit_quiet, hh, State.log,
    Nat.not_le.mpr hb, if_false, busFault, raise, stop_apply, EStateM.Result.error.injEq, true_and] at h
  subst h
  simp [Event.isOutput]

/-- The `output-char` events of the first `k` bytes from BX up, newest first. -/
def State.outputs (s : State) (k : Nat) : List Event :=
  ((List.range k).map fun j => Event.outputChar (s.mem.read (s.regs.bx + BitVec.ofNat 16 j).toNat)).reverse

theorem State.outputs_succ (s : State) (k : Nat) :
    s.outputs (k + 1) = .outputChar (s.mem.read (s.regs.bx + BitVec.ofNat 16 k).toNat) :: s.outputs k := by
  simp [State.outputs, List.range_succ]

@[simp] theorem Arch.sent_bx (x : Arch) : x.sent.regs.bx = x.regs.bx + 1 := by rw [Arch.sent_eq]

@[simp] theorem Arch.sent_al (x : Arch) : lowByte x.sent.regs.ax = lowByte x.regs.ax - 1 := by
  rw [Arch.sent_eq, lowByte_join]

@[simp] theorem Arch.sent_params (x : Arch) : x.sent.params = x.params := by rw [Arch.sent_eq]

@[simp] theorem Arch.sent_steady (x : Arch) : x.sent.steady = x.steady := by
  rw [Arch.sent_eq]
  rfl

theorem byte_sub_one_toNat {b : Byte} (h : 0 < b.toNat) : (b - 1).toNat = b.toNat - 1 := by bv_omega

/-- While AL counts, INT 7 takes a turn (47_software_interrupt.md rule R287). -/
theorem transmit_succ {s : State} (h : 0 < (lowByte s.regs.ax).toNat) (n : Nat) :
    transmit (n + 1) s = (do transmitByte; transmit n : Micro Unit) s := by
  have hal : s.regs.get Reg.al ≠ 0 := fun hzero => by
    have : lowByte s.regs.ax = 0 := hzero
    simp [this] at h
  rw [transmit, look_bind, if_neg hal]

/-- `u` is the machine `s` after INT 7 has sent `k` bytes, under a host that acts no more. -/
structure State.hasSent (s : State) (k : Nat) (u : State) : Prop where
  quiet : u.host = []
  steady : u.arch.steady
  mem : u.mem = s.mem
  params : u.params = s.params
  bx : u.regs.bx = s.regs.bx + BitVec.ofNat 16 k
  al : (lowByte u.regs.ax).toNat = (lowByte s.regs.ax).toNat - k
  events : u.events.filter Event.isOutput = s.outputs k ++ s.events.filter Event.isOutput

theorem State.hasSent_zero {s : State} (hh : s.host = []) (hs : s.arch.steady) : s.hasSent 0 s :=
  ⟨hh, hs, rfl, rfl, by simp, rfl, rfl⟩

/-- While AL counts and the byte lies in memory, one more turn sends one more byte. -/
theorem State.hasSent.next {s u : State} {k : Nat} (h : s.hasSent k u) (hk : k < (lowByte s.regs.ax).toNat)
    (hin : (s.regs.bx + BitVec.ofNat 16 k).toNat ≤ s.params.memMax) :
    ∃ v, transmitByte u = .ok () v ∧ s.hasSent (k + 1) v := by
  obtain ⟨hh, hs, hmem, hparams, hbx, hal, hevents⟩ := h
  have hu : u.undisturbed = true := by simp [State.undisturbed, hh]
  obtain ⟨v, hv, harch, -⟩ := does_transmitByte hu rfl hs (by rwa [State.arch_regs, State.arch_params, hbx, hparams])
  obtain ⟨hh', hmem', hevents'⟩ := transmitByte_outputs hv hh
  have hbx' : v.regs.bx = u.regs.bx + 1 := (congrArg (fun x => x.regs.bx) harch).trans (Arch.sent_bx _)
  have hal' : lowByte v.regs.ax = lowByte u.regs.ax - 1 :=
    (congrArg (fun x => lowByte x.regs.ax) harch).trans (Arch.sent_al _)
  refine ⟨v, hv, hh', ?steady, hmem'.trans hmem, ?params, ?bx, ?al, ?events⟩
  case steady => rwa [harch, Arch.sent_steady]
  case params => exact ((congrArg Arch.params harch).trans (Arch.sent_params _)).trans hparams
  case bx =>
    rw [hbx', hbx, ← word_add_succ]
    ac_rfl
  case al => rw [hal', byte_sub_one_toNat (by omega), hal, Nat.sub_sub]
  case events => rw [hevents', hevents, State.outputs_succ, hmem, hbx]; rfl

/-- As long as AL counts and the bytes lie in memory, INT 7 goes on sending. -/
theorem transmit_sends {s : State} (hh : s.host = []) (hs : s.arch.steady) {k : Nat} (hk : k ≤ (lowByte s.regs.ax).toNat)
    (hin : ∀ j, j < k → (s.regs.bx + BitVec.ofNat 16 j).toNat ≤ s.params.memMax) :
    ∃ u, transmit (lowByte s.regs.ax).toNat s = transmit ((lowByte s.regs.ax).toNat - k) u ∧ s.hasSent k u := by
  induction k with
  | zero => exact ⟨s, rfl, State.hasSent_zero hh hs⟩
  | succ k ih =>
    obtain ⟨u, hu, hsent⟩ := ih (by omega) fun j hj => hin j (by omega)
    obtain ⟨v, hv, hsent'⟩ := hsent.next hk (hin k (by omega))
    have hcount : (lowByte s.regs.ax).toNat - k = (lowByte s.regs.ax).toNat - (k + 1) + 1 := by omega
    refine ⟨v, ?_, hsent'⟩
    rw [hu, hcount, transmit_succ (by have := hsent.al; omega), bind_apply, hv]

/-! ## INT 7 -/

theorem exec_int_seven (s : State) : exec (.int 7) s = perform (transmit (lowByte s.regs.ax).toNat) s := rfl

/-- The next state of INT 7 whose bytes can all be read has sent them all. -/
theorem exec_int_seven_sends {s t : State} (hs : s.executing) (hh : s.host = []) (h : exec (.int 7) s = .next t)
    (hin : ∀ j, j < (lowByte s.regs.ax).toNat → (s.regs.bx + BitVec.ofNat 16 j).toNat ≤ s.params.memMax) :
    t.events.filter Event.isOutput = s.outputs (lowByte s.regs.ax).toNat ++ s.events.filter Event.isOutput := by
  obtain ⟨u, hu, hsent⟩ := transmit_sends hh (State.executing_steady hs) le_rfl hin
  rw [Nat.sub_self] at hu
  rw [exec_int_seven, perform, after_ok (hu.trans (pure_apply () u))] at h
  exact Host.Outcome.next.inj h ▸ hsent.events

/-- The next state of INT 7 whose byte `k` is the first outside memory has sent the bytes before it. -/
theorem exec_int_seven_fault_sends {s t : State} (hs : s.executing) (hh : s.host = []) (h : exec (.int 7) s = .next t) {k : Nat}
    (hk : k < (lowByte s.regs.ax).toNat) (hin : ∀ j, j < k → (s.regs.bx + BitVec.ofNat 16 j).toNat ≤ s.params.memMax)
    (hout : s.params.memMax < (s.regs.bx + BitVec.ofNat 16 k).toNat) :
    t.events.filter Event.isOutput = s.outputs k ++ s.events.filter Event.isOutput := by
  obtain ⟨u, hu, hquiet, hsteady, -, hparams, hbx, hal, hevents⟩ := transmit_sends hh (State.executing_steady hs) hk.le hin
  have hout' : u.params.memMax < u.regs.bx.toNat := by rwa [hparams, hbx]
  have hcount : (lowByte s.regs.ax).toNat - k = (lowByte s.regs.ax).toNat - (k + 1) + 1 := by omega
  obtain ⟨v, hv, -⟩ := fails_transmitByte (by simp [State.undisturbed, hquiet]) rfl hsteady hout'
  rw [hcount, transmit_succ (by omega), bind_apply, hv] at hu
  rw [exec_int_seven, perform, after_error hu] at h
  rw [← Host.Outcome.next.inj h, transmitByte_fault_outputs hv hquiet hout', hevents]

/-- Settles O22: INT 7 sends until AL is 0 or its byte lies outside memory; the flags are those of the last turn. -/
theorem intSevenTransmits : Obligations.IntSevenTransmits := by
  intro s hs n addr sent
  have hsteady := State.executing_steady hs
  refine ⟨fun hin => ?all, fun k hk hin hout => ?some⟩
  case all =>
    obtain ⟨t, hnext, hdev, harch⟩ := exec_next_of_does (exec_int_seven s) (does_transmit hs.2.2 rfl hsteady rfl hin)
    refine ⟨t, hnext, hdev, harch, fun hn => ?_, fun hh => exec_int_seven_sends hs hh hnext hin⟩
    have hflags : t.regs.flags = sentFlags s.regs.flags := by
      refine (congrArg (fun x => x.regs.flags) harch).trans ?_
      rw [Arch.sentAll, if_neg (show s.arch.regs.get Reg.al ≠ 0 from hn)]
      rfl
    exact hflags ▸ flagBits_setAluFlags _ _ _ _ _
  case some =>
    obtain ⟨t, hnext, harch, hdev⟩ := exec_of_fails (exec_int_seven s) (fails_transmit hs.2.2 rfl hsteady rfl hk hin hout)
    refine ⟨t, hnext, hdev, ⟨harch, fun hk0 => ?_⟩, fun hh => exec_int_seven_fault_sends hs hh hnext hk hin hout⟩
    have hflags : t.regs.flags = setAluFlags s.regs.flags false false (n - BitVec.ofNat 8 k).msb
        (decide (n - BitVec.ofNat 8 k = 0x7F)) := by
      refine (congrArg (fun x => x.regs.flags) harch).trans ?_
      rw [Arch.sentSome, if_neg hk0]
      rfl
    exact hflags ▸ flagBits_setAluFlags _ _ _ _ _

end Sys2Proof.Machine
end

section
/-! PROOF. The frame of INT on every path: entry through a vector, INT 7, and the numbers that stop the cycle
(47_software_interrupt.md rules R276 to R287). -/

namespace Sys2Proof.Machine

/-- The registers interrupt entry may leave: SP, IP and of FLAGS bit 9 changed (40_engine.md rule R155). -/
def vectorReaches (g g' : Regs) : Prop :=
  ∃ sp ip f, g' = { g with sp := sp, ip := ip, flags := f } ∧ ∀ j, j ≠ 9 → f.getLsbD j = g.flags.getLsbD j

/-- The registers INT 7 may leave: BX, AL and the four ALU flags changed (47_software_interrupt.md rule R287). -/
def sendReaches (g g' : Regs) : Prop :=
  ∃ bx al f, g' = ({ g with bx := bx, flags := f } : Regs).set Reg.al al ∧
    ∀ j, j ≠ 0 → j ≠ 6 → j ≠ 7 → j ≠ 11 → f.getLsbD j = g.flags.getLsbD j

/-- The numbers of INT that stop the cycle: 0 ends it, 3 and 6 wait. -/
abbrev stopsCycle (n : Byte) : Prop := n = 0 ∨ n = 3 ∨ n = 6

/-- From `x` to `y` INT `n` has stopped the cycle, and the host may have answered the wait. -/
structure Arch.StoppedBy (n : Byte) (x y : Arch) : Prop where
  regs : y.regs = x.regs
  mem : y.mem = x.mem
  program : y.program = x.program
  params : y.params = x.params
  draws : y.draws = x.draws
  record : y.faultRecord = x.faultRecord
  ended : n = 0 → y.run = x.run ∧ y.cycle = .ending .int0
  paused : n = 3 → y.run = x.run
  asked : n = 6 → y.cycle = x.cycle

section
variable {s t : State} (hs : s.executing) {n : Byte}
include hs

/-- Entry through a vector, faults included. -/
theorem exec_int_vector_frame (h0 : n ≠ 0) (h3 : n ≠ 3) (h6 : n ≠ 6) (h7 : n ≠ 7) (h : exec (.int n) s = .next t) :
    s.arch.ChangesOnly (vectorReaches s.regs)
      (fun b => ¬ within .w16 (s.regs.sp - 2).toNat b ∧ ¬ within .w16 (s.regs.sp - 4).toNat b) t.arch ∧ devicesKept s t := by
  have hsteady := State.executing_steady hs
  obtain ⟨-, -, hu⟩ := hs
  obtain ⟨⟨sp, ip, f, m, harch, houtcome, hflags, hmem⟩, hdev⟩ :=
    exec_next_of_runs (exec_int_generic h0 h3 h6 h7 s) (runs_startInterrupt hu rfl hsteady n) h
  refine ⟨⟨⟨sp, ip, f, ?_, hflags⟩, fun b hb => ?_, ?_, ?_, ?_, houtcome⟩, hdev⟩ <;> rw [harch]
  · rfl
  · exact hmem b hb.1 hb.2

/-- INT 7, its fault included. -/
theorem exec_int_send_frame (h : exec (.int 7) s = .next t) :
    s.arch.ChangesOnly (sendReaches s.regs) (fun _ => True) t.arch ∧ devicesKept s t := by
  have hsteady := State.executing_steady hs
  obtain ⟨-, -, hu⟩ := hs
  obtain ⟨⟨bx, al, f, harch, houtcome, hflags⟩, hdev⟩ :=
    exec_next_of_runs (exec_int_seven s) (runs_transmit hu rfl hsteady _) h
  refine ⟨⟨⟨bx, al, f, ?_, hflags⟩, fun b hb => ?_, ?_, ?_, ?_, houtcome⟩, hdev⟩ <;> rw [harch]
  rfl

/-- INT 0, INT 3 and INT 6 up to their stop. -/
theorem exec_int_stop_frame (hn : stopsCycle n) (h : exec (.int n) s = .next t) :
    s.arch.StoppedBy n t.arch ∧ devicesKept s t := by
  rcases hn with rfl | rfl | rfl
  · obtain ⟨u, hnext, harch, hdev, -⟩ := intZeroHalts s hs
    obtain rfl := Host.Outcome.next.inj (hnext.symm.trans h)
    rw [harch]
    exact ⟨⟨rfl, rfl, rfl, rfl, rfl, rfl, fun _ => ⟨rfl, rfl⟩, fun _ => rfl, fun e => absurd e (by decide)⟩, hdev⟩
  · obtain ⟨u, hnext, harch, hdev, -⟩ := intThreeBreaks.1 s hs
    obtain rfl := Host.Outcome.next.inj (hnext.symm.trans h)
    rw [harch]
    exact ⟨⟨rfl, rfl, rfl, rfl, rfl, rfl, fun e => absurd e (by decide), fun _ => rfl, fun e => absurd e (by decide)⟩, hdev⟩
  · obtain ⟨u, hnext, harch, hdev, -⟩ := intSixReads.1 s hs
    obtain rfl := Host.Outcome.next.inj (hnext.symm.trans h)
    rw [harch]
    exact ⟨⟨rfl, rfl, rfl, rfl, rfl, rfl, fun e => absurd e (by decide), fun e => absurd e (by decide), fun _ => rfl⟩, hdev⟩

end

/-- Settles O34: the number decides between the vector, the bytes of INT 7 and a stop, and each keeps its frame. -/
theorem intFrame : Obligations.IntFrame := by
  intro n s t hs h
  by_cases hstop : stopsCycle n
  · obtain ⟨⟨hregs, hmem, hprogram, hparams, hdraws, hrecord, hended, hpaused, hasked⟩, hdev⟩ := exec_int_stop_frame hs hstop h
    refine ⟨fun h0 h3 h6 _ => by tauto, fun h7 => absurd (h7 ▸ hstop) (by decide), fun _ => ⟨hregs, fun b => ?_⟩,
      fun h0 h3 h6 => by tauto, hended, hpaused, hasked, fun _ => hrecord, hprogram, hparams, hdraws, hdev⟩
    exact congrArg (fun m => m.read b) hmem
  obtain ⟨h0, h3, h6⟩ : n ≠ 0 ∧ n ≠ 3 ∧ n ≠ 6 := by tauto
  have stopped {p : Prop} (hn : stopsCycle n) : p := absurd hn hstop
  by_cases h7 : n = 7
  · subst h7
    obtain ⟨⟨hregs, hmem, hprogram, hparams, hdraws, houtcome⟩, hdev⟩ := exec_int_send_frame hs h
    exact ⟨fun _ _ _ e => absurd rfl e, fun _ => ⟨hregs, fun b => hmem b trivial⟩, stopped, fun _ _ _ => houtcome,
      fun e => absurd e h0, fun e => absurd e h3, fun e => absurd e h6, stopped, hprogram, hparams, hdraws, hdev⟩
  · obtain ⟨⟨hregs, hmem, hprogram, hparams, hdraws, houtcome⟩, hdev⟩ := exec_int_vector_frame hs h0 h3 h6 h7 h
    exact ⟨fun _ _ _ _ => ⟨hregs, fun b hb hb' => hmem b ⟨hb, hb'⟩⟩, fun e => absurd e h7, stopped, fun _ _ _ => houtcome,
      fun e => absurd e h0, fun e => absurd e h3, fun e => absurd e h6, stopped, hprogram, hparams, hdraws, hdev⟩

end Sys2Proof.Machine
end

section
/-! PROOF. Memory after a reset: what each laid list of bytes leaves, then the data blocks, the instructions and the policy
(70_reset_and_hazards.md rules R400, R403). -/

namespace Sys2Proof.Machine

/-! ## Instructions -/

/-- A well-placed descriptor has as many bytes as its length (30_encoding.md rule R102, log 24). -/
theorem Descriptor.bytes_length {memMax : Nat} {d : Descriptor} (h : d.problem? memMax = none) : d.bytes.length = d.len := by
  unfold Descriptor.problem? at h
  split_ifs at h with _ _ hlen
  exact not_not.mp hlen

/-- A descriptor covers the addresses of its bytes. -/
theorem Descriptor.covers_byte {d : Descriptor} (hlen : d.bytes.length = d.len) {k : Nat} {v : Byte}
    (hk : d.bytes[k]? = some v) : d.covers (d.addr.toNat + k) = true := by
  obtain ⟨hlt, -⟩ := List.getElem?_eq_some_iff.mp hk
  simp only [Descriptor.covers, Bool.and_eq_true, decide_eq_true_eq]
  omega

/-- Instructions that lie apart cover no address together. -/
theorem Descriptor.not_covers_of_apart {d e : Descriptor} (h : d.apart e = true) {a : Nat} (ha : d.covers a = true) :
    e.covers a = false := by
  simp only [Descriptor.apart, Descriptor.covers, Bool.or_eq_true, Bool.and_eq_true, Bool.and_eq_false_iff,
    decide_eq_true_eq, decide_eq_false_iff_not] at *
  omega

/-- Instruction bytes are laid where their descriptor covers. -/
theorem read_lay_uncovered {d : Descriptor} (hlen : d.bytes.length = d.len) {a : Nat} (ha : d.covers a = false) (m : Memory) :
    (m.lay d.addr.toNat (d.bytes.map some)).read a = m.read a := by
  refine m.read_lay_off fun k v hk => ?_
  rintro rfl
  have hbyte : d.bytes[k]? = some v := by simpa using hk
  simp [Descriptor.covers_byte hlen hbyte] at ha

theorem read_layCode_uncovered {ds : List Descriptor} (hlen : ∀ d ∈ ds, d.bytes.length = d.len) {a : Nat}
    (ha : ∀ d ∈ ds, d.covers a = false) (m : Memory) : (layCode m ds).read a = m.read a := by
  induction ds generalizing m with
  | nil => rfl
  | cons d ds ih =>
    rw [List.forall_mem_cons] at hlen ha
    exact (ih hlen.2 ha.2 _).trans (read_lay_uncovered hlen.1 ha.1 m)

/-- Instructions that lie apart are all there once they are laid down. -/
theorem read_layCode_at {ds : List Descriptor} (hlen : ∀ d ∈ ds, d.bytes.length = d.len)
    (hapart : Descriptor.allApart ds = true) {m : Memory} (hm : m.wf = true) {d : Descriptor} (hd : d ∈ ds) {k : Nat} {v : Byte}
    (hk : d.bytes[k]? = some v) : (layCode m ds).read (d.addr.toNat + k) = v := by
  induction ds generalizing m with
  | nil => cases hd
  | cons e ds ih =>
    simp only [Descriptor.allApart, Bool.and_eq_true, List.all_eq_true] at hapart
    rw [List.forall_mem_cons] at hlen
    have hm' := Memory.wf_lay hm e.addr.toNat (e.bytes.map some)
    rcases List.mem_cons.mp hd with rfl | hd
    · have hoff (f : Descriptor) (hf : f ∈ ds) := Descriptor.not_covers_of_apart (hapart.1 f hf) (Descriptor.covers_byte hlen.1 hk)
      exact (read_layCode_uncovered hlen.2 hoff _).trans (Memory.read_lay_at hm (by simpa using hk))
    · exact ih hlen.2 hapart.2 hm' hd

/-! ## Data blocks -/

/-- The address is none of a block's literals. -/
abbrev noLiteralAt (b : DataBlock) (a : Nat) : Prop := ∀ k v, b.bytes[k]? = some (some v) → b.addr + k ≠ a

theorem read_layData_off {bs : List DataBlock} {a : Nat} (h : ∀ b ∈ bs, noLiteralAt b a) (m : Memory) :
    (layData m bs).read a = m.read a := by
  induction bs generalizing m with
  | nil => rfl
  | cons b bs ih =>
    rw [List.forall_mem_cons] at h
    exact (ih h.2 _).trans (m.read_lay_off h.1)

/-- A literal that no later block overwrites is there (log 24). -/
theorem read_layData_at {before later : List DataBlock} {b : DataBlock} {k : Nat} {v : Byte}
    (hk : b.bytes[k]? = some (some v)) (hlater : ∀ c ∈ later, noLiteralAt c (b.addr + k)) {m : Memory} (hm : m.wf = true) :
    (layData m (before ++ b :: later)).read (b.addr + k) = v := by
  have hsplit : layData m (before ++ b :: later) = layData ((layData m before).lay b.addr b.bytes) later := by
    simp [layData, List.foldl_append]
  rw [hsplit, read_layData_off hlater]
  exact Memory.read_lay_at (wf_layData hm before) hk

/-! ## The obligation -/

/-- A reset lays an admitted Program over the policy's memory (70_reset_and_hazards.md rule R400). -/
theorem resetState_mem_of_admitted {s : State} {p : Program} (h : p.reject? s.params.memMax = none) (policy : Policy) :
    (resetState p policy s).mem = layCode (layData (policyMemory policy s.draws s.mem) p.data) p.descriptors := by
  simp only [resetState, layProgram, h]

/-- Settles O54: the instructions are laid last and lie apart, the data blocks before them in the order of the list, and what
neither touches is the policy's. -/
theorem resetMemory : Obligations.ResetMemory := by
  intro s p policy hwf hadmitted
  obtain ⟨-, hlayout⟩ := (Program.reject?_eq_none_iff _ p).mp hadmitted
  obtain ⟨hplaced, hapart, -⟩ := (Program.layoutProblem?_eq_none_iff _ p).mp hlayout
  have hlen (d : Descriptor) (hd : d ∈ p.descriptors) := Descriptor.bytes_length (hplaced d hd)
  have hpolicy := wf_policyMemory hwf policy s.draws
  rw [resetState_mem_of_admitted hadmitted]
  refine ⟨fun a hcode hdata => ?outside, fun d hd k v hk => ?code, fun before b later hsplit k v hk hcode hlater => ?literal⟩
  case outside =>
    rw [read_layCode_uncovered hlen hcode, read_layData_off hdata]
    cases policy <;> rfl
  case code => exact read_layCode_at hlen hapart (wf_layData hpolicy _) hd hk
  case literal =>
    rw [read_layCode_uncovered hlen hcode, hsplit]
    exact read_layData_at hk hlater hpolicy

end Sys2Proof.Machine
end

section
/-! PROOF. The model's own byte form of a descriptor's code reads back, whatever bytes follow (30_encoding.md section 4, log 2). -/

namespace Sys2Proof

/-- A row with tagged operands reads back. -/
theorem readTagged_flatMap {op : Mnemonic} {w : Option Width} {os : List Operand} (harity : os.length = op.arity)
    (htagged : ∀ o ∈ os, o.tagged (w.getD .w16)) (rest : List Byte) :
    readTagged op w (os.flatMap (operandBytes (w.getD .w16)) ++ rest) =
      .ok ({ family := op.family, op := op, w := w, operands := os }, rest) := by
  rw [readTagged, ← harity, readOperandBytes_flatMap htagged]

/-- The width byte of a family with two widths. -/
def widthByte : Width → Byte
  | .w8 => 0
  | .w16 => 1

/-- A row with a width byte reads back. -/
theorem readWide_flatMap {op : Mnemonic} {w : Width} {os : List Operand} (harity : os.length = op.arity)
    (htagged : ∀ o ∈ os, o.tagged w) (rest : List Byte) :
    readWide op (widthByte w :: os.flatMap (operandBytes w) ++ rest) =
      .ok ({ family := op.family, op := op, w := some w, operands := os }, rest) := by
  have h := readTagged_flatMap (w := some w) harity htagged rest
  cases w with
  | w8 => exact h
  | w16 => exact h

theorem port_tagged (w : Width) (p : Port) : (Operand.port (rawPort p)).tagged w := by
  cases p with
  | imm v => exact v.isLt
  | dx => trivial

theorem dataReg_tagged (w : Width) : (regOperand (dataReg w)).tagged w := by
  cases w <;> trivial

/-- A jump target reads back, low byte first. -/
theorem readBare_target (op : Mnemonic) (t : Word) (rest : List Byte) :
    readBare op (takeWord .target (operandBytes .w16 (.target t) ++ rest)) =
      .ok ({ family := op.family, op := op, w := none, operands := [.target t] }, rest) := by
  simp [operandBytes, takeWord, readBare, Machine.join_high_low]

/-- An interrupt number reads back. -/
theorem readBare_intNum (op : Mnemonic) (n : Byte) (rest : List Byte) :
    readBare op (takeByte (fun n => .intNum n.toNat) (operandBytes .w16 (.intNum n.toNat) ++ rest)) =
      .ok ({ family := op.family, op := op, w := none, operands := [.intNum n.toNat] }, rest) := by
  simp [operandBytes, takeByte, readBare]

/-- The row of an instruction's mnemonic reads the instruction's code back from the bytes after the row number. -/
theorem readRow_encodeCode (i : Instr) (rest : List Byte) :
    readRow i.mnemonic (widthBytes (encodeCode i) ++ i.operands.flatMap (operandBytes (i.width.getD .w16)) ++ rest) =
      .ok (encodeCode i, rest) := by
  cases i with
  | add w o | adc w o | sub w o | sbb w o | cmp w o | and w o | or w o | xor w o | mov w o =>
    cases w <;> exact readWide_flatMap (operandList_length o) (operandList_tagged o) rest
  | inc w d | dec w d | neg w d | not w d =>
    cases w <;> exact readWide_flatMap (locList_length d) (locList_tagged d) rest
  | inp w p =>
    have htagged : ∀ o ∈ [regOperand (dataReg w), .port (rawPort p)], o.tagged w := by
      simp [dataReg_tagged, port_tagged]
    cases w <;> exact readWide_flatMap rfl htagged rest
  | outp w p =>
    have htagged : ∀ o ∈ [.port (rawPort p), regOperand (dataReg w)], o.tagged w := by
      simp [dataReg_tagged, port_tagged]
    cases w <;> exact readWide_flatMap rfl htagged rest
  | push r | pop r =>
    have htagged : ∀ o ∈ [Operand.reg16 r], o.tagged .w16 := by simp [Operand.tagged]
    exact readTagged_flatMap (w := some .w16) rfl htagged rest
  | jmp t | jz t | jnz t | js t | jns t | jc t | jnc t | jo t | jno t | call t => exact readBare_target _ t rest
  | int n => exact readBare_intNum _ n rest
  | pushf | popf | hlt | cli | sti | nop | ret | iret => rfl

theorem readCode_encodeBytes (i : Instr) (rest : List Byte) : readCode (encodeBytes i ++ rest) = .ok (encodeCode i, rest) := by
  simp only [encodeBytes, List.cons_append, readCode, row_readback]
  exact readRow_encodeCode i rest

/-- Settles O38: the byte form reads back as the instruction's code, which decodes to the instruction. -/
theorem byteFormRoundTrip : Obligations.ByteFormRoundTrip := by
  intro i rest
  simp only [decodeBytes, readCode_encodeBytes, Machine.decodeEncode i]

end Sys2Proof
end
